-- ==== Sys2Proof/Word.lean ====
section
/-! DEFINITION. Words and bytes of the pisa netcodec block (00_scope.md R4, R6). -/

namespace Sys2Proof

/-- A 32-bit register value (00_scope.md, end of section 4). -/
abbrev Word := BitVec 32

/-- A byte of `MEM` (R6). -/
abbrev Byte := BitVec 8

end Sys2Proof
end

