-- ==== Sys2Proof/Syntax.lean ====
section
/-! DEFINITION. The commands of the block: one constructor per row of spec/opcode_table.json (30_encoding.md R44). A
command word has no operand fields (R43): every operand is in an argument register (R47). -/

namespace Sys2Proof

/-- The fourteen commands (R44). -/
inductive Instr where
  /-- NOP, R66. -/
  | nop
  /-- CSUM, R74. -/
  | csum
  /-- CSUM_VERIFY, R75. -/
  | csumVerify
  /-- CSUM_UDP, R76. -/
  | csumUdp
  /-- IP_BUILD, R81. -/
  | ipBuild
  /-- UDP_BUILD, R82. -/
  | udpBuild
  /-- UDPIP_BUILD, R83. -/
  | udpipBuild
  /-- IP_DECODE, R84. -/
  | ipDecode
  /-- UDP_DECODE, R85. -/
  | udpDecode
  /-- UDPIP_DECODE, R86. -/
  | udpipDecode
  /-- DHCP_DECODE, R98. -/
  | dhcpDecode
  /-- DHCP_ENCODE, R100. -/
  | dhcpEncode
  /-- OPT_ADDRS, R89. -/
  | optAddrs
  /-- OPT_LEASE, R91. -/
  | optLease
  deriving DecidableEq, Repr

end Sys2Proof
end

