-- ==== Sys2Proof/Config.lean ====
section
/-! DEFINITION. The implementation parameters of 00_scope.md R4 and the one free value of the spec, the contents of
`MEM` after a reset (10_state.md R26). The parameters are plain data that a state carries, so that a statement about
every state speaks of every value of them (log 3). -/

namespace Sys2Proof

/-- How DHCP_DECODE treats option tag 0 (R4, R94). -/
inductive PadMode where
  /-- Tag 0 begins an ordinary tag, length, value record. -/
  | triple
  /-- Tag 0 is a pad of one byte. -/
  | rfc
  deriving DecidableEq, Repr

/-- The parameters of R4. -/
structure Params where
  /-- `MEM_BYTES`: the size of `MEM` in bytes; legal from 1024 to 65536. -/
  memBytes : Nat
  /-- `PAD_MODE`. -/
  padMode : PadMode
  /-- `UDP_TX_ZERO_SUBST`: a computed UDP checksum 0x0000 is written as 0xFFFF (R78). -/
  udpTxZeroSubst : Bool
  /-- `UDP_RX_ZERO_ACCEPT`: a received UDP checksum field 0x0000 skips verification (R80). -/
  udpRxZeroAccept : Bool
  deriving DecidableEq, Repr

/-- The defaults of R4. -/
def Params.defaults : Params :=
  { memBytes := 4096, padMode := .triple, udpTxZeroSubst := false, udpRxZeroAccept := false }

/-- FREE VALUE (log 4): what `MEM[addr]` holds after the reset number `epoch`, until something writes it. The spec
takes each byte as an independent draw at every reset (R26, R116, 93_implementation_defined.md section 1). -/
opaque Config.memDraw (epoch addr : Nat) : Byte

end Sys2Proof
end

