-- ==== Sys2Proof/Machine/HostSyntax.lean ====
section
/-! DEFINITION. What the host agent can do (00_scope.md R8): its accesses to the block space (10_state.md R9, R10), its
program as a list of operations (R25), and the script notation of 30_encoding.md R57. Data only: their meaning stands in
Host.lean and Script.lean. -/

namespace Sys2Proof

/-- A read, or a write of a value (its low 8 bits where the access is 8 bits wide, log 13). -/
inductive AccessKind where
  | read
  | write (value : Word)
  deriving DecidableEq, Repr

/-- One host access: its kind, its width in bits and its byte offset in the block space (R9, R10). Any width and any
offset can be written down; the machine records the ones R10 refuses. -/
structure HostAccess where
  kind : AccessKind
  bits : Nat
  off : Nat
  deriving DecidableEq, Repr

/-- One operation of the host's program. -/
inductive HostOp where
  /-- One access. -/
  | access (a : HostAccess)
  /-- `WAIT` of R57: read `STATUS` until the value read has bit 0 = 0. -/
  | wait
  deriving DecidableEq, Repr

/-- Who moves: an entry of the interleaving (20_memory.md R38), with the reset input (70_reset_and_hazards.md R116). -/
inductive Slot where
  | host
  | engine
  | reset
  deriving DecidableEq, Repr

/-- The registers of the register region (R9). `unlisted` is an aligned offset the table does not list (R11). -/
inductive Reg where
  | id
  | cap
  | ctrl
  | cmd
  | status
  | arg (i : Fin 11)
  | res (i : Fin 8)
  | unlisted
  deriving DecidableEq, Repr

/-- The `<reg>` of a script line: a register's name or a block-space offset (R57). -/
inductive RegOperand where
  | name (r : Reg)
  | offset (off : Nat)
  deriving DecidableEq, Repr

/-- One line of a host script (R57); comments carry nothing. -/
inductive ScriptLine where
  /-- `W <reg>, <value>`. -/
  | w (reg : RegOperand) (value : Word)
  /-- `R <reg>`. -/
  | r (reg : RegOperand)
  /-- `WB <addr>, <b0> ... <bn>`. -/
  | wb (addr : Nat) (bytes : List Byte)
  /-- `RB <addr>, <n>`. -/
  | rb (addr : Nat) (count : Nat)
  /-- `WAIT`. -/
  | waitIdle
  /-- `RUN <MNEMONIC> ARGi=<v>, ...`. -/
  | run (i : Instr) (args : List (Fin 11 × Word))
  /-- `CLR`. -/
  | clr
  /-- `IE <0/1>`. -/
  | ie (enable : Bool)
  deriving DecidableEq, Repr

end Sys2Proof
end

