-- ==== Sys2Proof/WellFormed.lean ====
section
/-! DEFINITION. What a well-formed command, parameter choice and script line are. A command word has no operand fields
(30_encoding.md R43), so every command is well-formed; the checks with content are the legal values of the parameters
(00_scope.md R4) and the lines of a host script (R57). -/

namespace Sys2Proof

/-- Every command is well-formed: it has no field that could hold an illegal value (R43, R47). -/
def Instr.wellFormed : Instr → Bool := fun _ => true

/-- The legal values of R4. -/
def Params.wellFormed (p : Params) : Bool := 1024 ≤ p.memBytes ∧ p.memBytes ≤ 65536

/-- A script's register operand is a listed register or an aligned offset of the register region (R10, R57). -/
def RegOperand.wellFormed : RegOperand → Bool
  | .name r => r ≠ .unlisted
  | .offset off => off < 0x10000 ∧ off % 4 = 0

/-- A script line that writes or reads bytes names at least one byte written, and stays in the buffer window (R57);
`RUN` sets each argument register at most once. -/
def ScriptLine.wellFormed : ScriptLine → Bool
  | .w reg _ => reg.wellFormed
  | .r reg => reg.wellFormed
  | .wb addr bytes => bytes ≠ [] ∧ addr + bytes.length ≤ 0x10000
  | .rb addr count => addr + count ≤ 0x10000
  | .waitIdle => true
  | .run i args => i.wellFormed ∧ (args.map Prod.fst).Nodup
  | .clr => true
  | .ie _ => true

end Sys2Proof
end

