-- ==== Sys2Proof/Decode.lean ====
section
/-! DEFINITION. The command word (30_encoding.md R43, R44, R45): the decoder, total on every word and rejecting by name,
and the encoder. -/

namespace Sys2Proof

/-- Why a word is illegal (R45). -/
inductive DecodeReject where
  /-- `w[31:8]` is not zero. -/
  | reservedBits (rsvd : Nat)
  /-- `w[7:0]` is none of the fourteen opcodes. -/
  | unassigned (op : Nat)
  deriving DecidableEq, Repr

/-- `w[7:0]`, the field `OP` (R43). -/
def opField (w : Word) : Nat := w.toNat % 256

/-- `w[31:8]`, the field `RSVD` (R43). -/
def rsvdField (w : Word) : Nat := w.toNat / 256

/-- The opcode map of R44. -/
def opcodeMap : List (Nat × Instr) :=
  [(0x00, .nop), (0x01, .csum), (0x02, .csumVerify), (0x03, .csumUdp),
   (0x10, .ipBuild), (0x11, .udpBuild), (0x12, .udpipBuild),
   (0x18, .ipDecode), (0x19, .udpDecode), (0x1A, .udpipDecode),
   (0x20, .dhcpDecode), (0x21, .dhcpEncode), (0x28, .optAddrs), (0x29, .optLease)]

/-- The command a word selects: the row whose opcode equals `w[7:0]` when `w[31:8] = 0` (R44); every other word is
illegal (R45, R46). -/
def decode (w : Word) : Except DecodeReject Instr :=
  if rsvdField w ≠ 0 then .error (.reservedBits (rsvdField w))
  else
    match opcodeMap.lookup (opField w) with
    | some i => .ok i
    | none => .error (.unassigned (opField w))

/-- The word of a command: its opcode with `w[31:8] = 0` (R43, R44). -/
def encode : Instr → Word
  | .nop => 0x00000000#32
  | .csum => 0x00000001#32
  | .csumVerify => 0x00000002#32
  | .csumUdp => 0x00000003#32
  | .ipBuild => 0x00000010#32
  | .udpBuild => 0x00000011#32
  | .udpipBuild => 0x00000012#32
  | .ipDecode => 0x00000018#32
  | .udpDecode => 0x00000019#32
  | .udpipDecode => 0x0000001A#32
  | .dhcpDecode => 0x00000020#32
  | .dhcpEncode => 0x00000021#32
  | .optAddrs => 0x00000028#32
  | .optLease => 0x00000029#32

/-- The command the decoder reads from the word `w` of `nbits` bits, bits above `nbits` being zero. A command is one
word of 32 bits (R43), so a wider number is no command word. -/
def decodeTableWord (nbits w : Nat) : Option Instr :=
  if nbits ≤ 32 ∧ w < 2 ^ 32 then (decode (BitVec.ofNat 32 w)).toOption else none

end Sys2Proof
end

