-- ==== Sys2Proof/Machine/State.lean ====
section
/-! DEFINITION. The state of the block and of the agents around it (10_state.md, 00_scope.md R8), as plain data. -/

namespace Sys2Proof.Machine

/-- The values of `STATUS.ERRCODE` (60_exceptions.md R102); codes 12 to 255 are never reported. -/
inductive ErrCode where
  /-- 0 NONE. -/
  | noError
  /-- 1 SHORT. -/
  | short
  /-- 2 COOKIE. -/
  | cookie
  /-- 3 HLEN. -/
  | hlen
  /-- 4 OPT_OVERRUN. -/
  | optOverrun
  /-- 5 CSUM. -/
  | csum
  /-- 6 BADHDR. -/
  | badHdr
  /-- 7 PROTO. -/
  | proto
  /-- 8 RANGE. -/
  | range
  /-- 9 ARG. -/
  | arg
  /-- 10 BADCMD. -/
  | badCmd
  /-- 11 TOOLONG. -/
  | tooLong
  deriving DecidableEq, Repr

/-- The fields of `STATUS` (R16); the bits not listed read 0 and ignore writes, so they are not stored. -/
structure Status where
  busy : Bool
  done : Bool
  err : Bool
  drop : Bool
  errCode : ErrCode
  deriving DecidableEq, Repr

/-- Eleven 32-bit values: `ARG0..ARG10` (R20), and the latched copy `L[0..10]` (R22). -/
structure ArgFile where
  a0 : Word
  a1 : Word
  a2 : Word
  a3 : Word
  a4 : Word
  a5 : Word
  a6 : Word
  a7 : Word
  a8 : Word
  a9 : Word
  a10 : Word
  deriving DecidableEq, Repr

/-- `RES0..RES7` (R21). -/
structure ResFile where
  r0 : Word
  r1 : Word
  r2 : Word
  r3 : Word
  r4 : Word
  r5 : Word
  r6 : Word
  r7 : Word
  deriving DecidableEq, Repr

/-- The whole state. The fields down to `mem` are the block's (10_state.md); `badAccess` and `memWhileBusy` are the
host faults a model records (60_exceptions.md R109); the rest is the model's own (logs 1, 2, 4). `irq`, `ID` and `CAP`
are computed (R12, R13, R19). -/
structure State where
  /-- The parameters of 00_scope.md R4, fixed for a run (log 3). -/
  params : Params
  /-- `CTRL.IE` (R14). -/
  ie : Bool
  /-- `CMDLAST` (R15, R22). -/
  cmdLast : Word
  /-- `STATUS` (R16). -/
  status : Status
  /-- `ARG0..ARG10` (R20). -/
  args : ArgFile
  /-- `RES0..RES7` (R21). -/
  res : ResFile
  /-- `L[0..10]` (R22). -/
  latch : ArgFile
  /-- The bytes of `MEM` written since the last reset (R24), in rising order of address, one entry each; an address
  not listed holds the free value of `epoch` (logs 4, 5). -/
  mem : List Host.Cell
  /-- MODEL's own: how many resets have been taken, which selects the draw of R26 (log 4). -/
  epoch : Nat
  /-- `HOST_BAD_ACCESS` has been recorded (R109). -/
  badAccess : Bool
  /-- `HOST_MEM_WHILE_BUSY` has been recorded (R109, R119). -/
  memWhileBusy : Bool
  /-- MODEL's own: the host's program still to run (R25; log 2). -/
  script : List HostOp
  /-- MODEL's own: the interleaving still to come (R38, R62; log 1). -/
  sched : List Slot
  /-- MODEL's own: the values the host's reads returned, newest first (log 2). -/
  reads : List Word
  deriving DecidableEq, Repr

/-- Why the machine stops. -/
inductive Fault where
  /-- Raised by `step` when no agent has a step: BUSY = 0, no host operation is left and no reset is asserted ("While
  `BUSY = 0` the engine has no step", 40_command.md R60; log 9). Safe: the run ends where nothing can move. -/
  | idle
  deriving DecidableEq, Repr

/-- Why an instruction has no meaning in the model. -/
inductive Refusal where
  /-- Raised by an arm of `exec` for a command that has no meaning yet; no arm does. Safe. -/
  | notModelled (mnemonic : String)
  deriving DecidableEq, Repr

/-- The outcome of a step of this machine. -/
abbrev Result := Host.Outcome State Fault Refusal

/-- All `STATUS` fields at their reset value (R16, R26). -/
def Status.reset : Status :=
  { busy := false, done := false, err := false, drop := false, errCode := .noError }

/-- All eleven values 0 (R26). -/
def ArgFile.reset : ArgFile :=
  { a0 := 0, a1 := 0, a2 := 0, a3 := 0, a4 := 0, a5 := 0, a6 := 0, a7 := 0, a8 := 0, a9 := 0, a10 := 0 }

/-- All eight values 0 (R26). -/
def ResFile.reset : ResFile :=
  { r0 := 0, r1 := 0, r2 := 0, r3 := 0, r4 := 0, r5 := 0, r6 := 0, r7 := 0 }

/-- The machine right after reset (R26): every register at the value the spec gives, no byte of `MEM` written, the
default parameters, no host operation pending and no host fault recorded. -/
def State.reset : State :=
  { params := Params.defaults
    ie := false
    cmdLast := 0
    status := Status.reset
    args := ArgFile.reset
    res := ResFile.reset
    latch := ArgFile.reset
    mem := []
    epoch := 0
    badAccess := false
    memWhileBusy := false
    script := []
    sched := []
    reads := [] }

end Sys2Proof.Machine
end

