-- ==== Sys2Proof/Machine/Flags.lean ====
section
/-! DEFINITION. `STATUS` and `irq`: the word the host reads, and what a start, a dropped request, a completion and a
host write make of the fields (10_state.md R16, R17, R19; 40_command.md R58, R59, R61). -/

namespace Sys2Proof.Machine

/-- The number of an error code (60_exceptions.md R102). -/
def ErrCode.code : ErrCode → Nat
  | .noError => 0
  | .short => 1
  | .cookie => 2
  | .hlen => 3
  | .optOverrun => 4
  | .csum => 5
  | .badHdr => 6
  | .proto => 7
  | .range => 8
  | .arg => 9
  | .badCmd => 10
  | .tooLong => 11

/-- The word a host read of `STATUS` returns (R16): BUSY, DONE, ERR, DROP in bits 0 to 3, ERRCODE in bits 15:8, 0
elsewhere. -/
def Status.toWord (st : Status) : Word :=
  BitVec.ofNat 32
    (st.busy.toNat + 2 * st.done.toNat + 4 * st.err.toNat + 8 * st.drop.toNat + 256 * st.errCode.code)

/-- A command start: BUSY set, DONE, ERR and ERRCODE cleared, DROP unchanged (R58). -/
def Status.started (st : Status) : Status :=
  { st with busy := true, done := false, err := false, errCode := .noError }

/-- A command request while BUSY: DROP set, nothing else (R59). -/
def Status.dropped (st : Status) : Status := { st with drop := true }

/-- A completion without error (R61). -/
def Status.succeeded (st : Status) : Status :=
  { st with busy := false, done := true, err := false, errCode := .noError }

/-- A completion with the error `c` (R61). -/
def Status.failed (st : Status) (c : ErrCode) : Status :=
  { st with busy := false, done := true, err := true, errCode := c }

/-- A host write of `w`: DONE, ERR and DROP are cleared where bits 1, 2 and 3 of `w` are 1, every other bit keeps its
value (R17). -/
def Status.acknowledged (st : Status) (w : Word) : Status :=
  { st with done := st.done && !w.getLsbD 1, err := st.err && !w.getLsbD 2, drop := st.drop && !w.getLsbD 3 }

/-- The interrupt output, `CTRL.IE AND STATUS.DONE` (R19, R105). -/
def State.irq (s : State) : Bool := s.ie && s.status.done

end Sys2Proof.Machine
end

