-- ==== Sys2Proof/Machine/Operands.lean ====
section
/-! DEFINITION. Operand forms: bit fields of argument registers, byte sequences and their big-endian values
(00_scope.md R5, R6; 20_memory.md R30, R32), and the packing of results into 32-bit registers (30_encoding.md R48). -/

namespace Sys2Proof.Machine

/-- `v[hi:lo]` as an unsigned integer (R6). -/
def field (v : Word) (hi lo : Nat) : Nat := v.toNat / 2 ^ lo % 2 ^ (hi + 1 - lo)

/-- `zext_32(v)` (R7). -/
def word (v : Nat) : Word := BitVec.ofNat 32 v

/-- Places the value `v` at bit `lo` of a 32-bit result register (R48). -/
def at32 (v lo : Nat) : Word := word v <<< lo

/-- The byte `v[7:0]` (R6). -/
def byte (v : Nat) : Byte := BitVec.ofNat 8 v

/-- `b[i]` as a number; every use stands behind a length check, so `i < len(b)` (R6). -/
def byteAt (b : List Byte) (i : Nat) : Nat := (b.getD i 0).toNat

/-- `BE16(b, i)` (R6). -/
def be16 (b : List Byte) (i : Nat) : Nat := byteAt b i * 256 + byteAt b (i + 1)

/-- `BE32(b, i)` (R6). -/
def be32 (b : List Byte) (i : Nat) : Nat :=
  byteAt b i * 2 ^ 24 + byteAt b (i + 1) * 2 ^ 16 + byteAt b (i + 2) * 2 ^ 8 + byteAt b (i + 3)

/-- `enc16(v)`, big-endian (R6, R30). -/
def enc16 (v : Nat) : List Byte := [byte (v / 2 ^ 8), byte v]

/-- `enc32(v)`, big-endian (R6, R30). -/
def enc32 (v : Nat) : List Byte := [byte (v / 2 ^ 24), byte (v / 2 ^ 16), byte (v / 2 ^ 8), byte v]

/-- `zeros(n)` (R6). -/
def zeros (n : Nat) : List Byte := List.replicate n 0

/-- `b[i..j]`, the half-open slice (R6). -/
def slice (b : List Byte) (i j : Nat) : List Byte := (b.drop i).take (j - i)

/-- `b` with the bytes from `i` on replaced by `v`, as in "H0 with H[10..12] = enc16(c)" (R77, R78). -/
def patch (b : List Byte) (i : Nat) (v : List Byte) : List Byte := b.take i ++ v ++ b.drop (i + v.length)

end Sys2Proof.Machine
end

