-- ==== Sys2Proof/Machine/Ops.lean ====
section
/-! DEFINITION. The operations every command and every host access is made of: `MEM` (20_memory.md), the checks of a
command, its completion with and without error (40_command.md R61; the block's counterpart of taking an exception is the
error completion, 60_exceptions.md R106), a command start and a dropped request (R58, R59), and reset (70 R116). -/

namespace Sys2Proof.Machine

/-! ### MEM -/

/-- The canonical form of the list of written bytes: addresses strictly rising (log 5). -/
abbrev Memory.wf (m : List Host.Cell) : Prop := m.Pairwise (fun c d => c.1 < d.1)

/-- The byte written at `a`, if one has been written since the last reset. -/
def Memory.lookup (m : List Host.Cell) (a : Nat) : Option Byte :=
  match m with
  | [] => none
  | c :: rest => if c.1 = a then some c.2 else Memory.lookup rest a

/-- The bytes `bs` as cells at `a`, `a + 1`, and so on. -/
def Memory.cells (a : Nat) : List Byte → List Host.Cell
  | [] => []
  | b :: rest => (a, b) :: Memory.cells (a + 1) rest

/-- Writes the bytes `bs` at `a`, `a + 1`, and so on, keeping the rising order of addresses. -/
def Memory.store (m : List Host.Cell) (a : Nat) (bs : List Byte) : List Host.Cell :=
  m.filter (fun c => decide (c.1 < a)) ++ Memory.cells a bs ++ m.filter (fun c => decide (a + bs.length ≤ c.1))

/-- Several scheduled writes in the order they were issued; a later one wins (R28). -/
def Memory.storeAll (m : List Host.Cell) (ws : List (Nat × List Byte)) : List Host.Cell :=
  ws.foldl (fun m w => Memory.store m w.1 w.2) m

/-- What `MEM[a]` reads as: the byte written there since the last reset, or else the free value of R26 (log 4). -/
def State.readByte (s : State) (a : Nat) : Byte := (Memory.lookup s.mem a).getD (Config.memDraw s.epoch a)

/-- `MemRead(addr, n)` (R27); used behind `rangeCheck`. -/
def State.memRead (s : State) (addr n : Nat) : List Byte := (List.range n).map (fun k => s.readByte (addr + k))

/-! ### Checks and completion of a command -/

/-- What a command that ends without error does: the result registers it leaves, and the `MemWrite`s it scheduled in
the order it issued them (R28, R61). -/
structure Effect where
  res : ResFile
  writes : List (Nat × List Byte)
  deriving DecidableEq, Repr

/-- `if bad: raise Error(c)`, and otherwise go on (R65). -/
def raiseIf {α : Type} (bad : Bool) (c : ErrCode) (k : Except ErrCode α) : Except ErrCode α :=
  if bad then .error c else k

/-- `RangeCheck(addr, n)` and then `k` (R64), in unbounded integers. -/
def rangeCheck {α : Type} (s : State) (addr n : Nat) (k : Except ErrCode α) : Except ErrCode α :=
  raiseIf (decide (s.params.memBytes < addr + n)) .range k

/-- Completion without error (R61). -/
def State.succeed (s : State) (e : Effect) : State :=
  { s with res := e.res, mem := Memory.storeAll s.mem e.writes, status := s.status.succeeded }

/-- Completion with the error `c`: nothing but `STATUS` changes (R61, R103, R106). -/
def State.fail (s : State) (c : ErrCode) : State := { s with status := s.status.failed c }

/-- Completion of a command whose pseudocode gave `e` (R61). -/
def finish (s : State) (e : Except ErrCode Effect) : Result :=
  match e with
  | .ok e => .next (s.succeed e)
  | .error c => .next (s.fail c)

/-- The perform step of an illegal word: error BADCMD and no other effect (R45, R63). -/
def execIllegal (s : State) : Result := .next (s.fail .badCmd)

/-! ### Command requests -/

/-- A command start with the word `w` (R58, R22). -/
def State.startCommand (s : State) (w : Word) : State :=
  { s with latch := s.args, cmdLast := w, status := s.status.started }

/-- A dropped command request (R59). -/
def State.dropCommand (s : State) : State := { s with status := s.status.dropped }

/-- A host write of `w` to `CMD` (R15, R58, R59). -/
def State.requestCommand (s : State) (w : Word) : State :=
  if s.status.busy then s.dropCommand else s.startCommand w

/-! ### Reset -/

/-- Reset (R116, R26): every register takes its reset value, a pending command is discarded, and every byte of `MEM` is
unspecified again, a fresh draw. The parameters and what is not the block's (the host's program and what it has read,
the interleaving, the recorded host faults) stay (log 10). -/
def State.assertReset (s : State) : State :=
  { State.reset with
    params := s.params
    epoch := s.epoch + 1
    badAccess := s.badAccess
    memWhileBusy := s.memWhileBusy
    script := s.script
    sched := s.sched
    reads := s.reads }

end Sys2Proof.Machine
end

