-- ==== Sys2Proof/Machine/Host.lean ====
section
/-! DEFINITION. The host's accesses (10_state.md R9 to R24; 60_exceptions.md R109; 70_reset_and_hazards.md R119), the
host's next operation, and which agent moves (00_scope.md R8; 20_memory.md R38; 40_command.md R60). -/

namespace Sys2Proof.Machine

/-! ### The register files by number -/

/-- The `i`-th value of an argument file. -/
def ArgFile.get (f : ArgFile) (i : Fin 11) : Word :=
  match i with
  | 0 => f.a0
  | 1 => f.a1
  | 2 => f.a2
  | 3 => f.a3
  | 4 => f.a4
  | 5 => f.a5
  | 6 => f.a6
  | 7 => f.a7
  | 8 => f.a8
  | 9 => f.a9
  | 10 => f.a10

/-- An argument file with its `i`-th value replaced. -/
def ArgFile.set (f : ArgFile) (i : Fin 11) (v : Word) : ArgFile :=
  match i with
  | 0 => { f with a0 := v }
  | 1 => { f with a1 := v }
  | 2 => { f with a2 := v }
  | 3 => { f with a3 := v }
  | 4 => { f with a4 := v }
  | 5 => { f with a5 := v }
  | 6 => { f with a6 := v }
  | 7 => { f with a7 := v }
  | 8 => { f with a8 := v }
  | 9 => { f with a9 := v }
  | 10 => { f with a10 := v }

/-- The `i`-th result register. -/
def ResFile.get (f : ResFile) (i : Fin 8) : Word :=
  match i with
  | 0 => f.r0
  | 1 => f.r1
  | 2 => f.r2
  | 3 => f.r3
  | 4 => f.r4
  | 5 => f.r5
  | 6 => f.r6
  | 7 => f.r7

/-! ### The register map -/

/-- The register at a 4-byte-aligned offset of the register region (R9); the offsets R9 does not list are `unlisted`
(R11). -/
def regAt (off : Nat) : Reg :=
  if off = 0x000 then .id
  else if off = 0x004 then .cap
  else if off = 0x008 then .ctrl
  else if off = 0x00C then .cmd
  else if off = 0x010 then .status
  else if h : 0x020 ≤ off ∧ off < 0x04C then .arg ⟨(off - 0x020) / 4, by omega⟩
  else if h : 0x060 ≤ off ∧ off < 0x080 then .res ⟨(off - 0x060) / 4, by omega⟩
  else .unlisted

/-- The offset of a register (R9); `unlisted` is given the first offset R11 names. -/
def regOffset : Reg → Nat
  | .id => 0x000
  | .cap => 0x004
  | .ctrl => 0x008
  | .cmd => 0x00C
  | .status => 0x010
  | .arg i => 0x020 + 4 * i.val
  | .res i => 0x060 + 4 * i.val
  | .unlisted => 0x014

/-- What a 32-bit host read of a register returns (R11 to R16, R20, R21). -/
def readReg (s : State) : Reg → Word
  | .id => 0x50495341#32
  | .cap => word s.params.memBytes
  | .ctrl => word s.ie.toNat
  | .cmd => s.cmdLast
  | .status => s.status.toWord
  | .arg i => s.args.get i
  | .res i => s.res.get i
  | .unlisted => 0

/-- What a 32-bit host write of `v` to a register does (R11, R14, R15, R17, R20): a read-only register and an unlisted
offset ignore it. -/
def writeReg (s : State) (r : Reg) (v : Word) : State :=
  match r with
  | .ctrl => { s with ie := v.getLsbD 0 }
  | .cmd => s.requestCommand v
  | .status => { s with status := s.status.acknowledged v }
  | .arg i => { s with args := s.args.set i v }
  | .id => s
  | .cap => s
  | .res _ => s
  | .unlisted => s

/-! ### One access -/

/-- Where an access falls. -/
inductive Place where
  /-- A register, by an aligned 32-bit access to the register region. -/
  | reg (r : Reg)
  /-- The byte `MEM[a]`, or the window byte beyond it, by an 8-bit access to the buffer window. -/
  | window (a : Nat)
  /-- Any other access (R10). -/
  | refused
  deriving DecidableEq, Repr

/-- R9 and R10. -/
def placeOf (bits off : Nat) : Place :=
  if off < 0x10000 then (if bits = 32 ∧ off % 4 = 0 then .reg (regAt off) else .refused)
  else if off < 0x20000 then (if bits = 8 then .window (off - 0x10000) else .refused)
  else .refused

/-- A host read returned `v` to the host. -/
def State.returned (s : State) (v : Word) : State := { s with reads := v :: s.reads }

/-- The host-access fault `HOST_BAD_ACCESS` is recorded (R109). -/
def State.recordBadAccess (s : State) : State := { s with badAccess := true }

/-- The host fault `HOST_MEM_WHILE_BUSY` is recorded (R109, R119). -/
def State.recordMemWhileBusy (s : State) : State := { s with memWhileBusy := true }

/-- An access without effect: a write changes nothing, a read returns 0 (R11, R109). -/
def State.noEffect (s : State) (k : AccessKind) : State :=
  match k with
  | .read => s.returned 0
  | .write _ => s

/-- An 8-bit access to the window byte `a` (R11, R24, R119): beyond `MEM_BYTES` it has no effect, while BUSY it is the
recorded fault HOST_MEM_WHILE_BUSY, and otherwise it reads or writes `MEM[a]` (log 7, log 13). -/
def windowAccess (s : State) (k : AccessKind) (a : Nat) : State :=
  if s.params.memBytes ≤ a then s.noEffect k
  else if s.status.busy then s.recordMemWhileBusy.noEffect k
  else
    match k with
    | .read => s.returned ((s.readByte a).setWidth 32)
    | .write v => { s with mem := Memory.store s.mem a [v.setWidth 8] }

/-- One host access (R10). -/
def hostAccess (s : State) (acc : HostAccess) : State :=
  match placeOf acc.bits acc.off with
  | .refused => s.recordBadAccess.noEffect acc.kind
  | .reg r =>
    match acc.kind with
    | .read => s.returned (readReg s r)
    | .write v => writeReg s r v
  | .window a => windowAccess s acc.kind a

/-- The host's next operation. `WAIT` reads `STATUS` once a step, and is over when the value read has BUSY = 0 (R57,
log 14). -/
def hostStep (s : State) : State :=
  match s.script with
  | [] => s
  | .access acc :: rest => hostAccess { s with script := rest } acc
  | .wait :: rest =>
    if s.status.busy then s.returned s.status.toWord
    else { s with script := rest }.returned s.status.toWord

/-! ### Which agent moves -/

/-- Whether an agent has a step: the host while its program is not over, the engine if and only if BUSY = 1 (R60), the
reset input at any time (R116). -/
def enabled (s : State) : Slot → Bool
  | .host => !s.script.isEmpty
  | .engine => s.status.busy
  | .reset => true

/-- The interleaving still to come, from its first slot whose agent has a step. -/
def agenda (s : State) : List Slot := s.sched.dropWhile (fun x => !enabled s x)

/-- Who moves next: the first agent of the interleaving that has a step; with none left the engine if a command is
pending, else the host if it has an operation left (log 1). -/
def mover (s : State) : Option Slot :=
  match agenda s with
  | x :: _ => some x
  | [] => if s.status.busy then some .engine else if s.script.isEmpty then none else some .host

/-- The state with the slot that moves taken off the interleaving. -/
def State.advance (s : State) : State := { s with sched := (agenda s).tail }

end Sys2Proof.Machine
end

