-- ==== Sys2Proof/Machine/Checksum.lean ====
section
/-! DEFINITION. The checksum functions (41_checksum.md R67 to R72) and the commands CSUM, CSUM_VERIFY and CSUM_UDP
(R74 to R76). -/

namespace Sys2Proof.Machine

/-- `Sum16(b)`: the sum of the big-endian 16-bit words, a trailing odd byte being the high byte of a last word whose
low byte is 0 (R67). -/
def sum16 : List Byte → Nat
  | [] => 0
  | [x] => x.toNat * 256
  | x :: y :: rest => x.toNat * 256 + y.toNat + sum16 rest

/-- The loop of R68, at most `fuel` times. -/
def foldLoop (fuel s : Nat) : Nat :=
  match fuel with
  | 0 => s
  | fuel + 1 => if 0xFFFF < s then foldLoop fuel (s % 0x10000 + s / 0x10000) else s

/-- `Fold(s)` (R68). Each iteration makes `s` smaller, so `s` iterations are enough (log 12). -/
def fold (s : Nat) : Nat := foldLoop s s

/-- `InternetChecksum(b)` (R69). -/
def internetChecksum (b : List Byte) : Nat := 0xFFFF - fold (sum16 b)

/-- `VerifyChecksum(b)` (R70). -/
def verifyChecksum (b : List Byte) : Bool := fold (sum16 b) = 0xFFFF

/-- `Pseudo(srcIP, dstIP, ulen)`, the 12-byte UDP pseudo-header (30_encoding.md R51). -/
def pseudo (srcIP dstIP ulen : Nat) : List Byte := enc32 srcIP ++ enc32 dstIP ++ [0x00, 0x11] ++ enc16 ulen

/-- `UdpSum(srcIP, dstIP, d)` (R72). -/
def udpSum (srcIP dstIP : Nat) (d : List Byte) : Nat := fold (sum16 (pseudo srcIP dstIP d.length ++ d))

/-- `UdpChecksum(srcIP, dstIP, d)` (R72). -/
def udpChecksum (srcIP dstIP : Nat) (d : List Byte) : Nat := 0xFFFF - udpSum srcIP dstIP d

/-- CSUM (R74): `src = L0`, `n = L1`. -/
def csumOutcome (s : State) : Except ErrCode Effect :=
  let src := s.latch.a0.toNat
  let n := s.latch.a1.toNat
  rangeCheck s src n <|
  let f := fold (sum16 (s.memRead src n))
  .ok { res := { s.res with r0 := word (0xFFFF - f), r1 := word f }, writes := [] }

/-- CSUM, performed and completed (R74, R61). -/
def execCsum (s : State) : Result := finish s (csumOutcome s)

/-- CSUM_VERIFY (R75): `src = L0`, `n = L1`. A region that does not verify is no error. -/
def csumVerifyOutcome (s : State) : Except ErrCode Effect :=
  let src := s.latch.a0.toNat
  let n := s.latch.a1.toNat
  rangeCheck s src n <|
  let f := fold (sum16 (s.memRead src n))
  .ok { res := { s.res with r0 := if f = 0xFFFF then 1 else 0, r1 := word f }, writes := [] }

/-- CSUM_VERIFY, performed and completed (R75, R61). -/
def execCsumVerify (s : State) : Result := finish s (csumVerifyOutcome s)

/-- CSUM_UDP (R76): `src = L0`, `n = L1`, `srcIP = L3`, `dstIP = L4`. -/
def csumUdpOutcome (s : State) : Except ErrCode Effect :=
  let src := s.latch.a0.toNat
  let n := s.latch.a1.toNat
  rangeCheck s src n <|
  raiseIf (decide (0xFFFF < n)) .tooLong <|
  let f := udpSum s.latch.a3.toNat s.latch.a4.toNat (s.memRead src n)
  .ok { res := { s.res with r0 := word (0xFFFF - f), r1 := word f }, writes := [] }

/-- CSUM_UDP, performed and completed (R76, R61). -/
def execCsumUdp (s : State) : Result := finish s (csumUdpOutcome s)

end Sys2Proof.Machine
end

