-- ==== Sys2Proof/Machine/Command.lean ====
section
/-! DEFINITION. The command NOP (40_command.md R66). -/

namespace Sys2Proof.Machine

/-- NOP (R66): no operands, no `MEM` and no `RES` write; `STATUS` as every completion sets it (R61). -/
def nopOutcome (s : State) : Except ErrCode Effect := .ok { res := s.res, writes := [] }

/-- NOP, performed and completed (R66, R61). -/
def execNop (s : State) : Result := finish s (nopOutcome s)

end Sys2Proof.Machine
end

