-- ==== Sys2Proof/Machine/Dhcp.lean ====
section
/-! DEFINITION. The DHCP message codec (44_dhcp_codec.md): the decoder's option scan and table, the encoder's message,
and the commands DHCP_DECODE (R98) and DHCP_ENCODE (R100). -/

namespace Sys2Proof.Machine

/-- The magic cookie, `COOKIE` (30_encoding.md R53). -/
def magicCookie : List Byte := [0x63, 0x82, 0x53, 0x63]

/-- One record of the option scan: tag, length and the `MEM` address of its first value byte (R95). -/
structure OptEntry where
  tag : Nat
  len : Nat
  vaddr : Nat
  deriving DecidableEq, Repr

/-- What the option scan has found: the records in scan order, the message type, whether it is valid, and whether the
terminator was seen (R95, R96). -/
structure OptScan where
  entries : List OptEntry
  mt : Nat
  mtv : Bool
  endSeen : Bool
  deriving DecidableEq, Repr

/-- The scan before its first record. -/
def OptScan.start : OptScan := { entries := [], mt := 0, mtv := false, endSeen := false }

/-- `T.append((tag, len, vaddr))` and, for the first length-1 option 53, its value as message type (R95, R96). -/
def OptScan.addRecord (t : OptScan) (tag len vaddr firstValue : Nat) : OptScan :=
  let t' := { t with entries := t.entries ++ [{ tag := tag, len := len, vaddr := vaddr }] }
  if tag = 53 ∧ len = 1 ∧ t.mtv = false then { t' with mt := firstValue, mtv := true } else t'

/-- The loop of R95 from index `i`, at most `fuel` times; `src` is the `MEM` address of `d[0]`. -/
def scanLoop (mode : PadMode) (d : List Byte) (src : Nat) (fuel i : Nat) (t : OptScan) : Except ErrCode OptScan :=
  match fuel with
  | 0 => .ok t
  | fuel + 1 =>
    if d.length ≤ i then .ok t
    else
      let tag := byteAt d i
      if tag = 255 then .ok { t with endSeen := true }
      else if tag = 0 ∧ mode = .rfc then scanLoop mode d src fuel (i + 1) t
      else if d.length ≤ i + 1 then .error .optOverrun
      else
        let len := byteAt d (i + 1)
        if d.length < i + 2 + len then .error .optOverrun
        else scanLoop mode d src fuel (i + 2 + len) (t.addRecord tag len (src + i + 2) (byteAt d (i + 2)))

/-- The options scan of a message that passed R92 (R95). The index starts at 240 and grows in every iteration, so
`len(d)` iterations are enough (log 12). -/
def scanOptions (mode : PadMode) (d : List Byte) (src : Nat) : Except ErrCode OptScan :=
  scanLoop mode d src d.length 240 OptScan.start

/-- The option table: 4 bytes a record, `[tag, len] ++ enc16(value address)` (R97). -/
def optTable (entries : List OptEntry) : List Byte :=
  entries.flatMap fun e => [byte e.tag, byte e.len] ++ enc16 e.vaddr

/-- DHCP_DECODE (R92 to R98): `src = L0`, `n = L1`, `tdst = L2`. -/
def dhcpDecodeOutcome (s : State) : Except ErrCode Effect :=
  let src := s.latch.a0.toNat
  let n := s.latch.a1.toNat
  let tdst := s.latch.a2.toNat
  rangeCheck s src n <|
  let d := s.memRead src n
  raiseIf (decide (n < 240)) .short <|
  raiseIf (decide (16 < byteAt d 2)) .hlen <|
  raiseIf (decide (slice d 236 240 ≠ magicCookie)) .cookie <|
  (scanOptions s.params.padMode d src).bind fun t =>
  rangeCheck s tdst (4 * t.entries.length) <|
  .ok
    { res :=
        { r0 := at32 (byteAt d 0) 0 ||| at32 (byteAt d 1) 8 ||| at32 (byteAt d 2) 16 ||| at32 (byteAt d 3) 24
          r1 := word (be32 d 4)
          r2 := at32 (be16 d 8) 0 ||| at32 (be16 d 10) 16
          r3 := word (be32 d 12)
          r4 := word (be32 d 16)
          r5 := word (be32 d 20)
          r6 := word (be32 d 24)
          r7 := at32 t.mt 0 ||| at32 t.mtv.toNat 8 ||| at32 t.endSeen.toNat 9 ||| at32 t.entries.length 16 }
      writes := [(tdst, optTable t.entries)] }

/-- DHCP_DECODE, performed and completed (R98, R61). -/
def execDhcpDecode (s : State) : Result := finish s (dhcpDecodeOutcome s)

/-- The encoder's `op` byte: 2 for OFFER, ACK and NAK, 1 for every other type (R99). -/
def dhcpOp (mt : Nat) : Nat := if mt = 2 ∨ mt = 5 ∨ mt = 6 then 2 else 1

/-- The 6 hardware address bytes, `enc32(L9) ++ enc16(L10[15:0])` (R100). -/
def dhcpChaddr (l : ArgFile) : List Byte := enc32 l.a9.toNat ++ enc16 (field l.a10 15 0)

/-- The 236-byte fixed header of R100 (layout 30_encoding.md R52). -/
def dhcpHeader (l : ArgFile) : List Byte :=
  [byte (dhcpOp (field l.a10 23 16)), 1, 6, byte (field l.a10 31 24)] ++ enc32 l.a3.toNat ++
    enc16 (field l.a4 15 0) ++ enc16 (field l.a4 31 16) ++
    enc32 l.a5.toNat ++ enc32 l.a6.toNat ++ enc32 l.a7.toNat ++ enc32 l.a8.toNat ++
    dhcpChaddr l ++ zeros 10 ++ zeros 64 ++ zeros 128

/-- The message DHCP_ENCODE writes, for the catalog `c` (R100). -/
def dhcpMessage (l : ArgFile) (c : List Byte) : List Byte :=
  dhcpHeader l ++ magicCookie ++ c ++ [53, 1, byte (field l.a10 23 16), 255]

/-- DHCP_ENCODE (R100): `cat = L0`, `clen = L1`, `dst = L2`, the header fields from `L3` to `L10`. -/
def dhcpEncodeOutcome (s : State) : Except ErrCode Effect :=
  let cat := s.latch.a0.toNat
  let clen := s.latch.a1.toNat
  let dst := s.latch.a2.toNat
  rangeCheck s cat clen <|
  let out := dhcpMessage s.latch (s.memRead cat clen)
  rangeCheck s dst (244 + clen) <|
  .ok { res := { s.res with r0 := word (244 + clen) }, writes := [(dst, out)] }

/-- DHCP_ENCODE, performed and completed (R100, R61). -/
def execDhcpEncode (s : State) : Result := finish s (dhcpEncodeOutcome s)

end Sys2Proof.Machine
end

