-- ==== Sys2Proof/Machine/Framer.lean ====
section
/-! DEFINITION. The IP/UDP framer (42_framer.md): the builders and decoders of R77 to R80 and the six commands of R81 to
R86. -/

namespace Sys2Proof.Machine

/-! ### Functions -/

/-- The 20-byte IPv4 header with its checksum field 0, `H0` of R77 (layout 30_encoding.md R49). -/
def ipHeader (payloadLen proto ttl srcIP dstIP : Nat) : List Byte :=
  [0x45, 0x00] ++ enc16 (20 + payloadLen) ++ enc16 0x0000 ++ enc16 0x0000 ++ [byte ttl, byte proto] ++
    enc16 0x0000 ++ enc32 srcIP ++ enc32 dstIP

/-- `BuildIPv4(p, proto, ttl, srcIP, dstIP)`: the datagram and its header checksum (R77, R71). -/
def buildIPv4 (p : List Byte) (proto ttl srcIP dstIP : Nat) : List Byte × Nat :=
  let h0 := ipHeader p.length proto ttl srcIP dstIP
  let c := internetChecksum h0
  (patch h0 10 (enc16 c) ++ p, c)

/-- The UDP datagram with its checksum field 0, `U0` of R78 (layout 30_encoding.md R50). -/
def udpDatagram (p : List Byte) (sp dp : Nat) : List Byte :=
  enc16 sp ++ enc16 dp ++ enc16 (8 + p.length) ++ enc16 0x0000 ++ p

/-- `BuildUDP(p, sp, dp, srcIP, dstIP)`: the datagram and the checksum field written (R78, R71). -/
def buildUDP (zeroSubst : Bool) (p : List Byte) (sp dp srcIP dstIP : Nat) : List Byte × Nat :=
  let u0 := udpDatagram p sp dp
  let c0 := udpChecksum srcIP dstIP u0
  let c := if zeroSubst ∧ c0 = 0x0000 then 0xFFFF else c0
  (patch u0 6 (enc16 c), c)

/-- The fields `DecodeIPv4` returns (R79). -/
structure Ipv4Fields where
  hl : Nat
  ihl : Nat
  tl : Nat
  tos : Nat
  ident : Nat
  ff : Nat
  ttl : Nat
  proto : Nat
  cs : Nat
  src : Nat
  dst : Nat
  payload : List Byte
  deriving DecidableEq, Repr

/-- `DecodeIPv4(d)`, its checks in the order of R79. -/
def decodeIPv4 (d : List Byte) : Except ErrCode Ipv4Fields :=
  raiseIf (decide (d.length < 20)) .short <|
  let ver := byteAt d 0 / 16
  let ihl := byteAt d 0 % 16
  raiseIf (decide (ver ≠ 4 ∨ ihl < 5)) .badHdr <|
  let hl := 4 * ihl
  raiseIf (decide (d.length < hl)) .short <|
  let tl := be16 d 2
  raiseIf (decide (tl < hl)) .badHdr <|
  raiseIf (decide (d.length < tl)) .short <|
  raiseIf (!verifyChecksum (slice d 0 hl)) .csum <|
  .ok
    { hl := hl, ihl := ihl, tl := tl, tos := byteAt d 1, ident := be16 d 4, ff := be16 d 6,
      ttl := byteAt d 8, proto := byteAt d 9, cs := be16 d 10, src := be32 d 12, dst := be32 d 16,
      payload := slice d hl tl }

/-- The fields `DecodeUDP` returns (R80). -/
structure UdpFields where
  ulen : Nat
  sp : Nat
  dp : Nat
  cs : Nat
  payload : List Byte
  deriving DecidableEq, Repr

/-- `DecodeUDP(d, srcIP, dstIP)`, its checks in the order of R80. -/
def decodeUDP (zeroAccept : Bool) (d : List Byte) (srcIP dstIP : Nat) : Except ErrCode UdpFields :=
  raiseIf (decide (d.length < 8)) .short <|
  let ulen := be16 d 4
  raiseIf (decide (ulen < 8)) .badHdr <|
  raiseIf (decide (d.length < ulen)) .short <|
  let cs := be16 d 6
  raiseIf (!(zeroAccept && cs == 0x0000) && udpSum srcIP dstIP (slice d 0 ulen) != 0xFFFF) .csum <|
  .ok { ulen := ulen, sp := be16 d 0, dp := be16 d 2, cs := cs, payload := slice d 8 ulen }

/-! ### Builders -/

/-- IP_BUILD (R81): `src = L0`, `n = L1`, `dst = L2`, `srcIP = L3`, `dstIP = L4`, `proto = L5[7:0]`,
`ttl = L5[15:8]`. -/
def ipBuildOutcome (s : State) : Except ErrCode Effect :=
  let src := s.latch.a0.toNat
  let n := s.latch.a1.toNat
  let dst := s.latch.a2.toNat
  rangeCheck s src n <|
  raiseIf (decide (0xFFFF < 20 + n)) .tooLong <|
  let out := buildIPv4 (s.memRead src n) (field s.latch.a5 7 0) (field s.latch.a5 15 8)
    s.latch.a3.toNat s.latch.a4.toNat
  rangeCheck s dst (20 + n) <|
  .ok { res := { s.res with r0 := word (20 + n), r1 := word out.2 }, writes := [(dst, out.1)] }

/-- IP_BUILD, performed and completed (R81, R61). -/
def execIpBuild (s : State) : Result := finish s (ipBuildOutcome s)

/-- UDP_BUILD (R82): `src = L0`, `n = L1`, `dst = L2`, `srcIP = L3`, `dstIP = L4`, `sp = L6[15:0]`,
`dp = L6[31:16]`. -/
def udpBuildOutcome (s : State) : Except ErrCode Effect :=
  let src := s.latch.a0.toNat
  let n := s.latch.a1.toNat
  let dst := s.latch.a2.toNat
  rangeCheck s src n <|
  raiseIf (decide (0xFFFF < 8 + n)) .tooLong <|
  let out := buildUDP s.params.udpTxZeroSubst (s.memRead src n) (field s.latch.a6 15 0) (field s.latch.a6 31 16)
    s.latch.a3.toNat s.latch.a4.toNat
  rangeCheck s dst (8 + n) <|
  .ok { res := { s.res with r0 := word (8 + n), r1 := word out.2 }, writes := [(dst, out.1)] }

/-- UDP_BUILD, performed and completed (R82, R61). -/
def execUdpBuild (s : State) : Result := finish s (udpBuildOutcome s)

/-- UDPIP_BUILD (R83): `src = L0`, `n = L1`, `dst = L2`, `srcIP = L3`, `dstIP = L4`, `ttl = L5[15:8]`,
`sp = L6[15:0]`, `dp = L6[31:16]`; the protocol is always 17. -/
def udpipBuildOutcome (s : State) : Except ErrCode Effect :=
  let src := s.latch.a0.toNat
  let n := s.latch.a1.toNat
  let dst := s.latch.a2.toNat
  let srcIP := s.latch.a3.toNat
  let dstIP := s.latch.a4.toNat
  rangeCheck s src n <|
  raiseIf (decide (0xFFFF < 28 + n)) .tooLong <|
  let u := buildUDP s.params.udpTxZeroSubst (s.memRead src n) (field s.latch.a6 15 0) (field s.latch.a6 31 16)
    srcIP dstIP
  let out := buildIPv4 u.1 17 (field s.latch.a5 15 8) srcIP dstIP
  rangeCheck s dst (28 + n) <|
  .ok { res := { s.res with r0 := word (28 + n), r1 := word out.2, r2 := word u.2 }, writes := [(dst, out.1)] }

/-- UDPIP_BUILD, performed and completed (R83, R61). -/
def execUdpipBuild (s : State) : Result := finish s (udpipBuildOutcome s)

/-! ### Decoders -/

/-- IP_DECODE (R84): `src = L0`, `n = L1`. -/
def ipDecodeOutcome (s : State) : Except ErrCode Effect :=
  let src := s.latch.a0.toNat
  let n := s.latch.a1.toNat
  rangeCheck s src n <|
  (decodeIPv4 (s.memRead src n)).bind fun r =>
  .ok
    { res :=
        { r0 := word (src + r.hl)
          r1 := word (r.tl - r.hl)
          r2 := at32 r.proto 0 ||| at32 r.ttl 8 ||| at32 r.ihl 16 ||| at32 r.tos 24
          r3 := word r.src
          r4 := word r.dst
          r5 := at32 r.ident 0 ||| at32 r.ff 16
          r6 := word r.cs
          r7 := word r.tl }
      writes := [] }

/-- IP_DECODE, performed and completed (R84, R61). -/
def execIpDecode (s : State) : Result := finish s (ipDecodeOutcome s)

/-- UDP_DECODE (R85): `src = L0`, `n = L1`, `srcIP = L3`, `dstIP = L4`. -/
def udpDecodeOutcome (s : State) : Except ErrCode Effect :=
  let src := s.latch.a0.toNat
  let n := s.latch.a1.toNat
  rangeCheck s src n <|
  (decodeUDP s.params.udpRxZeroAccept (s.memRead src n) s.latch.a3.toNat s.latch.a4.toNat).bind fun r =>
  .ok
    { res :=
        { s.res with
          r0 := word (src + 8)
          r1 := word (r.ulen - 8)
          r2 := at32 r.sp 0 ||| at32 r.dp 16
          r6 := word r.cs
          r7 := word r.ulen }
      writes := [] }

/-- UDP_DECODE, performed and completed (R85, R61). -/
def execUdpDecode (s : State) : Result := finish s (udpDecodeOutcome s)

/-- UDPIP_DECODE (R86): `src = L0`, `n = L1`. -/
def udpipDecodeOutcome (s : State) : Except ErrCode Effect :=
  let src := s.latch.a0.toNat
  let n := s.latch.a1.toNat
  rangeCheck s src n <|
  (decodeIPv4 (s.memRead src n)).bind fun r =>
  raiseIf (decide (r.proto ≠ 17)) .proto <|
  (decodeUDP s.params.udpRxZeroAccept r.payload r.src r.dst).bind fun u =>
  .ok
    { res :=
        { r0 := word (src + r.hl + 8)
          r1 := word (u.ulen - 8)
          r2 := at32 u.sp 0 ||| at32 u.dp 16
          r3 := word r.src
          r4 := word r.dst
          r5 := at32 r.proto 0 ||| at32 r.ttl 8
          r6 := at32 r.cs 0 ||| at32 u.cs 16
          r7 := at32 r.tl 0 ||| at32 u.ulen 16 }
      writes := [] }

/-- UDPIP_DECODE, performed and completed (R86, R61). -/
def execUdpipDecode (s : State) : Result := finish s (udpipDecodeOutcome s)

end Sys2Proof.Machine
end

