-- ==== Sys2Proof/Machine/Options.lean ====
section
/-! DEFINITION. The option-record encoders (43_options.md): OPT_ADDRS (R89), the lease timers (R90) and OPT_LEASE
(R91). -/

namespace Sys2Proof.Machine

/-- OPT_ADDRS (R89): `src = L0`, `count = L1`, `dst = L2`, `tag = L3[7:0]`. -/
def optAddrsOutcome (s : State) : Except ErrCode Effect :=
  let src := s.latch.a0.toNat
  let count := s.latch.a1.toNat
  let dst := s.latch.a2.toNat
  let tag := field s.latch.a3 7 0
  raiseIf (decide (field s.latch.a3 31 8 ≠ 0 ∨ ¬(tag = 1 ∨ tag = 3 ∨ tag = 4 ∨ tag = 6))) .arg <|
  raiseIf (decide (count = 0 ∨ 63 < count)) .arg <|
  raiseIf (decide (tag = 1 ∧ count ≠ 1)) .arg <|
  rangeCheck s src (4 * count) <|
  let out := [byte tag, byte (4 * count)] ++ s.memRead src (4 * count)
  rangeCheck s dst (2 + 4 * count) <|
  .ok { res := { s.res with r0 := word (2 + 4 * count) }, writes := [(dst, out)] }

/-- OPT_ADDRS, performed and completed (R89, R61). -/
def execOptAddrs (s : State) : Result := finish s (optAddrsOutcome s)

/-- `T1 = lease div 2` (R90). -/
def leaseT1 (lease : Nat) : Nat := lease / 2

/-- `T2 = (33 * lease) div 40` (R90). -/
def leaseT2 (lease : Nat) : Nat := 33 * lease / 40

/-- The three records of R91, 18 bytes. -/
def leaseRecords (lease : Nat) : List Byte :=
  [51, 4] ++ enc32 lease ++ [58, 4] ++ enc32 (leaseT1 lease) ++ [59, 4] ++ enc32 (leaseT2 lease)

/-- OPT_LEASE (R91): `dst = L2`, `lease = L3`. -/
def optLeaseOutcome (s : State) : Except ErrCode Effect :=
  let dst := s.latch.a2.toNat
  let lease := s.latch.a3.toNat
  rangeCheck s dst 18 <|
  .ok
    { res := { s.res with r0 := word 18, r1 := word (leaseT1 lease), r2 := word (leaseT2 lease) }
      writes := [(dst, leaseRecords lease)] }

/-- OPT_LEASE, performed and completed (R91, R61). -/
def execOptLease (s : State) : Result := finish s (optLeaseOutcome s)

end Sys2Proof.Machine
end

