-- ==== Sys2Proof/Machine/Dispatch.lean ====
section
/-! DEFINITION. What the perform step does for each command (40_command.md R60, R63). -/

namespace Sys2Proof.Machine

open Sys2Proof

/-- The command `i` performed on the latched arguments (R60, R63). -/
def exec (i : Instr) (s : State) : Host.Outcome State Fault Refusal :=
  match i with
  | .nop => Sys2Proof.Machine.execNop s
  | .csum => Sys2Proof.Machine.execCsum s
  | .csumVerify => Sys2Proof.Machine.execCsumVerify s
  | .csumUdp => Sys2Proof.Machine.execCsumUdp s
  | .ipBuild => Sys2Proof.Machine.execIpBuild s
  | .udpBuild => Sys2Proof.Machine.execUdpBuild s
  | .udpipBuild => Sys2Proof.Machine.execUdpipBuild s
  | .ipDecode => Sys2Proof.Machine.execIpDecode s
  | .udpDecode => Sys2Proof.Machine.execUdpDecode s
  | .udpipDecode => Sys2Proof.Machine.execUdpipDecode s
  | .dhcpDecode => Sys2Proof.Machine.execDhcpDecode s
  | .dhcpEncode => Sys2Proof.Machine.execDhcpEncode s
  | .optAddrs => Sys2Proof.Machine.execOptAddrs s
  | .optLease => Sys2Proof.Machine.execOptLease s

end Sys2Proof.Machine
end

