-- ==== Sys2Proof/Machine/Perform.lean ====
section
/-! DEFINITION. The engine's perform step (40_command.md R60, R63). -/

namespace Sys2Proof.Machine

/-- The perform step: the command `CMDLAST` selects, on the latched arguments; an illegal word completes with BADCMD
(R60, R63). -/
def performStep (s : State) : Result :=
  match decode s.cmdLast with
  | .ok i => exec i s
  | .error _ => execIllegal s

end Sys2Proof.Machine
end

