-- ==== Sys2Proof/Machine/Script.lean ====
section
/-! DEFINITION. The host script syntax of 30_encoding.md R57: what each line stands for as host operations. -/

namespace Sys2Proof.Machine

/-- The block-space offset a script's register operand names (R57). -/
def RegOperand.resolve : RegOperand → Nat
  | .name r => regOffset r
  | .offset off => off

/-- One 32-bit host write. -/
def write32 (off : Nat) (v : Word) : HostOp := .access { kind := .write v, bits := 32, off := off }

/-- One 32-bit host read. -/
def read32 (off : Nat) : HostOp := .access { kind := .read, bits := 32, off := off }

/-- One 8-bit host write of `MEM[a]`, at the offset `0x10000 + a` (R24). -/
def write8 (a : Nat) (b : Byte) : HostOp := .access { kind := .write (b.setWidth 32), bits := 8, off := 0x10000 + a }

/-- One 8-bit host read of `MEM[a]`. -/
def read8 (a : Nat) : HostOp := .access { kind := .read, bits := 8, off := 0x10000 + a }

/-- The operations a script line stands for (R57). -/
def expandLine : ScriptLine → List HostOp
  | .w reg v => [write32 (RegOperand.resolve reg) v]
  | .r reg => [read32 (RegOperand.resolve reg)]
  | .wb addr bytes => (Memory.cells addr bytes).map (fun c => write8 c.1 c.2)
  | .rb addr count => (List.range count).map (fun k => read8 (addr + k))
  | .waitIdle => [.wait]
  | .run i args =>
    args.map (fun p => write32 (regOffset (.arg p.1)) p.2) ++ [write32 (regOffset .cmd) (encode i), .wait]
  | .clr => [write32 (regOffset .status) 0x0000000E#32]
  | .ie b => [write32 (regOffset .ctrl) (word b.toNat)]

/-- A whole script as the host's program. -/
def assemble (lines : List ScriptLine) : List HostOp := lines.flatMap expandLine

end Sys2Proof.Machine
end

