-- ==== Sys2Proof/Machine/Step.lean ====
section
/-! DEFINITION. One step of the machine: one host operation, one perform step, or a reset (00_scope.md R8; 20_memory.md
R38; 40_command.md R60; 70_reset_and_hazards.md R116). -/

namespace Sys2Proof.Machine

/-- One step: the agent that moves next moves; where none has a step the run ends (logs 1, 9). -/
def step (s : State) : Host.Outcome State Fault Refusal :=
  match mover s with
  | some .host => .next (hostStep s.advance)
  | some .engine => performStep s.advance
  | some .reset => .next s.advance.assertReset
  | none => .fault .idle

/-- `s` with the word `w` started as a command and the engine next to move: a command comes to run by a start (R58),
after which the perform step is the engine's (log 11). A command is one word of 32 bits, so `nbits` is at most 32 and
the bits above it are 0. -/
def State.withFetchWord (s : State) (_nbits w : Nat) : State :=
  { s.startCommand (BitVec.ofNat 32 w) with sched := [] }

end Sys2Proof.Machine
end

