-- ==== Sys2Proof/Safety.lean ====
section
/-! DEFINITION. What a sound state and a safe run are, and the vocabulary the statements are written in: the invariant
every step keeps, the host behaviour claims about a run assume (60_exceptions.md R109), the state after a completion
(40_command.md R61), what a store leaves in `MEM` (20_memory.md R28), and the wire formats of 30_encoding.md in bit-vector
terms, apart from the operations the meanings use. -/

namespace Sys2Proof.Machine

/-! ### Sound states and safe runs -/

/-- The sound states: legal parameters (R4); `MEM` in canonical form and inside `MEM_BYTES` (R24); while BUSY the
outcome fields are clear (R18); ERR is set only together with the code of an error (R61). -/
structure State.Inv (s : State) : Prop where
  legal : s.params.wellFormed = true
  memWf : Memory.wf s.mem
  memInside : ∀ c ∈ s.mem, c.1 < s.params.memBytes
  busyClear : s.status.busy = true → s.status.done = false ∧ s.status.err = false ∧ s.status.errCode = .noError
  errCoded : s.status.err = true → s.status.errCode ≠ .noError

/-- No host fault has been recorded: what a claim about a run assumes (R109). -/
def State.hostClean (s : State) : Prop := s.badAccess = false ∧ s.memWhileBusy = false

/-! ### Completions and stores -/

/-- The state after a completion without error that leaves the result registers `res` and the buffer `mem`: `STATUS` as
R61 sets it, everything else as before. -/
def State.afterSuccess (s : State) (res : ResFile) (mem : List Host.Cell) : State :=
  { s with
    res := res
    mem := mem
    status := { busy := false, done := true, err := false, drop := s.status.drop, errCode := .noError } }

/-- The state after a completion with the error `c`: `STATUS` as R61 sets it, everything else as before. -/
def State.afterError (s : State) (c : ErrCode) : State :=
  { s with status := { busy := false, done := true, err := true, drop := s.status.drop, errCode := c } }

/-- `t` reads as `s` does, but for the bytes `out` from the address `dst` on. -/
def Stored (s t : State) (dst : Nat) (out : List Byte) : Prop :=
  ∀ a, t.readByte a = if dst ≤ a ∧ a < dst + out.length then out.getD (a - dst) 0 else s.readByte a

/-- Two states with the same parameters and latched arguments and the same bytes at every address of `MEM`: what a
command can see of a state (R27, R47). -/
structure SameInputs (s t : State) : Prop where
  params : s.params = t.params
  latch : s.latch = t.latch
  bytes : ∀ a < s.params.memBytes, s.readByte a = t.readByte a

/-- The result registers a command names in the table of R48, by number. -/
def namedRes : Instr → List (Fin 8)
  | .nop => []
  | .csum => [0, 1]
  | .csumVerify => [0, 1]
  | .csumUdp => [0, 1]
  | .ipBuild => [0, 1]
  | .udpBuild => [0, 1]
  | .udpipBuild => [0, 1, 2]
  | .ipDecode => [0, 1, 2, 3, 4, 5, 6, 7]
  | .udpDecode => [0, 1, 2, 6, 7]
  | .udpipDecode => [0, 1, 2, 3, 4, 5, 6, 7]
  | .dhcpDecode => [0, 1, 2, 3, 4, 5, 6, 7]
  | .dhcpEncode => [0]
  | .optAddrs => [0]
  | .optLease => [0, 1, 2]

/-! ### Command words -/

/-- The opcodes of R44. -/
def opcodeOf : Instr → BitVec 8
  | .nop => 0x00
  | .csum => 0x01
  | .csumVerify => 0x02
  | .csumUdp => 0x03
  | .ipBuild => 0x10
  | .udpBuild => 0x11
  | .udpipBuild => 0x12
  | .ipDecode => 0x18
  | .udpDecode => 0x19
  | .udpipDecode => 0x1A
  | .dhcpDecode => 0x20
  | .dhcpEncode => 0x21
  | .optAddrs => 0x28
  | .optLease => 0x29

/-- The illegal words of R45. -/
def IllegalWord (w : Word) : Prop :=
  let op := (w.extractLsb' 0 8).toNat
  w.extractLsb' 8 24 ≠ 0 ∨ (0x04 ≤ op ∧ op ≤ 0x0F) ∨ (0x13 ≤ op ∧ op ≤ 0x17) ∨ (0x1B ≤ op ∧ op ≤ 0x1F) ∨
    (0x22 ≤ op ∧ op ≤ 0x27) ∨ 0x2A ≤ op

/-! ### Wire formats -/

/-- The four bytes of a 32-bit value, most significant first (R6, R30, R32). -/
def wordBytes (v : Word) : List Byte :=
  [v.extractLsb' 24 8, v.extractLsb' 16 8, v.extractLsb' 8 8, v.extractLsb' 0 8]

/-- The two bytes of a 16-bit value, most significant first (R6, R30). -/
def halfBytes (v : BitVec 16) : List Byte := [v.extractLsb' 8 8, v.extractLsb' 0 8]

/-- The IPv4 header of R49 and R77 with the checksum field `c`, for a datagram of `total` bytes. -/
def ipHeaderWith (c : BitVec 16) (total : Nat) (proto ttl : Byte) (srcIP dstIP : Word) : List Byte :=
  [0x45, 0x00] ++ halfBytes (BitVec.ofNat 16 total) ++ [0x00, 0x00, 0x00, 0x00] ++ [ttl, proto] ++ halfBytes c ++
    wordBytes srcIP ++ wordBytes dstIP

/-- The checksum of R77: over the header with its checksum field 0. -/
def ipChecksumOf (total : Nat) (proto ttl : Byte) (srcIP dstIP : Word) : Nat :=
  0xFFFF - fold (sum16 (ipHeaderWith 0 total proto ttl srcIP dstIP))

/-- The datagram IP_BUILD makes of the payload `p` (R77). -/
def ipDatagram (p : List Byte) (proto ttl : Byte) (srcIP dstIP : Word) : List Byte :=
  ipHeaderWith (BitVec.ofNat 16 (ipChecksumOf (20 + p.length) proto ttl srcIP dstIP)) (20 + p.length) proto ttl
    srcIP dstIP ++ p

/-- The folded sum over a UDP datagram with the pseudo-header of R51 (R72). -/
def udpSumOf (srcIP dstIP : Word) (d : List Byte) : Nat :=
  fold (sum16 (wordBytes srcIP ++ wordBytes dstIP ++ [0x00, 0x11] ++ halfBytes (BitVec.ofNat 16 d.length) ++ d))

/-- The UDP datagram of R50 and R78 with the checksum field `c`. -/
def udpWith (c : BitVec 16) (p : List Byte) (sp dp : BitVec 16) : List Byte :=
  halfBytes sp ++ halfBytes dp ++ halfBytes (BitVec.ofNat 16 (8 + p.length)) ++ halfBytes c ++ p

/-- The checksum field of R78: the complement of the sum over the datagram with its field 0, a zero being replaced by
0xFFFF where `UDP_TX_ZERO_SUBST` is set. -/
def udpChecksumOf (zeroSubst : Bool) (p : List Byte) (sp dp : BitVec 16) (srcIP dstIP : Word) : Nat :=
  let c := 0xFFFF - udpSumOf srcIP dstIP (udpWith 0 p sp dp)
  if zeroSubst = true ∧ c = 0 then 0xFFFF else c

/-- The datagram UDP_BUILD makes of the payload `p` (R78). -/
def udpDatagramOf (zeroSubst : Bool) (p : List Byte) (sp dp : BitVec 16) (srcIP dstIP : Word) : List Byte :=
  udpWith (BitVec.ofNat 16 (udpChecksumOf zeroSubst p sp dp srcIP dstIP)) p sp dp

/-- The checks of R79, all passed. -/
structure IpAccepts (d : List Byte) : Prop where
  fixedPart : 20 ≤ d.length
  version : byteAt d 0 / 16 = 4
  ihl : 5 ≤ byteAt d 0 % 16
  header : 4 * (byteAt d 0 % 16) ≤ d.length
  totalAtLeast : 4 * (byteAt d 0 % 16) ≤ be16 d 2
  totalAtMost : be16 d 2 ≤ d.length
  checksum : fold (sum16 (d.take (4 * (byteAt d 0 % 16)))) = 0xFFFF

/-- The checksum test of R80 passes. -/
def UdpVerifies (zeroAccept : Bool) (d : List Byte) (srcIP dstIP : Word) : Prop :=
  (zeroAccept = true ∧ be16 d 6 = 0) ∨ udpSumOf srcIP dstIP (d.take (be16 d 4)) = 0xFFFF

/-- The checks of R80, all passed. -/
structure UdpAccepts (zeroAccept : Bool) (d : List Byte) (srcIP dstIP : Word) : Prop where
  fixedPart : 8 ≤ d.length
  lengthAtLeast : 8 ≤ be16 d 4
  lengthAtMost : be16 d 4 ≤ d.length
  checksum : UdpVerifies zeroAccept d srcIP dstIP

/-- The options scan of R95 from the index `i`, with as many iterations as there are bytes left. -/
def scanFrom (mode : PadMode) (d : List Byte) (src i : Nat) (t : OptScan) : Except ErrCode OptScan :=
  scanLoop mode d src (d.length - i) i t

/-- The entry of R97 for one record. -/
def tableEntry (tag len : Byte) (vaddr : Nat) : List Byte := [tag, len] ++ halfBytes (BitVec.ofNat 16 vaddr)

/-- The record of R54 with the given tag and value. -/
def optRecord (r : Byte × List Byte) : List Byte := [r.1, BitVec.ofNat 8 r.2.length] ++ r.2

/-- The message DHCP_ENCODE makes of the arguments `l` and the catalog `c` (R52, R99, R100). -/
def dhcpMessageOf (l : ArgFile) (c : List Byte) : List Byte :=
  let mt : Byte := l.a10.extractLsb' 16 8
  let op : Byte := if mt = 2 ∨ mt = 5 ∨ mt = 6 then 2 else 1
  [op, 1, 6, l.a10.extractLsb' 24 8] ++ wordBytes l.a3 ++
    halfBytes (l.a4.extractLsb' 0 16) ++ halfBytes (l.a4.extractLsb' 16 16) ++
    wordBytes l.a5 ++ wordBytes l.a6 ++ wordBytes l.a7 ++ wordBytes l.a8 ++
    (wordBytes l.a9 ++ halfBytes (l.a10.extractLsb' 0 16)) ++ List.replicate (10 + 64 + 128) 0 ++
    [0x63, 0x82, 0x53, 0x63] ++ c ++ [53, 1, mt, 255]

end Sys2Proof.Machine
end

