-- ==== Sys2Proof/Certificates/Slice0/Obligations.lean ====
section
/-! DEFINITION. The statements about the model, from the numbered rules of the spec. Each docstring names the rule. -/

open Sys2Proof Sys2Proof.Machine

/-! ### Encoding -/

/-- The fourteen words of the opcode table, written out bit by bit, decode to their commands (R43, R44). -/
def Obligations.SpecWordsDecode : Prop :=
  decode 0b00000000000000000000000000000000#32 = .ok .nop ∧
  decode 0b00000000000000000000000000000001#32 = .ok .csum ∧
  decode 0b00000000000000000000000000000010#32 = .ok .csumVerify ∧
  decode 0b00000000000000000000000000000011#32 = .ok .csumUdp ∧
  decode 0b00000000000000000000000000010000#32 = .ok .ipBuild ∧
  decode 0b00000000000000000000000000010001#32 = .ok .udpBuild ∧
  decode 0b00000000000000000000000000010010#32 = .ok .udpipBuild ∧
  decode 0b00000000000000000000000000011000#32 = .ok .ipDecode ∧
  decode 0b00000000000000000000000000011001#32 = .ok .udpDecode ∧
  decode 0b00000000000000000000000000011010#32 = .ok .udpipDecode ∧
  decode 0b00000000000000000000000000100000#32 = .ok .dhcpDecode ∧
  decode 0b00000000000000000000000000100001#32 = .ok .dhcpEncode ∧
  decode 0b00000000000000000000000000101000#32 = .ok .optAddrs ∧
  decode 0b00000000000000000000000000101001#32 = .ok .optLease

/-- R44: the command a word selects is the row whose opcode equals `w[7:0]` when `w[31:8] = 0`; and decoding inverts
encoding, on every command and on every legal word. -/
def Obligations.DecodeAndEncodeAgree : Prop :=
  (∀ i, decode (encode i) = .ok i) ∧
  (∀ w i, decode w = .ok i → encode i = w) ∧
  (∀ w i, decode w = .ok i ↔ w.extractLsb' 8 24 = 0 ∧ w.extractLsb' 0 8 = opcodeOf i)

/-- R45: the illegal words are exactly the words that are no command; an illegal word starts a command like any other,
and its perform step completes it with BADCMD and no other effect. -/
def Obligations.IllegalWordsCompleteWithBadCmd : Prop :=
  ∀ w, ((∃ i, decode w = .ok i) ↔ ¬ IllegalWord w) ∧
    (IllegalWord w →
      (∀ s : State, s.status.busy = false →
        hostAccess s { kind := .write w, bits := 32, off := 0x00C } =
          { s with
            latch := s.args
            cmdLast := w
            status := { busy := true, done := false, err := false, drop := s.status.drop, errCode := .noError } }) ∧
      (∀ s : State, s.cmdLast = w → performStep s = .next (s.afterError .badCmd)))

/-! ### Steps -/

/-- A perform step runs the command its word decodes to, and completes with BADCMD where it decodes to none (R60, R63):
`step` is `exec` of the command, with the slot the engine used taken off the interleaving (the interleaving is the
model's own, log 1). -/
def Obligations.StepRunsDecodedCommand : Prop :=
  ∀ s : State, mover s = some .engine →
    (∀ i, decode s.cmdLast = .ok i → step s = exec i { s with sched := (agenda s).tail }) ∧
    ((∀ i, decode s.cmdLast ≠ .ok i) →
      step s = .next (State.afterError { s with sched := (agenda s).tail } .badCmd))

/-- A host step makes the host's next access, or one read of `STATUS` for `WAIT`, which is over when the value read has
BUSY = 0 (R38, R57; the operation list and the interleaving are the model's own, logs 1, 2 and 14). -/
def Obligations.HostStepMakesNextOperation : Prop :=
  ∀ (s : State) (rest : List HostOp), mover s = some .host →
    (∀ acc, s.script = .access acc :: rest →
      step s = .next (hostAccess { s with script := rest, sched := (agenda s).tail } acc)) ∧
    (s.script = .wait :: rest →
      step s = .next
        { s with
          script := if s.status.busy then .wait :: rest else rest
          sched := (agenda s).tail
          reads := s.status.toWord :: s.reads })

/-- The engine moves only while BUSY = 1, and its perform step always completes: BUSY = 0 and DONE = 1 at its end
(R60, R61). -/
def Obligations.PerformStepCompletes : Prop :=
  ∀ s : State, mover s = some .engine →
    s.status.busy = true ∧ ∃ t, step s = .next t ∧ t.status.busy = false ∧ t.status.done = true

/-- The machine stops exactly where no agent has a step: BUSY = 0, no host operation left and no reset to come; and
nothing is refused (R60; that no step is a stop is the model's reading, log 9). -/
def Obligations.StepStopsExactlyWhenIdle : Prop :=
  ∀ s : State,
    (step s = .fault .idle ↔ s.status.busy = false ∧ s.script = [] ∧ Slot.reset ∉ s.sched) ∧
    ∀ r, step s ≠ .refused r

/-- R58: a host write to `CMD` while BUSY = 0 starts a command. -/
def Obligations.CommandStartLatchesArguments : Prop :=
  ∀ (s : State) (w : Word), s.status.busy = false →
    hostAccess s { kind := .write w, bits := 32, off := 0x00C } =
      { s with
        latch := s.args
        cmdLast := w
        status := { busy := true, done := false, err := false, drop := s.status.drop, errCode := .noError } }

/-- R59: a host write to `CMD` while BUSY = 1 is dropped; DROP is set and nothing else changes. -/
def Obligations.RequestWhileBusyIsDropped : Prop :=
  ∀ (s : State) (w : Word), s.status.busy = true →
    hostAccess s { kind := .write w, bits := 32, off := 0x00C } = { s with status := { s.status with drop := true } }

/-! ### What every command leaves alone -/

/-- The frame of all fourteen commands: whatever a command does, only the result registers, the buffer and `STATUS`
change, and of `STATUS` not DROP; BUSY ends 0 and DONE 1 (R61). -/
def Obligations.CommandsChangeOnlyResultsBufferStatus : Prop :=
  ∀ (i : Instr) (s t : State), exec i s = .next t →
    t = { s with res := t.res, mem := t.mem, status := t.status } ∧
    t.status.drop = s.status.drop ∧ t.status.busy = false ∧ t.status.done = true

/-- R103: an error records only ERR, DONE and ERRCODE; the command word, the arguments, the result registers and every
byte of the buffer are as before the command, for the fourteen commands and for illegal words alike. -/
def Obligations.ErrorsArePrecise : Prop :=
  (∀ (i : Instr) (s t : State), exec i s = .next t → t.status.err = true →
    t = s.afterError t.status.errCode ∧ t.status.errCode ≠ .noError) ∧
  ∀ (s t : State), performStep s = .next t → t.status.err = true →
    t = s.afterError t.status.errCode ∧ t.status.errCode ≠ .noError

/-- A command writes no result register that its row of R48 does not name. -/
def Obligations.OnlyNamedResultsWritten : Prop :=
  ∀ (i : Instr) (s t : State) (k : Fin 8), exec i s = .next t → k ∉ namedRes i → t.res.get k = s.res.get k

/-- The result registers change only in the perform step of a command that succeeds, or in a reset (R21, R122, R116);
the latched arguments and `CMDLAST` change only when the host starts a command, or in a reset (R22, R41). -/
def Obligations.ResultsAndLatchChangeOnlyWhereSaid : Prop :=
  ∀ s t : State, step s = .next t →
    (t.res ≠ s.res → mover s = some .reset ∨ (mover s = some .engine ∧ t.status.done = true ∧ t.status.err = false)) ∧
    (t.latch ≠ s.latch ∨ t.cmdLast ≠ s.cmdLast →
      mover s = some .reset ∨
        (mover s = some .host ∧ s.status.busy = false ∧ t.status.busy = true ∧ t.latch = s.args))

/-- The memory frame of NOP, CSUM, CSUM_VERIFY, CSUM_UDP, IP_DECODE, UDP_DECODE and UDPIP_DECODE, which store nothing,
and of every command that ends with an error: every byte reads as before (R28, R48, R61). -/
def Obligations.CommandsThatStoreNothing : Prop :=
  ∀ (i : Instr) (s t : State), exec i s = .next t →
    i ∈ [Instr.nop, .csum, .csumVerify, .csumUdp, .ipDecode, .udpDecode, .udpipDecode] ∨ t.status.err = true →
    t.mem = s.mem ∧ ∀ a, t.readByte a = s.readByte a

/-- The memory frame of the storing commands: every byte outside the output region reads as before. The region starts
at `L2` and has the length the command's rule gives; for DHCP_DECODE, 4 bytes for each record of the scan. -/
def Obligations.StoringCommandsKeepOtherBytes : Prop :=
  ∀ (i : Instr) (s t : State) (a len : Nat), exec i s = .next t →
    (i = .ipBuild ∧ len = 20 + s.latch.a1.toNat) ∨ (i = .udpBuild ∧ len = 8 + s.latch.a1.toNat) ∨
      (i = .udpipBuild ∧ len = 28 + s.latch.a1.toNat) ∨ (i = .optAddrs ∧ len = 2 + 4 * s.latch.a1.toNat) ∨
      (i = .optLease ∧ len = 18) ∨ (i = .dhcpEncode ∧ len = 244 + s.latch.a1.toNat) ∨
      (i = .dhcpDecode ∧ ∃ r, scanOptions s.params.padMode (s.memRead s.latch.a0.toNat s.latch.a1.toNat)
        s.latch.a0.toNat = .ok r ∧ len = 4 * r.entries.length) →
    a < s.latch.a2.toNat ∨ s.latch.a2.toNat + len ≤ a →
    t.readByte a = s.readByte a

/-! ### The commands -/

/-- NOP completes without error and changes nothing but `STATUS` (R66). -/
def Obligations.NopCompletes : Prop :=
  decode 0x00#32 = .ok .nop ∧ ∀ s : State, exec .nop s = .next (s.afterSuccess s.res s.mem)

/-- R74: CSUM. -/
def Obligations.CsumResult : Prop :=
  decode 0x01#32 = .ok .csum ∧
  ∀ (s : State) (src n : Nat), src = s.latch.a0.toNat → n = s.latch.a1.toNat →
    (src + n ≤ s.params.memBytes →
      exec .csum s = .next (s.afterSuccess
        { s.res with
          r0 := BitVec.ofNat 32 (0xFFFF - fold (sum16 (s.memRead src n)))
          r1 := BitVec.ofNat 32 (fold (sum16 (s.memRead src n))) } s.mem)) ∧
    (s.params.memBytes < src + n → exec .csum s = .next (s.afterError .range))

/-- R75: CSUM_VERIFY; a region that does not verify is no error. -/
def Obligations.CsumVerifyResult : Prop :=
  decode 0x02#32 = .ok .csumVerify ∧
  ∀ (s : State) (src n : Nat), src = s.latch.a0.toNat → n = s.latch.a1.toNat →
    (src + n ≤ s.params.memBytes →
      exec .csumVerify s = .next (s.afterSuccess
        { s.res with
          r0 := if fold (sum16 (s.memRead src n)) = 0xFFFF then 1 else 0
          r1 := BitVec.ofNat 32 (fold (sum16 (s.memRead src n))) } s.mem)) ∧
    (s.params.memBytes < src + n → exec .csumVerify s = .next (s.afterError .range))

/-- R76: CSUM_UDP. -/
def Obligations.CsumUdpResult : Prop :=
  decode 0x03#32 = .ok .csumUdp ∧
  ∀ (s : State) (src n : Nat), src = s.latch.a0.toNat → n = s.latch.a1.toNat →
    (src + n ≤ s.params.memBytes → n ≤ 0xFFFF →
      exec .csumUdp s = .next (s.afterSuccess
        { s.res with
          r0 := BitVec.ofNat 32 (0xFFFF - udpSumOf s.latch.a3 s.latch.a4 (s.memRead src n))
          r1 := BitVec.ofNat 32 (udpSumOf s.latch.a3 s.latch.a4 (s.memRead src n)) } s.mem)) ∧
    (s.params.memBytes < src + n → exec .csumUdp s = .next (s.afterError .range)) ∧
    (src + n ≤ s.params.memBytes → 0xFFFF < n → exec .csumUdp s = .next (s.afterError .tooLong))

/-- R81 with R77: IP_BUILD. -/
def Obligations.IpBuildResult : Prop :=
  decode 0x10#32 = .ok .ipBuild ∧
  ∀ (s : State) (src n dst : Nat) (proto ttl : Byte), src = s.latch.a0.toNat → n = s.latch.a1.toNat →
    dst = s.latch.a2.toNat → proto = s.latch.a5.extractLsb' 0 8 → ttl = s.latch.a5.extractLsb' 8 8 →
    (src + n ≤ s.params.memBytes → 20 + n ≤ 0xFFFF → dst + (20 + n) ≤ s.params.memBytes →
      ∃ t, exec .ipBuild s = .next t ∧
        t = s.afterSuccess
          { s.res with
            r0 := BitVec.ofNat 32 (20 + n)
            r1 := BitVec.ofNat 32 (ipChecksumOf (20 + n) proto ttl s.latch.a3 s.latch.a4) } t.mem ∧
        Stored s t dst (ipDatagram (s.memRead src n) proto ttl s.latch.a3 s.latch.a4)) ∧
    (s.params.memBytes < src + n → exec .ipBuild s = .next (s.afterError .range)) ∧
    (src + n ≤ s.params.memBytes → 0xFFFF < 20 + n → exec .ipBuild s = .next (s.afterError .tooLong)) ∧
    (src + n ≤ s.params.memBytes → 20 + n ≤ 0xFFFF → s.params.memBytes < dst + (20 + n) →
      exec .ipBuild s = .next (s.afterError .range))

/-- R82 with R78: UDP_BUILD. -/
def Obligations.UdpBuildResult : Prop :=
  decode 0x11#32 = .ok .udpBuild ∧
  ∀ (s : State) (src n dst : Nat) (sp dp : BitVec 16), src = s.latch.a0.toNat → n = s.latch.a1.toNat →
    dst = s.latch.a2.toNat → sp = s.latch.a6.extractLsb' 0 16 → dp = s.latch.a6.extractLsb' 16 16 →
    (src + n ≤ s.params.memBytes → 8 + n ≤ 0xFFFF → dst + (8 + n) ≤ s.params.memBytes →
      ∃ t, exec .udpBuild s = .next t ∧
        t = s.afterSuccess
          { s.res with
            r0 := BitVec.ofNat 32 (8 + n)
            r1 := BitVec.ofNat 32 (udpChecksumOf s.params.udpTxZeroSubst (s.memRead src n) sp dp s.latch.a3
              s.latch.a4) } t.mem ∧
        Stored s t dst (udpDatagramOf s.params.udpTxZeroSubst (s.memRead src n) sp dp s.latch.a3 s.latch.a4)) ∧
    (s.params.memBytes < src + n → exec .udpBuild s = .next (s.afterError .range)) ∧
    (src + n ≤ s.params.memBytes → 0xFFFF < 8 + n → exec .udpBuild s = .next (s.afterError .tooLong)) ∧
    (src + n ≤ s.params.memBytes → 8 + n ≤ 0xFFFF → s.params.memBytes < dst + (8 + n) →
      exec .udpBuild s = .next (s.afterError .range))

/-- R83: UDPIP_BUILD, the IPv4 datagram with protocol 17 around the UDP datagram. -/
def Obligations.UdpipBuildResult : Prop :=
  decode 0x12#32 = .ok .udpipBuild ∧
  ∀ (s : State) (src n dst : Nat) (ttl : Byte) (sp dp : BitVec 16) (udp : List Byte), src = s.latch.a0.toNat →
    n = s.latch.a1.toNat → dst = s.latch.a2.toNat → ttl = s.latch.a5.extractLsb' 8 8 →
    sp = s.latch.a6.extractLsb' 0 16 → dp = s.latch.a6.extractLsb' 16 16 →
    udp = udpDatagramOf s.params.udpTxZeroSubst (s.memRead src n) sp dp s.latch.a3 s.latch.a4 →
    (src + n ≤ s.params.memBytes → 28 + n ≤ 0xFFFF → dst + (28 + n) ≤ s.params.memBytes →
      ∃ t, exec .udpipBuild s = .next t ∧
        t = s.afterSuccess
          { s.res with
            r0 := BitVec.ofNat 32 (28 + n)
            r1 := BitVec.ofNat 32 (ipChecksumOf (28 + n) 17 ttl s.latch.a3 s.latch.a4)
            r2 := BitVec.ofNat 32 (udpChecksumOf s.params.udpTxZeroSubst (s.memRead src n) sp dp s.latch.a3
              s.latch.a4) } t.mem ∧
        Stored s t dst (ipDatagram udp 17 ttl s.latch.a3 s.latch.a4)) ∧
    (s.params.memBytes < src + n → exec .udpipBuild s = .next (s.afterError .range)) ∧
    (src + n ≤ s.params.memBytes → 0xFFFF < 28 + n → exec .udpipBuild s = .next (s.afterError .tooLong)) ∧
    (src + n ≤ s.params.memBytes → 28 + n ≤ 0xFFFF → s.params.memBytes < dst + (28 + n) →
      exec .udpipBuild s = .next (s.afterError .range))

/-- R84 with R79: IP_DECODE, its result when every check passes, and the error of the first check that does not. -/
def Obligations.IpDecodeResult : Prop :=
  decode 0x18#32 = .ok .ipDecode ∧
  ∀ (s : State) (src n hl tl : Nat) (d : List Byte), src = s.latch.a0.toNat → n = s.latch.a1.toNat →
    d = s.memRead src n → hl = 4 * (byteAt d 0 % 16) → tl = be16 d 2 →
    (src + n ≤ s.params.memBytes → IpAccepts d →
      exec .ipDecode s = .next (s.afterSuccess
        { r0 := BitVec.ofNat 32 (src + hl)
          r1 := BitVec.ofNat 32 (tl - hl)
          r2 := BitVec.ofNat 32 (byteAt d 9 + byteAt d 8 * 2 ^ 8 + byteAt d 0 % 16 * 2 ^ 16 + byteAt d 1 * 2 ^ 24)
          r3 := BitVec.ofNat 32 (be32 d 12)
          r4 := BitVec.ofNat 32 (be32 d 16)
          r5 := BitVec.ofNat 32 (be16 d 4 + be16 d 6 * 2 ^ 16)
          r6 := BitVec.ofNat 32 (be16 d 10)
          r7 := BitVec.ofNat 32 tl } s.mem)) ∧
    (s.params.memBytes < src + n → exec .ipDecode s = .next (s.afterError .range)) ∧
    (src + n ≤ s.params.memBytes →
      (n < 20 → exec .ipDecode s = .next (s.afterError .short)) ∧
      (20 ≤ n → byteAt d 0 / 16 ≠ 4 ∨ byteAt d 0 % 16 < 5 → exec .ipDecode s = .next (s.afterError .badHdr)) ∧
      (20 ≤ n → byteAt d 0 / 16 = 4 → 5 ≤ byteAt d 0 % 16 →
        (n < hl → exec .ipDecode s = .next (s.afterError .short)) ∧
        (hl ≤ n → tl < hl → exec .ipDecode s = .next (s.afterError .badHdr)) ∧
        (hl ≤ n → hl ≤ tl → n < tl → exec .ipDecode s = .next (s.afterError .short)) ∧
        (hl ≤ n → hl ≤ tl → tl ≤ n → fold (sum16 (d.take hl)) ≠ 0xFFFF →
          exec .ipDecode s = .next (s.afterError .csum))))

/-- R85 with R80: UDP_DECODE, its result when every check passes, and the error of the first check that does not. -/
def Obligations.UdpDecodeResult : Prop :=
  decode 0x19#32 = .ok .udpDecode ∧
  ∀ (s : State) (src n : Nat) (d : List Byte), src = s.latch.a0.toNat → n = s.latch.a1.toNat → d = s.memRead src n →
    (src + n ≤ s.params.memBytes → UdpAccepts s.params.udpRxZeroAccept d s.latch.a3 s.latch.a4 →
      exec .udpDecode s = .next (s.afterSuccess
        { s.res with
          r0 := BitVec.ofNat 32 (src + 8)
          r1 := BitVec.ofNat 32 (be16 d 4 - 8)
          r2 := BitVec.ofNat 32 (be16 d 0 + be16 d 2 * 2 ^ 16)
          r6 := BitVec.ofNat 32 (be16 d 6)
          r7 := BitVec.ofNat 32 (be16 d 4) } s.mem)) ∧
    (s.params.memBytes < src + n → exec .udpDecode s = .next (s.afterError .range)) ∧
    (src + n ≤ s.params.memBytes →
      (n < 8 → exec .udpDecode s = .next (s.afterError .short)) ∧
      (8 ≤ n → be16 d 4 < 8 → exec .udpDecode s = .next (s.afterError .badHdr)) ∧
      (8 ≤ be16 d 4 → 8 ≤ n → n < be16 d 4 → exec .udpDecode s = .next (s.afterError .short)) ∧
      (8 ≤ be16 d 4 → be16 d 4 ≤ n → ¬ UdpVerifies s.params.udpRxZeroAccept d s.latch.a3 s.latch.a4 →
        exec .udpDecode s = .next (s.afterError .csum)))

/-- R86: UDPIP_DECODE. An error of IP_DECODE on the same arguments is its error too; then PROTO; then the checks of R80
on the IPv4 payload. -/
def Obligations.UdpipDecodeResult : Prop :=
  decode 0x1A#32 = .ok .udpipDecode ∧
  ∀ (s : State) (src n hl tl : Nat) (d u : List Byte) (srcIP dstIP : Word), src = s.latch.a0.toNat →
    n = s.latch.a1.toNat → d = s.memRead src n → hl = 4 * (byteAt d 0 % 16) → tl = be16 d 2 →
    u = (d.take tl).drop hl → srcIP = BitVec.ofNat 32 (be32 d 12) → dstIP = BitVec.ofNat 32 (be32 d 16) →
    (src + n ≤ s.params.memBytes → IpAccepts d → byteAt d 9 = 17 →
      UdpAccepts s.params.udpRxZeroAccept u srcIP dstIP →
      exec .udpipDecode s = .next (s.afterSuccess
        { r0 := BitVec.ofNat 32 (src + hl + 8)
          r1 := BitVec.ofNat 32 (be16 u 4 - 8)
          r2 := BitVec.ofNat 32 (be16 u 0 + be16 u 2 * 2 ^ 16)
          r3 := srcIP
          r4 := dstIP
          r5 := BitVec.ofNat 32 (byteAt d 9 + byteAt d 8 * 2 ^ 8)
          r6 := BitVec.ofNat 32 (be16 d 10 + be16 u 6 * 2 ^ 16)
          r7 := BitVec.ofNat 32 (tl + be16 u 4 * 2 ^ 16) } s.mem)) ∧
    (∀ c, exec .ipDecode s = .next (s.afterError c) → exec .udpipDecode s = .next (s.afterError c)) ∧
    (src + n ≤ s.params.memBytes → IpAccepts d →
      (byteAt d 9 ≠ 17 → exec .udpipDecode s = .next (s.afterError .proto)) ∧
      (byteAt d 9 = 17 →
        (u.length < 8 → exec .udpipDecode s = .next (s.afterError .short)) ∧
        (8 ≤ u.length → be16 u 4 < 8 → exec .udpipDecode s = .next (s.afterError .badHdr)) ∧
        (8 ≤ u.length → 8 ≤ be16 u 4 → u.length < be16 u 4 → exec .udpipDecode s = .next (s.afterError .short)) ∧
        (8 ≤ be16 u 4 → be16 u 4 ≤ u.length → ¬ UdpVerifies s.params.udpRxZeroAccept u srcIP dstIP →
          exec .udpipDecode s = .next (s.afterError .csum))))

/-- R89: OPT_ADDRS. -/
def Obligations.OptAddrsResult : Prop :=
  decode 0x28#32 = .ok .optAddrs ∧
  ∀ (s : State) (src count dst : Nat) (tag : Byte), src = s.latch.a0.toNat → count = s.latch.a1.toNat →
    dst = s.latch.a2.toNat → tag = s.latch.a3.extractLsb' 0 8 →
    ((s.latch.a3.extractLsb' 8 24 = 0 ∧ (tag = 1 ∨ tag = 3 ∨ tag = 4 ∨ tag = 6)) ∧ (1 ≤ count ∧ count ≤ 63) ∧
        (tag = 1 → count = 1) →
      (src + 4 * count ≤ s.params.memBytes → dst + (2 + 4 * count) ≤ s.params.memBytes →
        ∃ t, exec .optAddrs s = .next t ∧
          t = s.afterSuccess { s.res with r0 := BitVec.ofNat 32 (2 + 4 * count) } t.mem ∧
          Stored s t dst ([tag, BitVec.ofNat 8 (4 * count)] ++ s.memRead src (4 * count))) ∧
      (s.params.memBytes < src + 4 * count → exec .optAddrs s = .next (s.afterError .range)) ∧
      (src + 4 * count ≤ s.params.memBytes → s.params.memBytes < dst + (2 + 4 * count) →
        exec .optAddrs s = .next (s.afterError .range))) ∧
    (s.latch.a3.extractLsb' 8 24 ≠ 0 ∨ ¬ (tag = 1 ∨ tag = 3 ∨ tag = 4 ∨ tag = 6) ∨ count = 0 ∨ 63 < count ∨
        (tag = 1 ∧ count ≠ 1) →
      exec .optAddrs s = .next (s.afterError .arg))

/-- R91 with R90: OPT_LEASE. -/
def Obligations.OptLeaseResult : Prop :=
  decode 0x29#32 = .ok .optLease ∧
  ∀ (s : State) (dst lease : Nat), dst = s.latch.a2.toNat → lease = s.latch.a3.toNat →
    (dst + 18 ≤ s.params.memBytes →
      ∃ t, exec .optLease s = .next t ∧
        t = s.afterSuccess
          { s.res with
            r0 := 18
            r1 := BitVec.ofNat 32 (lease / 2)
            r2 := BitVec.ofNat 32 (33 * lease / 40) } t.mem ∧
        Stored s t dst ([51, 4] ++ wordBytes s.latch.a3 ++ [58, 4] ++ wordBytes (BitVec.ofNat 32 (lease / 2)) ++
          [59, 4] ++ wordBytes (BitVec.ofNat 32 (33 * lease / 40)))) ∧
    (s.params.memBytes < dst + 18 → exec .optLease s = .next (s.afterError .range))

/-- R98 with R92 and R97: DHCP_DECODE, given what the options scan of R95 finds. The entry of a value address 65536 (a
zero-length record that ends at the last byte of a `MEM` of 65536 bytes), which R97 says does not occur, is 00 00 in the
model's reading of R6 (DEDUCED, log 18). -/
def Obligations.DhcpDecodeResult : Prop :=
  decode 0x20#32 = .ok .dhcpDecode ∧
  ∀ (s : State) (src n tdst : Nat) (d : List Byte), src = s.latch.a0.toNat → n = s.latch.a1.toNat →
    tdst = s.latch.a2.toNat → d = s.memRead src n →
    (s.params.memBytes < src + n → exec .dhcpDecode s = .next (s.afterError .range)) ∧
    (src + n ≤ s.params.memBytes →
      (n < 240 → exec .dhcpDecode s = .next (s.afterError .short)) ∧
      (240 ≤ n → 16 < byteAt d 2 → exec .dhcpDecode s = .next (s.afterError .hlen)) ∧
      (240 ≤ n → byteAt d 2 ≤ 16 → (d.drop 236).take 4 ≠ [0x63, 0x82, 0x53, 0x63] →
        exec .dhcpDecode s = .next (s.afterError .cookie)) ∧
      (240 ≤ n → byteAt d 2 ≤ 16 → (d.drop 236).take 4 = [0x63, 0x82, 0x53, 0x63] →
        (∀ c, scanOptions s.params.padMode d src = .error c →
          c = .optOverrun ∧ exec .dhcpDecode s = .next (s.afterError .optOverrun)) ∧
        (∀ r, scanOptions s.params.padMode d src = .ok r →
          2 * r.entries.length ≤ n - 240 ∧
          (s.params.memBytes < tdst + 4 * r.entries.length → exec .dhcpDecode s = .next (s.afterError .range)) ∧
          (tdst + 4 * r.entries.length ≤ s.params.memBytes →
            ∃ t, exec .dhcpDecode s = .next t ∧
              t = s.afterSuccess
                { r0 := BitVec.ofNat 32
                    (byteAt d 0 + byteAt d 1 * 2 ^ 8 + byteAt d 2 * 2 ^ 16 + byteAt d 3 * 2 ^ 24)
                  r1 := BitVec.ofNat 32 (be32 d 4)
                  r2 := BitVec.ofNat 32 (be16 d 8 + be16 d 10 * 2 ^ 16)
                  r3 := BitVec.ofNat 32 (be32 d 12)
                  r4 := BitVec.ofNat 32 (be32 d 16)
                  r5 := BitVec.ofNat 32 (be32 d 20)
                  r6 := BitVec.ofNat 32 (be32 d 24)
                  r7 := BitVec.ofNat 32
                    (r.mt + r.mtv.toNat * 2 ^ 8 + r.endSeen.toNat * 2 ^ 9 + r.entries.length * 2 ^ 16) } t.mem ∧
              Stored s t tdst (r.entries.flatMap fun e =>
                tableEntry (BitVec.ofNat 8 e.tag) (BitVec.ofNat 8 e.len) e.vaddr)))))

/-- R100 with R99: DHCP_ENCODE. -/
def Obligations.DhcpEncodeResult : Prop :=
  decode 0x21#32 = .ok .dhcpEncode ∧
  ∀ (s : State) (cat clen dst : Nat), cat = s.latch.a0.toNat → clen = s.latch.a1.toNat → dst = s.latch.a2.toNat →
    (cat + clen ≤ s.params.memBytes → dst + (244 + clen) ≤ s.params.memBytes →
      ∃ t, exec .dhcpEncode s = .next t ∧
        t = s.afterSuccess { s.res with r0 := BitVec.ofNat 32 (244 + clen) } t.mem ∧
        Stored s t dst (dhcpMessageOf s.latch (s.memRead cat clen))) ∧
    (s.params.memBytes < cat + clen → exec .dhcpEncode s = .next (s.afterError .range)) ∧
    (cat + clen ≤ s.params.memBytes → s.params.memBytes < dst + (244 + clen) →
      exec .dhcpEncode s = .next (s.afterError .range))

/-! ### The functions behind the commands -/

/-- R95 with R94: the options scan starts at 240 with nothing found, and obeys the loop of the rule; the bound on the
number of iterations that the model's recursion carries never shows (log 12). -/
def Obligations.OptionScanObeysItsLoop : Prop :=
  ∀ (mode : PadMode) (d : List Byte) (src : Nat),
    (240 ≤ d.length →
      scanOptions mode d src = scanFrom mode d src 240 { entries := [], mt := 0, mtv := false, endSeen := false }) ∧
    ∀ (i : Nat) (t : OptScan),
      scanFrom mode d src i t =
        if d.length ≤ i then .ok t
        else if byteAt d i = 255 then .ok { t with endSeen := true }
        else if byteAt d i = 0 ∧ mode = .rfc then scanFrom mode d src (i + 1) t
        else if d.length ≤ i + 1 then .error .optOverrun
        else if d.length < i + 2 + byteAt d (i + 1) then .error .optOverrun
        else
          let first : Bool := decide (byteAt d i = 53 ∧ byteAt d (i + 1) = 1 ∧ t.mtv = false)
          scanFrom mode d src (i + 2 + byteAt d (i + 1))
            { t with
              entries := t.entries ++ [{ tag := byteAt d i, len := byteAt d (i + 1), vaddr := src + i + 2 }]
              mt := if first then byteAt d (i + 2) else t.mt
              mtv := t.mtv || first }

/-- The message type is the value byte of the first length-1 option-53 record; without one it is 0 and not valid
(R96). -/
def Obligations.MessageTypeIsFirstLengthOneRecord : Prop :=
  ∀ (mode : PadMode) (d : List Byte) (src : Nat) (r : OptScan), scanOptions mode d src = .ok r →
    match r.entries.find? (fun e => e.tag == 53 && e.len == 1) with
    | some e => r.mtv = true ∧ src ≤ e.vaddr ∧ r.mt = byteAt d (e.vaddr - src)
    | none => r.mtv = false ∧ r.mt = 0

/-- R67: `Sum16` is the sum of the big-endian 16-bit words, a trailing odd byte being a high byte. -/
def Obligations.Sum16IsTheWordSum : Prop :=
  ∀ b : List Byte,
    sum16 b = (∑ k ∈ Finset.range (b.length / 2), be16 b (2 * k)) +
      if b.length % 2 = 1 then byteAt b (b.length - 1) * 256 else 0

/-- R68: `Fold` is the loop of the rule, ends in 16 bits, is 0 for 0 alone, keeps the residue modulo 0xFFFF, and needs
at most two iterations for every sum the block forms, which is of at most 65536 + 12 bytes (log 18). -/
def Obligations.FoldRule : Prop :=
  (∀ s : Nat,
    fold s = (if 0xFFFF < s then fold (s % 0x10000 + s / 0x10000) else s) ∧
    fold s ≤ 0xFFFF ∧ (fold s = 0 ↔ s = 0) ∧ fold s % 0xFFFF = s % 0xFFFF) ∧
  ∀ b : List Byte, b.length ≤ 65536 + 12 → foldLoop 2 (sum16 b) = fold (sum16 b)

/-- R69 and R70: when the Internet checksum is 0x0000 and when 0xFFFF, and when a sequence verifies. -/
def Obligations.ChecksumAndVerification : Prop :=
  ∀ b : List Byte,
    internetChecksum b = 0xFFFF - fold (sum16 b) ∧ internetChecksum b ≤ 0xFFFF ∧
    (internetChecksum b = 0 ↔ fold (sum16 b) = 0xFFFF) ∧ (internetChecksum b = 0xFFFF ↔ sum16 b = 0) ∧
    (verifyChecksum b = true ↔ internetChecksum b = 0) ∧ verifyChecksum [] = false ∧
    ∀ n, verifyChecksum (List.replicate n 0) = false

/-- R73: writing the checksum into its zeroed field makes a sequence verify, and flipping any one bit of the result
makes it fail. -/
def Obligations.ChecksumRoundTrip : Prop :=
  ∀ (b c : List Byte) (k : Nat), 2 * k + 1 < b.length → b.getD (2 * k) 0 = 0 → b.getD (2 * k + 1) 0 = 0 →
    c = (b.set (2 * k) (BitVec.ofNat 8 (internetChecksum b / 256))).set (2 * k + 1)
      (BitVec.ofNat 8 (internetChecksum b)) →
    verifyChecksum c = true ∧
    ∀ j m, j < c.length → m < 8 → verifyChecksum (c.set j (c.getD j 0 ^^^ BitVec.twoPow 8 m)) = false

/-- R87 (a): the header of every IP_BUILD output verifies, and IP_DECODE of the output returns the built fields. -/
def Obligations.IpFrameRoundTrip : Prop :=
  ∀ (s t : State) (l : ArgFile), exec .ipBuild s = .next t → t.status.err = false → l.a0 = s.latch.a2 →
    (l.a1 = 20 → ∃ u, exec .csumVerify { t with latch := l } = .next u ∧ u.status.err = false ∧ u.res.r0 = 1) ∧
    (l.a1 = t.res.r0 →
      exec .ipDecode { t with latch := l } = .next (State.afterSuccess { t with latch := l }
        { r0 := s.latch.a2 + 20
          r1 := s.latch.a1
          r2 := (0x00 : BitVec 8) ++ (0x05 : BitVec 8) ++ s.latch.a5.extractLsb' 0 16
          r3 := s.latch.a3
          r4 := s.latch.a4
          r5 := 0
          r6 := t.res.r1
          r7 := t.res.r0 } t.mem))

/-- R87 (b): UDPIP_DECODE of every UDPIP_BUILD output succeeds and returns the built addresses, TTL, ports, lengths and
checksums. -/
def Obligations.UdpipFrameRoundTrip : Prop :=
  ∀ (s t : State) (l : ArgFile), exec .udpipBuild s = .next t → t.status.err = false → l.a0 = s.latch.a2 →
    l.a1 = t.res.r0 →
    exec .udpipDecode { t with latch := l } = .next (State.afterSuccess { t with latch := l }
      { r0 := s.latch.a2 + 28
        r1 := s.latch.a1
        r2 := s.latch.a6
        r3 := s.latch.a3
        r4 := s.latch.a4
        r5 := (0 : BitVec 16) ++ s.latch.a5.extractLsb' 8 8 ++ (17 : BitVec 8)
        r6 := t.res.r2.extractLsb' 0 16 ++ t.res.r1.extractLsb' 0 16
        r7 := (8 + s.latch.a1).extractLsb' 0 16 ++ t.res.r0.extractLsb' 0 16 } t.mem)

/-- R87 (c): flipping one bit of a UDPIP_BUILD output, in its IPv4 header (of byte 0, not the IHL bits 1 and 3) or in its
UDP datagram outside the length field, makes UDPIP_DECODE end with an error, CSUM for a bit of the datagram. For the
datagram's bits this is said where `UDP_RX_ZERO_ACCEPT` is false: with it, a flip that clears the checksum field skips the
verification (R80, log 16). -/
def Obligations.UdpipFrameFlipIsDetected : Prop :=
  ∀ (s t f : State) (j m : Nat), exec .udpipBuild s = .next t → t.status.err = false →
    f.params = s.params → f.latch.a0 = s.latch.a2 → f.latch.a1 = t.res.r0 →
    j < 28 + s.latch.a1.toNat → m < 8 → ¬ (j = 0 ∧ (m = 1 ∨ m = 3)) → j ≠ 24 → j ≠ 25 →
    (20 ≤ j → s.params.udpRxZeroAccept = false) →
    Stored t f (s.latch.a2.toNat + j) [t.readByte (s.latch.a2.toNat + j) ^^^ BitVec.twoPow 8 m] →
    ∃ c, exec .udpipDecode f = .next (f.afterError c) ∧
      (c = .badHdr ∨ c = .short ∨ c = .csum) ∧
      (j = 0 → c = .badHdr) ∧ ((4 ≤ j ∨ j = 1) → c = .csum)

/-- R101: DHCP_DECODE of what DHCP_ENCODE made of a catalog of well-formed records succeeds and returns the encoded
fields, one table entry per record in order with its value bytes, then the entry of the message type. -/
def Obligations.DhcpRoundTrip : Prop :=
  ∀ (s t : State) (l : ArgFile) (recs : List (Byte × List Byte)) (dst tdst : Nat),
    s.params.wellFormed = true → exec .dhcpEncode s = .next t → t.status.err = false →
    s.memRead s.latch.a0.toNat s.latch.a1.toNat = recs.flatMap optRecord →
    (∀ r ∈ recs, r.2.length ≤ 255 ∧ r.1 ≠ 255 ∧ ¬ (r.1 = 53 ∧ r.2.length = 1) ∧
      (s.params.padMode = .rfc → r.1 ≠ 0)) →
    dst = s.latch.a2.toNat → l.a0 = s.latch.a2 → l.a1 = t.res.r0 → tdst = l.a2.toNat →
    tdst + 4 * (recs.length + 1) ≤ s.params.memBytes →
    ∃ u, exec .dhcpDecode { t with latch := l } = .next u ∧ u.status.err = false ∧
      (let mt : Byte := s.latch.a10.extractLsb' 16 8
       let op : Byte := if mt = 2 ∨ mt = 5 ∨ mt = 6 then 2 else 1
       u.res =
        { r0 := s.latch.a10.extractLsb' 24 8 ++ (6 : Byte) ++ (1 : Byte) ++ op
          r1 := s.latch.a3
          r2 := s.latch.a4
          r3 := s.latch.a5
          r4 := s.latch.a6
          r5 := s.latch.a7
          r6 := s.latch.a8
          r7 := BitVec.ofNat 32 (mt.toNat + 2 ^ 8 + 2 ^ 9 + (recs.length + 1) * 2 ^ 16) } ∧
       t.memRead (dst + 28) 6 = wordBytes s.latch.a9 ++ halfBytes (s.latch.a10.extractLsb' 0 16) ∧
       t.memRead (dst + 34) (10 + 64 + 128) = List.replicate (10 + 64 + 128) 0 ∧
       (∀ k (h : k < recs.length),
         let vaddr := dst + 240 + ((recs.take k).flatMap optRecord).length + 2
         u.memRead (tdst + 4 * k) 4 = tableEntry recs[k].1 (BitVec.ofNat 8 recs[k].2.length) vaddr ∧
         t.memRead vaddr recs[k].2.length = recs[k].2) ∧
       u.memRead (tdst + 4 * recs.length) 4 = tableEntry 53 1 (dst + 240 + s.latch.a1.toNat + 2) ∧
       t.readByte (dst + 240 + s.latch.a1.toNat + 2) = mt)

/-! ### What a command can see -/

/-- Writing the argument registers while a command is pending does not change what it does (R20, R121). -/
def Obligations.ArgumentWritesDoNotDisturb : Prop :=
  ∀ (i : Instr) (s t : State) (a : ArgFile), exec i s = .next t → exec i { s with args := a } = .next { t with args := a }

/-- A command's outcome depends on nothing but the parameters, the latched arguments and the bytes of `MEM`: two states
alike in these end with the same error, the same result registers written, and the same bytes (R22, R27, R47). So no
byte drawn at reset matters once the host has written it (R118). -/
def Obligations.OutcomeDependsOnlyOnInputs : Prop :=
  ∀ (i : Instr) (s s' t t' : State), SameInputs s s' → exec i s = .next t → exec i s' = .next t' →
    t.status.err = t'.status.err ∧ t.status.errCode = t'.status.errCode ∧
    (t.status.err = false → ∀ k ∈ namedRes i, t.res.get k = t'.res.get k) ∧
    ∀ a < s.params.memBytes, t.readByte a = t'.readByte a

/-! ### The host's accesses -/

/-- What a 32-bit host read of each listed register returns (R9, R12, R13, R14, R15, R16, R20, R21). -/
def Obligations.RegisterReadsReturnTheirValue : Prop :=
  ∀ (s : State),
    let reads (off : Nat) (v : Word) : Prop :=
      hostAccess s { kind := .read, bits := 32, off := off } = { s with reads := v :: s.reads }
    reads 0x000 0x50495341 ∧ reads 0x004 (BitVec.ofNat 32 s.params.memBytes) ∧
    reads 0x008 (if s.ie then 1 else 0) ∧ reads 0x00C s.cmdLast ∧ reads 0x010 s.status.toWord ∧
    (∀ i : Fin 11, reads (0x020 + 4 * i.val)
      ([s.args.a0, s.args.a1, s.args.a2, s.args.a3, s.args.a4, s.args.a5, s.args.a6, s.args.a7, s.args.a8, s.args.a9,
        s.args.a10].getD i.val 0)) ∧
    (∀ i : Fin 8, reads (0x060 + 4 * i.val)
      ([s.res.r0, s.res.r1, s.res.r2, s.res.r3, s.res.r4, s.res.r5, s.res.r6, s.res.r7].getD i.val 0))

/-- The word a read of `STATUS` returns: BUSY, DONE, ERR, DROP in bits 0 to 3, ERRCODE in bits 15:8 with the numbers of
R102, every other bit 0 (R16, R102). -/
def Obligations.StatusWordLayout : Prop :=
  (∀ st : Status,
    st.toWord.getLsbD 0 = st.busy ∧ st.toWord.getLsbD 1 = st.done ∧ st.toWord.getLsbD 2 = st.err ∧
    st.toWord.getLsbD 3 = st.drop ∧ st.toWord.extractLsb' 4 4 = 0 ∧
    st.toWord.extractLsb' 8 8 = BitVec.ofNat 8 st.errCode.code ∧ st.toWord.extractLsb' 16 16 = 0) ∧
  [ErrCode.noError, .short, .cookie, .hlen, .optOverrun, .csum, .badHdr, .proto, .range, .arg, .badCmd,
    .tooLong].map ErrCode.code = [0, 1, 2, 3, 4, 5, 6, 7, 8, 9, 10, 11]

/-- R17: a host write to `STATUS` clears DONE, ERR and DROP where bits 1, 2 and 3 of the value are 1 and leaves every
other bit, while BUSY too. -/
def Obligations.StatusWriteOneToClear : Prop :=
  ∀ (s : State) (w : Word),
    hostAccess s { kind := .write w, bits := 32, off := 0x010 } =
      { s with
        status :=
          { busy := s.status.busy
            done := if w.getLsbD 1 then false else s.status.done
            err := if w.getLsbD 2 then false else s.status.err
            drop := if w.getLsbD 3 then false else s.status.drop
            errCode := s.status.errCode } }

/-- R14: a host write to `CTRL` stores bit 0 as the interrupt enable and nothing else, and a read returns that bit with
zeros above it; it resets to 0. -/
def Obligations.CtrlHoldsOnlyTheEnable : Prop :=
  State.reset.ie = false ∧ ∀ (s : State) (w : Word),
    hostAccess s { kind := .write w, bits := 32, off := 0x008 } = { s with ie := w.getLsbD 0 } ∧
    hostAccess { s with ie := w.getLsbD 0 } { kind := .read, bits := 32, off := 0x008 } =
      { s with ie := w.getLsbD 0, reads := (w &&& 1) :: s.reads }

/-- A host write to `ARGi` stores the value there and nowhere else, while BUSY too, and a read returns it (R20). -/
def Obligations.ArgumentWriteReadsBack : Prop :=
  ∀ (s : State) (i : Fin 11) (v : Word),
    let t := hostAccess s { kind := .write v, bits := 32, off := 0x020 + 4 * i.val }
    t = { s with args := t.args } ∧ (∀ j, t.args.get j = if j = i then v else s.args.get j) ∧
    hostAccess t { kind := .read, bits := 32, off := 0x020 + 4 * i.val } = { t with reads := v :: t.reads }

/-- The host reads and writes `MEM[a]` at the offset `0x10000 + a` while BUSY = 0; a write changes that byte alone
(R24). -/
def Obligations.BufferWindowReadsAndWrites : Prop :=
  ∀ (s : State) (a : Nat) (v : Word), s.params.wellFormed = true → a < s.params.memBytes → s.status.busy = false →
    hostAccess s { kind := .read, bits := 8, off := 0x10000 + a } =
      { s with reads := (s.readByte a).setWidth 32 :: s.reads } ∧
    ∃ t, hostAccess s { kind := .write v, bits := 8, off := 0x10000 + a } = t ∧ t = { s with mem := t.mem } ∧
      Stored s t a [v.extractLsb' 0 8]

/-- R11: unlisted register offsets and window bytes at or above `MEM_BYTES` read 0 and ignore writes, and a write to a
read-only register has no effect. That a window access at or above `MEM_BYTES` made while BUSY = 1 records no
HOST_MEM_WHILE_BUSY either is the model's reading of R119 against
R109's wider words (DEDUCED, log 7). -/
def Obligations.UnlistedAndReadOnlyAccesses : Prop :=
  ∀ (s : State) (v : Word),
    (∀ off, off % 4 = 0 → (0x014 ≤ off ∧ off ≤ 0x01C) ∨ (0x04C ≤ off ∧ off ≤ 0x05C) ∨ (0x080 ≤ off ∧ off ≤ 0x0FFFC) →
      hostAccess s { kind := .read, bits := 32, off := off } = { s with reads := 0 :: s.reads } ∧
      hostAccess s { kind := .write v, bits := 32, off := off } = s) ∧
    (∀ a, s.params.memBytes ≤ a → a < 0x10000 →
      hostAccess s { kind := .read, bits := 8, off := 0x10000 + a } = { s with reads := 0 :: s.reads } ∧
      hostAccess s { kind := .write v, bits := 8, off := 0x10000 + a } = s) ∧
    hostAccess s { kind := .write v, bits := 32, off := 0x000 } = s ∧
    hostAccess s { kind := .write v, bits := 32, off := 0x004 } = s ∧
    ∀ i : Fin 8, hostAccess s { kind := .write v, bits := 32, off := 0x060 + 4 * i.val } = s

/-- R10 with R109: an access of a width, alignment or offset that R10 refuses records HOST_BAD_ACCESS and has no effect,
a read returning 0; every other access records no such fault. That a refused window access made while BUSY = 1 records
HOST_BAD_ACCESS alone, and not HOST_MEM_WHILE_BUSY beside it, is the model's reading (DEDUCED, log 8). -/
def Obligations.RefusedAccessesAreRecorded : Prop :=
  ∀ (s : State) (k : AccessKind) (bits off : Nat),
    ((off < 0x10000 ∧ (bits ≠ 32 ∨ off % 4 ≠ 0)) ∨ (0x10000 ≤ off ∧ off < 0x20000 ∧ bits ≠ 8) ∨ 0x20000 ≤ off →
      hostAccess s { kind := k, bits := bits, off := off } =
        { s with badAccess := true, reads := if k = .read then 0 :: s.reads else s.reads }) ∧
    ((off < 0x10000 ∧ bits = 32 ∧ off % 4 = 0) ∨ (0x10000 ≤ off ∧ off < 0x20000 ∧ bits = 8) →
      (hostAccess s { kind := k, bits := bits, off := off }).badAccess = s.badAccess)

/-- R119: a buffer-window access to a byte of `MEM` while BUSY = 1 records HOST_MEM_WHILE_BUSY and has no effect, a read
returning 0. -/
def Obligations.BufferAccessWhileBusyIsRecorded : Prop :=
  ∀ (s : State) (k : AccessKind) (a : Nat), s.params.wellFormed = true → s.status.busy = true →
    a < s.params.memBytes →
    hostAccess s { kind := k, bits := 8, off := 0x10000 + a } =
      { s with memWhileBusy := true, reads := if k = .read then 0 :: s.reads else s.reads }

/-- Reading changes no state of the block: a host read of any width at any offset hands the host one value and can at
most record a host fault (R35, R109). -/
def Obligations.ReadsHaveNoSideEffect : Prop :=
  ∀ (s t : State) (bits off : Nat), t = hostAccess s { kind := .read, bits := bits, off := off } →
    ∃ v, t = { s with reads := v :: s.reads, badAccess := t.badAccess, memWhileBusy := t.memWhileBusy }

/-- A recorded host fault is never cleared by a later step (R109), and the parameters never change (R4). -/
def Obligations.HostFaultsAndParametersStay : Prop :=
  ∀ s t : State, step s = .next t →
    t.params = s.params ∧ (s.badAccess = true → t.badAccess = true) ∧ (s.memWhileBusy = true → t.memWhileBusy = true)

/-- The interrupt output is IE and DONE (R19, R105): every completion raises it when enabled, with or without error; a
write of 1 to bit 1 of `STATUS`, a write of IE = 0 and a command start clear it; a dropped request leaves it. -/
def Obligations.InterruptFollowsEnableAndDone : Prop :=
  ∀ (s : State),
    (s.irq = true ↔ s.ie = true ∧ s.status.done = true) ∧
    (∀ i t, exec i s = .next t → t.irq = s.ie) ∧
    (∀ w : Word, w.getLsbD 1 = true → (hostAccess s { kind := .write w, bits := 32, off := 0x010 }).irq = false) ∧
    (∀ w : Word, w.getLsbD 0 = false → (hostAccess s { kind := .write w, bits := 32, off := 0x008 }).irq = false) ∧
    (∀ w : Word, s.status.busy = false → (hostAccess s { kind := .write w, bits := 32, off := 0x00C }).irq = false) ∧
    (∀ w : Word, s.status.busy = true → (hostAccess s { kind := .write w, bits := 32, off := 0x00C }).irq = s.irq)

/-! ### Reset -/

/-- R26: the state right after reset. The parameters are the defaults of R4, and every byte of `MEM` is the free value
of the first draw. -/
def Obligations.ResetLeavesSpecifiedValues : Prop :=
  let s := State.reset
  s.ie = false ∧ s.cmdLast = 0 ∧
  s.status = { busy := false, done := false, err := false, drop := false, errCode := .noError } ∧
  (∀ i, s.args.get i = 0) ∧ (∀ i, s.res.get i = 0) ∧ (∀ i, s.latch.get i = 0) ∧ s.irq = false ∧
  readReg s .id = 0x50495341 ∧ readReg s .cap = 4096 ∧ readReg s .status = 0 ∧
  ∀ a, s.readByte a = Config.memDraw 0 a

/-- A reset takes precedence over a host step and a perform step, sets every register to its reset value, discards a
pending command without setting DONE, and leaves every byte of `MEM` a fresh draw (R116, R117; what of the run stays is
the model's choice, log 10). -/
def Obligations.ResetStepDiscardsPendingCommand : Prop :=
  ∀ (s : State) (rest : List Slot), s.sched = .reset :: rest →
    ∃ t, step s = .next t ∧
      t = { State.reset with
            params := s.params
            epoch := s.epoch + 1
            badAccess := s.badAccess
            memWhileBusy := s.memWhileBusy
            script := s.script
            sched := rest
            reads := s.reads } ∧
      ∀ a, t.readByte a = Config.memDraw (s.epoch + 1) a

/-! ### Invariants and progress -/

/-- The invariant holds right after reset. -/
def Obligations.InvariantHoldsAtReset : Prop := State.reset.Inv

/-- Every step keeps the invariant: legal parameters, the buffer in canonical form and inside `MEM_BYTES`, the outcome
fields clear while BUSY (R18), ERR only with the code of an error (R4, R24, R61). -/
def Obligations.EveryStepKeepsTheInvariant : Prop :=
  ∀ s t : State, s.Inv → step s = .next t → t.Inv

/-- A pending command completes as soon as the interleaving gives the engine a step: within as many steps as the
interleaving has slots and one more (R60, R62; that the engine moves when the interleaving is over is the model's form
of its weak fairness, log 1). -/
def Obligations.PendingCommandCompletes : Prop :=
  ∀ s : State, s.status.busy = true → Slot.reset ∉ s.sched →
    ∃ k ≤ s.sched.length + 1, ∃ t, Host.Core.run Sys2Proof.core k s = .next t ∧
      t.status.busy = false ∧ t.status.done = true

/-! ### Host scripts -/

/-- What each line of a host script stands for (R57). -/
def Obligations.ScriptLinesExpand : Prop :=
  (∀ v, (∀ r off, (r, off) ∈ [(Reg.id, 0x000), (.cap, 0x004), (.ctrl, 0x008), (.cmd, 0x00C), (.status, 0x010)] →
      expandLine (.w (.name r) v) = [.access { kind := .write v, bits := 32, off := off }] ∧
      expandLine (.r (.name r)) = [.access { kind := .read, bits := 32, off := off }]) ∧
    (∀ i, expandLine (.w (.name (.arg i)) v) = [.access { kind := .write v, bits := 32, off := 0x020 + 4 * i.val }] ∧
      expandLine (.r (.name (.arg i))) = [.access { kind := .read, bits := 32, off := 0x020 + 4 * i.val }]) ∧
    (∀ i, expandLine (.w (.name (.res i)) v) = [.access { kind := .write v, bits := 32, off := 0x060 + 4 * i.val }] ∧
      expandLine (.r (.name (.res i))) = [.access { kind := .read, bits := 32, off := 0x060 + 4 * i.val }])) ∧
  (∀ off v, expandLine (.w (.offset off) v) = [.access { kind := .write v, bits := 32, off := off }]) ∧
  (∀ off, expandLine (.r (.offset off)) = [.access { kind := .read, bits := 32, off := off }]) ∧
  (∀ addr (bytes : List Byte) k, (expandLine (.wb addr bytes)).length = bytes.length ∧
    (k < bytes.length → (expandLine (.wb addr bytes))[k]? =
      some (.access { kind := .write ((bytes.getD k 0).setWidth 32), bits := 8, off := 0x10000 + (addr + k) }))) ∧
  (∀ addr count k, (expandLine (.rb addr count)).length = count ∧
    (k < count → (expandLine (.rb addr count))[k]? =
      some (.access { kind := .read, bits := 8, off := 0x10000 + (addr + k) }))) ∧
  expandLine .waitIdle = [.wait] ∧
  (∀ i (args : List (Fin 11 × Word)), expandLine (.run i args) =
    args.map (fun p => HostOp.access { kind := .write p.2, bits := 32, off := 0x020 + 4 * p.1.val }) ++
      [.access { kind := .write ((opcodeOf i).setWidth 32), bits := 32, off := 0x00C }, .wait]) ∧
  expandLine .clr = [.access { kind := .write 0x0000000E, bits := 32, off := 0x010 }] ∧
  (∀ b, expandLine (.ie b) = [.access { kind := .write (if b then 1 else 0), bits := 32, off := 0x008 }])
end

