-- ==== Sys2Proof/Laws/Bytes.lean ====
section
/-! SUPPORT. The laws of byte sequences: the model's encodings agree with the bit-vector forms the statements use,
lengths, sums over concatenations, packing into result registers, and one unfolding of the folding loop. -/

namespace Sys2Proof.Machine

/-! ### Lengths -/

@[simp] theorem enc16_length (v : Nat) : (enc16 v).length = 2 := rfl
@[simp] theorem enc32_length (v : Nat) : (enc32 v).length = 4 := rfl
@[simp] theorem zeros_length (n : Nat) : (zeros n).length = n := by simp [zeros]
@[simp] theorem halfBytes_length (v : BitVec 16) : (halfBytes v).length = 2 := rfl
@[simp] theorem wordBytes_length (v : Word) : (wordBytes v).length = 4 := rfl
@[simp] theorem pseudo_length (a b c : Nat) : (pseudo a b c).length = 12 := rfl

theorem patch_length {b : List Byte} {i : Nat} {v : List Byte} (h : i + v.length ≤ b.length) :
    (patch b i v).length = b.length := by
  simp [patch]
  omega

/-! ### The model's encodings in bit-vector form -/

theorem byte_eq_extract (w k : Nat) (v : BitVec w) : byte (v.toNat / 2 ^ k) = v.extractLsb' k 8 := by
  apply BitVec.eq_of_toNat_eq
  simp [byte, BitVec.extractLsb'_toNat, Nat.shiftRight_eq_div_pow]

theorem byte_field (v : Word) (lo : Nat) : byte (field v (lo + 7) lo) = v.extractLsb' lo 8 := by
  apply BitVec.eq_of_toNat_eq
  have : lo + 7 + 1 - lo = 8 := by omega
  simp [byte, field, this, BitVec.extractLsb'_toNat, Nat.shiftRight_eq_div_pow]

theorem field_toNat (v : Word) (lo len : Nat) (h : 0 < len) :
    field v (lo + len - 1) lo = (v.extractLsb' lo len).toNat := by
  have : lo + len - 1 + 1 - lo = len := by omega
  simp [field, this, BitVec.extractLsb'_toNat, Nat.shiftRight_eq_div_pow]

theorem enc32_eq_wordBytes (v : Word) : enc32 v.toNat = wordBytes v := by
  have h0 := byte_eq_extract 32 0 v
  simp only [Nat.pow_zero, Nat.div_one] at h0
  simp only [enc32, wordBytes, byte_eq_extract, h0]

theorem enc32_eq_wordBytes_ofNat (n : Nat) : enc32 n = wordBytes (BitVec.ofNat 32 n) := by
  rw [← enc32_eq_wordBytes]
  simp only [enc32, byte, BitVec.toNat_ofNat, List.cons.injEq, and_true]
  refine ⟨?_, ?_, ?_, ?_⟩ <;> apply BitVec.eq_of_toNat_eq <;> simp only [BitVec.toNat_ofNat] <;> omega

theorem enc16_eq_halfBytes (n : Nat) : enc16 n = halfBytes (BitVec.ofNat 16 n) := by
  simp only [enc16, halfBytes, byte, List.cons.injEq, and_true]
  refine ⟨?_, ?_⟩ <;> apply BitVec.eq_of_toNat_eq <;>
    simp only [BitVec.toNat_ofNat, BitVec.extractLsb'_toNat, Nat.shiftRight_eq_div_pow] <;> omega

theorem enc16_toNat (v : BitVec 16) : enc16 v.toNat = halfBytes v := by
  rw [enc16_eq_halfBytes]
  simp

/-! ### Reading fields out of concatenations -/

theorem byteAt_append_left {b c : List Byte} {i : Nat} (h : i < b.length) : byteAt (b ++ c) i = byteAt b i := by
  simp [byteAt, List.getD_eq_getElem?_getD, List.getElem?_append_left h]

theorem byteAt_append_right {b c : List Byte} {i : Nat} (h : b.length ≤ i) :
    byteAt (b ++ c) i = byteAt c (i - b.length) := by
  simp [byteAt, List.getD_eq_getElem?_getD, List.getElem?_append_right h]

theorem byteAt_lt (b : List Byte) (i : Nat) : byteAt b i < 256 := (b.getD i 0).isLt

theorem byteAt_drop (b : List Byte) (k i : Nat) : byteAt (b.drop k) i = byteAt b (k + i) := by
  simp [byteAt, List.getD_eq_getElem?_getD, List.getElem?_drop]

theorem byteAt_take {b : List Byte} {k i : Nat} (h : i < k) : byteAt (b.take k) i = byteAt b i := by
  simp [byteAt, List.getD_eq_getElem?_getD, List.getElem?_take_of_lt h]

theorem be16_lt (b : List Byte) (i : Nat) : be16 b i < 65536 := by
  have h1 := byteAt_lt b i
  have h2 := byteAt_lt b (i + 1)
  simp only [be16]
  omega

theorem be32_lt (b : List Byte) (i : Nat) : be32 b i < 2 ^ 32 := by
  have h1 := byteAt_lt b i
  have h2 := byteAt_lt b (i + 1)
  have h3 := byteAt_lt b (i + 2)
  have h4 := byteAt_lt b (i + 3)
  simp only [be32]
  omega

theorem halfBytes_value (v : BitVec 16) :
    (v.extractLsb' 8 8).toNat * 256 + (v.extractLsb' 0 8).toNat = v.toNat := by
  have := v.isLt
  simp only [BitVec.extractLsb'_toNat, Nat.shiftRight_eq_div_pow]
  omega

theorem wordBytes_value (v : Word) :
    (v.extractLsb' 24 8).toNat * 2 ^ 24 + (v.extractLsb' 16 8).toNat * 2 ^ 16 + (v.extractLsb' 8 8).toNat * 2 ^ 8 +
      (v.extractLsb' 0 8).toNat = v.toNat := by
  have := v.isLt
  simp only [BitVec.extractLsb'_toNat, Nat.shiftRight_eq_div_pow]
  omega

/-! ### Packing into result registers (R48) -/

theorem at32_zero (v : Nat) : at32 v 0 = word v := by simp [at32]

theorem at32_eq (v lo : Nat) : at32 v lo = word (v * 2 ^ lo) := by
  apply BitVec.eq_of_toNat_eq
  simp [at32, word, Nat.shiftLeft_eq]

theorem word_or {a b lo : Nat} (h : a < 2 ^ lo) : word a ||| word (b * 2 ^ lo) = word (a + b * 2 ^ lo) := by
  rw [word, word, word, ← BitVec.ofNat_or]
  congr 1
  rw [Nat.mul_comm b, Nat.or_comm, ← Nat.two_pow_add_eq_or_of_lt h, Nat.add_comm]

theorem pack2 {a b : Nat} (ha : a < 2 ^ 16) : at32 a 0 ||| at32 b 16 = word (a + b * 2 ^ 16) := by
  rw [at32_zero, at32_eq, word_or ha]

theorem pack2_8 {a b : Nat} (ha : a < 2 ^ 8) : at32 a 0 ||| at32 b 8 = word (a + b * 2 ^ 8) := by
  rw [at32_zero, at32_eq, word_or ha]

theorem pack4 {a b c d : Nat} (ha : a < 2 ^ 8) (hb : b < 2 ^ 8) (hc : c < 2 ^ 8) :
    at32 a 0 ||| at32 b 8 ||| at32 c 16 ||| at32 d 24 = word (a + b * 2 ^ 8 + c * 2 ^ 16 + d * 2 ^ 24) := by
  rw [at32_zero, at32_eq, at32_eq, at32_eq, word_or ha, word_or (by omega), word_or (by omega)]

theorem pack_dhcp {a b c d : Nat} (ha : a < 2 ^ 8) (hb : b < 2) (hc : c < 2) :
    at32 a 0 ||| at32 b 8 ||| at32 c 9 ||| at32 d 16 = word (a + b * 2 ^ 8 + c * 2 ^ 9 + d * 2 ^ 16) := by
  rw [at32_zero, at32_eq, at32_eq, at32_eq, word_or ha, word_or (by omega), word_or (by omega)]

/-! ### Sums -/

/-- The words of a sequence of even length keep their alignment in front of another sequence. -/
theorem sum16_append {b c : List Byte} (h : b.length % 2 = 0) : sum16 (b ++ c) = sum16 b + sum16 c := by
  induction b using sum16.induct with
  | case1 => simp [sum16]
  | case2 x => simp at h
  | case3 x y rest ih =>
    simp only [List.cons_append, sum16]
    rw [ih (by simp only [List.length_cons] at h; omega)]
    omega

theorem sum16_halfBytes (v : BitVec 16) : sum16 (halfBytes v) = v.toNat := by
  simpa [sum16, halfBytes] using halfBytes_value v

theorem sum16_zeros (n : Nat) : sum16 (List.replicate n 0) = 0 := by
  induction n using Nat.strong_induction_on with
  | _ n ih =>
    match n with
    | 0 => simp [sum16]
    | 1 => simp [sum16]
    | n + 2 =>
      have := ih n (by omega)
      simpa [List.replicate_succ, sum16] using this

/-! ### The folding loop -/

/-- The loop at any sufficient bound: the value is 0 for 0 alone, fits in 16 bits, and keeps the residue. -/
theorem foldLoop_facts {fuel s : Nat} (h : s ≤ fuel + 0xFFFF) :
    foldLoop fuel s ≤ 0xFFFF ∧ (foldLoop fuel s = 0 ↔ s = 0) ∧ foldLoop fuel s % 0xFFFF = s % 0xFFFF := by
  induction fuel generalizing s with
  | zero => exact ⟨by simpa [foldLoop] using h, Iff.rfl, rfl⟩
  | succ fuel ih =>
    simp only [foldLoop]
    split
    · have := ih (s := s % 0x10000 + s / 0x10000) (by omega)
      omega
    · omega

/-- A value in 16 bits is determined by its residue and by whether it is 0. -/
theorem foldLoop_unique {f g s : Nat} (hf : s ≤ f + 0xFFFF) (hg : s ≤ g + 0xFFFF) : foldLoop f s = foldLoop g s := by
  have := foldLoop_facts hf
  have := foldLoop_facts hg
  omega

end Sys2Proof.Machine
end

