-- ==== Sys2Proof/Laws/Memory.lean ====
section
/-! SUPPORT. The laws of `MEM`: every write keeps the canonical form and the size of the buffer, a read after a write
gives the value written, and a write leaves every other byte alone (20_memory.md R27, R28). -/

namespace Sys2Proof.Machine

/-! ### Cells -/

theorem Memory.cells_bounds {a : Nat} {bs : List Byte} {c : Host.Cell} (h : c ∈ Memory.cells a bs) :
    a ≤ c.1 ∧ c.1 < a + bs.length := by
  induction bs generalizing a with
  | nil => simp [Memory.cells] at h
  | cons b rest ih =>
    simp only [Memory.cells, List.mem_cons] at h
    rcases h with rfl | h
    · simp
    · have := ih h
      simp only [List.length_cons]
      omega

theorem Memory.cells_wf (a : Nat) (bs : List Byte) : Memory.wf (Memory.cells a bs) := by
  induction bs generalizing a with
  | nil => simp [Memory.cells]
  | cons b rest ih =>
    simp only [Memory.cells, Memory.wf, List.pairwise_cons]
    exact ⟨fun c hc => by have := Memory.cells_bounds hc; omega, ih _⟩

theorem Memory.lookup_cells (a : Nat) (bs : List Byte) (x : Nat) :
    Memory.lookup (Memory.cells a bs) x = if a ≤ x ∧ x < a + bs.length then some (bs.getD (x - a) 0) else none := by
  induction bs generalizing a with
  | nil => simp [Memory.cells, Memory.lookup]
  | cons b rest ih =>
    simp only [Memory.cells, Memory.lookup, ih, List.length_cons]
    by_cases h : a = x
    · subst h; simp
    · by_cases h' : a + 1 ≤ x ∧ x < a + 1 + rest.length
      · have hx : x - a = (x - (a + 1)) + 1 := by omega
        rw [if_neg h, if_pos h', if_pos (by omega), hx]
        simp
      · rw [if_neg h, if_neg h', if_neg (by omega)]

/-! ### Lookup through appends and filters -/

theorem Memory.lookup_append (m n : List Host.Cell) (x : Nat) :
    Memory.lookup (m ++ n) x = (Memory.lookup m x).or (Memory.lookup n x) := by
  induction m with
  | nil => simp [Memory.lookup]
  | cons c rest ih =>
    simp only [List.cons_append, Memory.lookup]
    split <;> simp [ih]

/-- A filter that keeps or drops cells by address keeps or drops the whole entry of an address. -/
theorem Memory.lookup_filter (m : List Host.Cell) (p : Nat → Bool) (x : Nat) :
    Memory.lookup (m.filter (fun c => p c.1)) x = if p x then Memory.lookup m x else none := by
  induction m with
  | nil => simp [Memory.lookup]
  | cons c rest ih =>
    by_cases hp : p c.1 = true
    · rw [List.filter_cons_of_pos (by simpa using hp)]
      simp only [Memory.lookup, ih]
      by_cases hx : c.1 = x
      · subst hx; simp [hp]
      · simp [hx]
    · rw [List.filter_cons_of_neg (by simpa using hp), ih]
      simp only [Memory.lookup]
      by_cases hx : c.1 = x
      · subst hx; simp [hp]
      · simp [hx]

/-! ### One write -/

/-- What `MEM` holds after a write: the new bytes in the written region, the old ones everywhere else. -/
theorem Memory.lookup_store (m : List Host.Cell) (a : Nat) (bs : List Byte) (x : Nat) :
    Memory.lookup (Memory.store m a bs) x =
      if a ≤ x ∧ x < a + bs.length then some (bs.getD (x - a) 0) else Memory.lookup m x := by
  unfold Memory.store
  rw [Memory.lookup_append, Memory.lookup_append, Memory.lookup_cells,
    Memory.lookup_filter m (fun y => decide (y < a)), Memory.lookup_filter m (fun y => decide (a + bs.length ≤ y))]
  by_cases h1 : x < a
  · have : ¬ a + bs.length ≤ x := by omega
    have h3 : ¬ (a ≤ x ∧ x < a + bs.length) := by omega
    simp [h1, this, h3]
  · by_cases h2 : a + bs.length ≤ x
    · have h3 : ¬ (a ≤ x ∧ x < a + bs.length) := by omega
      simp [h1, h2, h3]
    · have h3 : a ≤ x ∧ x < a + bs.length := by omega
      simp [h1, h3]

/-- A write keeps the canonical form. -/
theorem Memory.store_wf {m : List Host.Cell} (h : Memory.wf m) (a : Nat) (bs : List Byte) :
    Memory.wf (Memory.store m a bs) := by
  unfold Memory.store Memory.wf
  rw [List.pairwise_append, List.pairwise_append]
  refine ⟨⟨h.filter _, Memory.cells_wf a bs, ?_⟩, h.filter _, ?_⟩
  · intro c hc d hd
    have h1 := Memory.cells_bounds hd
    simp only [List.mem_filter, decide_eq_true_eq] at hc
    omega
  · intro c hc d hd
    simp only [List.mem_filter, decide_eq_true_eq] at hd
    rcases List.mem_append.mp hc with hc | hc
    · simp only [List.mem_filter, decide_eq_true_eq] at hc
      omega
    · have h1 := Memory.cells_bounds hc
      omega

/-- A write inside the first `k` addresses keeps every entry inside them. -/
theorem Memory.store_inside {m : List Host.Cell} {k a : Nat} {bs : List Byte} (h : ∀ c ∈ m, c.1 < k)
    (ha : a + bs.length ≤ k) : ∀ c ∈ Memory.store m a bs, c.1 < k := by
  intro c hc
  rcases List.mem_append.mp hc with hc | hc
  · rcases List.mem_append.mp hc with hc | hc
    · exact h c (List.mem_of_mem_filter hc)
    · have := Memory.cells_bounds hc
      omega
  · exact h c (List.mem_of_mem_filter hc)

/-! ### Scheduled writes -/

@[simp] theorem Memory.storeAll_nil (m : List Host.Cell) : Memory.storeAll m [] = m := rfl

@[simp] theorem Memory.storeAll_cons (m : List Host.Cell) (w : Nat × List Byte) (ws : List (Nat × List Byte)) :
    Memory.storeAll m (w :: ws) = Memory.storeAll (Memory.store m w.1 w.2) ws := rfl

theorem Memory.storeAll_wf {m : List Host.Cell} (h : Memory.wf m) (ws : List (Nat × List Byte)) :
    Memory.wf (Memory.storeAll m ws) := by
  induction ws generalizing m with
  | nil => exact h
  | cons w rest ih => exact ih (Memory.store_wf h w.1 w.2)

theorem Memory.storeAll_inside {m : List Host.Cell} {k : Nat} {ws : List (Nat × List Byte)} (h : ∀ c ∈ m, c.1 < k)
    (hw : ∀ w ∈ ws, w.1 + w.2.length ≤ k) : ∀ c ∈ Memory.storeAll m ws, c.1 < k := by
  induction ws generalizing m with
  | nil => exact h
  | cons w rest ih =>
    exact ih (Memory.store_inside h (hw w (by simp))) (fun v hv => hw v (by simp [hv]))

/-! ### Reading -/

/-- Reading a byte after a write of `bs` at `a` (the state's other fields play no part but the draw's epoch). -/
theorem State.readByte_store (s : State) (a : Nat) (bs : List Byte) (x : Nat) :
    State.readByte { s with mem := Memory.store s.mem a bs } x =
      if a ≤ x ∧ x < a + bs.length then bs.getD (x - a) 0 else s.readByte x := by
  simp only [State.readByte, Memory.lookup_store]
  split <;> simp

/-- A read sees only `MEM` and the draw of the current epoch. -/
theorem State.readByte_congr {s t : State} (hm : s.mem = t.mem) (he : s.epoch = t.epoch) (a : Nat) :
    s.readByte a = t.readByte a := by
  simp [State.readByte, hm, he]

@[simp] theorem State.memRead_length (s : State) (addr n : Nat) : (s.memRead addr n).length = n := by
  simp [State.memRead]

theorem State.memRead_getD (s : State) (addr : Nat) {n k : Nat} (h : k < n) :
    (s.memRead addr n).getD k 0 = s.readByte (addr + k) := by
  simp [State.memRead, List.getD_eq_getElem?_getD, h]

theorem State.memRead_congr {s t : State} {addr n : Nat} (h : ∀ k < n, s.readByte (addr + k) = t.readByte (addr + k)) :
    s.memRead addr n = t.memRead addr n := by
  apply List.map_congr_left
  intro k hk
  exact h k (List.mem_range.mp hk)

/-- Reading back the whole of a region that was just written. -/
theorem State.memRead_of_stored {t : State} {a : Nat} {bs : List Byte}
    (h : ∀ k < bs.length, t.readByte (a + k) = bs.getD k 0) : t.memRead a bs.length = bs := by
  apply List.ext_getElem
  · simp
  · intro k h1 h2
    have := h k h2
    simp only [State.memRead, List.getElem_map, List.getElem_range, this]
    simp [List.getD_eq_getElem?_getD, h2]

end Sys2Proof.Machine
end

