-- ==== Sys2Proof/Laws/State.lean ====
section
/-! SUPPORT. The small lemmas of the state updates: one per field per update, each true by `rfl`. -/

namespace Sys2Proof.Machine

/-! ### `State.succeed` -/

@[simp] theorem State.succeed_params (s : State) (e : Effect) : (s.succeed e).params = s.params := rfl
@[simp] theorem State.succeed_ie (s : State) (e : Effect) : (s.succeed e).ie = s.ie := rfl
@[simp] theorem State.succeed_cmdLast (s : State) (e : Effect) : (s.succeed e).cmdLast = s.cmdLast := rfl
@[simp] theorem State.succeed_status (s : State) (e : Effect) : (s.succeed e).status = s.status.succeeded := rfl
@[simp] theorem State.succeed_args (s : State) (e : Effect) : (s.succeed e).args = s.args := rfl
@[simp] theorem State.succeed_res (s : State) (e : Effect) : (s.succeed e).res = e.res := rfl
@[simp] theorem State.succeed_latch (s : State) (e : Effect) : (s.succeed e).latch = s.latch := rfl
@[simp] theorem State.succeed_mem (s : State) (e : Effect) : (s.succeed e).mem = Memory.storeAll s.mem e.writes := rfl
@[simp] theorem State.succeed_epoch (s : State) (e : Effect) : (s.succeed e).epoch = s.epoch := rfl
@[simp] theorem State.succeed_badAccess (s : State) (e : Effect) : (s.succeed e).badAccess = s.badAccess := rfl
@[simp] theorem State.succeed_memWhileBusy (s : State) (e : Effect) : (s.succeed e).memWhileBusy = s.memWhileBusy := rfl
@[simp] theorem State.succeed_script (s : State) (e : Effect) : (s.succeed e).script = s.script := rfl
@[simp] theorem State.succeed_sched (s : State) (e : Effect) : (s.succeed e).sched = s.sched := rfl
@[simp] theorem State.succeed_reads (s : State) (e : Effect) : (s.succeed e).reads = s.reads := rfl

/-! ### `State.fail` -/

@[simp] theorem State.fail_params (s : State) (c : ErrCode) : (s.fail c).params = s.params := rfl
@[simp] theorem State.fail_ie (s : State) (c : ErrCode) : (s.fail c).ie = s.ie := rfl
@[simp] theorem State.fail_cmdLast (s : State) (c : ErrCode) : (s.fail c).cmdLast = s.cmdLast := rfl
@[simp] theorem State.fail_status (s : State) (c : ErrCode) : (s.fail c).status = s.status.failed c := rfl
@[simp] theorem State.fail_args (s : State) (c : ErrCode) : (s.fail c).args = s.args := rfl
@[simp] theorem State.fail_res (s : State) (c : ErrCode) : (s.fail c).res = s.res := rfl
@[simp] theorem State.fail_latch (s : State) (c : ErrCode) : (s.fail c).latch = s.latch := rfl
@[simp] theorem State.fail_mem (s : State) (c : ErrCode) : (s.fail c).mem = s.mem := rfl
@[simp] theorem State.fail_epoch (s : State) (c : ErrCode) : (s.fail c).epoch = s.epoch := rfl
@[simp] theorem State.fail_badAccess (s : State) (c : ErrCode) : (s.fail c).badAccess = s.badAccess := rfl
@[simp] theorem State.fail_memWhileBusy (s : State) (c : ErrCode) : (s.fail c).memWhileBusy = s.memWhileBusy := rfl
@[simp] theorem State.fail_script (s : State) (c : ErrCode) : (s.fail c).script = s.script := rfl
@[simp] theorem State.fail_sched (s : State) (c : ErrCode) : (s.fail c).sched = s.sched := rfl
@[simp] theorem State.fail_reads (s : State) (c : ErrCode) : (s.fail c).reads = s.reads := rfl

/-! ### `State.startCommand` -/

@[simp] theorem State.startCommand_params (s : State) (w : Word) : (s.startCommand w).params = s.params := rfl
@[simp] theorem State.startCommand_ie (s : State) (w : Word) : (s.startCommand w).ie = s.ie := rfl
@[simp] theorem State.startCommand_cmdLast (s : State) (w : Word) : (s.startCommand w).cmdLast = w := rfl
@[simp] theorem State.startCommand_status (s : State) (w : Word) : (s.startCommand w).status = s.status.started := rfl
@[simp] theorem State.startCommand_args (s : State) (w : Word) : (s.startCommand w).args = s.args := rfl
@[simp] theorem State.startCommand_res (s : State) (w : Word) : (s.startCommand w).res = s.res := rfl
@[simp] theorem State.startCommand_latch (s : State) (w : Word) : (s.startCommand w).latch = s.args := rfl
@[simp] theorem State.startCommand_mem (s : State) (w : Word) : (s.startCommand w).mem = s.mem := rfl
@[simp] theorem State.startCommand_epoch (s : State) (w : Word) : (s.startCommand w).epoch = s.epoch := rfl
@[simp] theorem State.startCommand_badAccess (s : State) (w : Word) : (s.startCommand w).badAccess = s.badAccess := rfl
@[simp] theorem State.startCommand_memWhileBusy (s : State) (w : Word) : (s.startCommand w).memWhileBusy = s.memWhileBusy := rfl
@[simp] theorem State.startCommand_script (s : State) (w : Word) : (s.startCommand w).script = s.script := rfl
@[simp] theorem State.startCommand_sched (s : State) (w : Word) : (s.startCommand w).sched = s.sched := rfl
@[simp] theorem State.startCommand_reads (s : State) (w : Word) : (s.startCommand w).reads = s.reads := rfl

/-! ### `State.dropCommand` -/

@[simp] theorem State.dropCommand_params (s : State) : (s.dropCommand).params = s.params := rfl
@[simp] theorem State.dropCommand_ie (s : State) : (s.dropCommand).ie = s.ie := rfl
@[simp] theorem State.dropCommand_cmdLast (s : State) : (s.dropCommand).cmdLast = s.cmdLast := rfl
@[simp] theorem State.dropCommand_status (s : State) : (s.dropCommand).status = s.status.dropped := rfl
@[simp] theorem State.dropCommand_args (s : State) : (s.dropCommand).args = s.args := rfl
@[simp] theorem State.dropCommand_res (s : State) : (s.dropCommand).res = s.res := rfl
@[simp] theorem State.dropCommand_latch (s : State) : (s.dropCommand).latch = s.latch := rfl
@[simp] theorem State.dropCommand_mem (s : State) : (s.dropCommand).mem = s.mem := rfl
@[simp] theorem State.dropCommand_epoch (s : State) : (s.dropCommand).epoch = s.epoch := rfl
@[simp] theorem State.dropCommand_badAccess (s : State) : (s.dropCommand).badAccess = s.badAccess := rfl
@[simp] theorem State.dropCommand_memWhileBusy (s : State) : (s.dropCommand).memWhileBusy = s.memWhileBusy := rfl
@[simp] theorem State.dropCommand_script (s : State) : (s.dropCommand).script = s.script := rfl
@[simp] theorem State.dropCommand_sched (s : State) : (s.dropCommand).sched = s.sched := rfl
@[simp] theorem State.dropCommand_reads (s : State) : (s.dropCommand).reads = s.reads := rfl

/-! ### `State.assertReset` -/

@[simp] theorem State.assertReset_params (s : State) : (s.assertReset).params = s.params := rfl
@[simp] theorem State.assertReset_ie (s : State) : (s.assertReset).ie = false := rfl
@[simp] theorem State.assertReset_cmdLast (s : State) : (s.assertReset).cmdLast = 0 := rfl
@[simp] theorem State.assertReset_status (s : State) : (s.assertReset).status = Status.reset := rfl
@[simp] theorem State.assertReset_args (s : State) : (s.assertReset).args = ArgFile.reset := rfl
@[simp] theorem State.assertReset_res (s : State) : (s.assertReset).res = ResFile.reset := rfl
@[simp] theorem State.assertReset_latch (s : State) : (s.assertReset).latch = ArgFile.reset := rfl
@[simp] theorem State.assertReset_mem (s : State) : (s.assertReset).mem = [] := rfl
@[simp] theorem State.assertReset_epoch (s : State) : (s.assertReset).epoch = s.epoch + 1 := rfl
@[simp] theorem State.assertReset_badAccess (s : State) : (s.assertReset).badAccess = s.badAccess := rfl
@[simp] theorem State.assertReset_memWhileBusy (s : State) : (s.assertReset).memWhileBusy = s.memWhileBusy := rfl
@[simp] theorem State.assertReset_script (s : State) : (s.assertReset).script = s.script := rfl
@[simp] theorem State.assertReset_sched (s : State) : (s.assertReset).sched = s.sched := rfl
@[simp] theorem State.assertReset_reads (s : State) : (s.assertReset).reads = s.reads := rfl

/-! ### `State.returned` -/

@[simp] theorem State.returned_params (s : State) (v : Word) : (s.returned v).params = s.params := rfl
@[simp] theorem State.returned_ie (s : State) (v : Word) : (s.returned v).ie = s.ie := rfl
@[simp] theorem State.returned_cmdLast (s : State) (v : Word) : (s.returned v).cmdLast = s.cmdLast := rfl
@[simp] theorem State.returned_status (s : State) (v : Word) : (s.returned v).status = s.status := rfl
@[simp] theorem State.returned_args (s : State) (v : Word) : (s.returned v).args = s.args := rfl
@[simp] theorem State.returned_res (s : State) (v : Word) : (s.returned v).res = s.res := rfl
@[simp] theorem State.returned_latch (s : State) (v : Word) : (s.returned v).latch = s.latch := rfl
@[simp] theorem State.returned_mem (s : State) (v : Word) : (s.returned v).mem = s.mem := rfl
@[simp] theorem State.returned_epoch (s : State) (v : Word) : (s.returned v).epoch = s.epoch := rfl
@[simp] theorem State.returned_badAccess (s : State) (v : Word) : (s.returned v).badAccess = s.badAccess := rfl
@[simp] theorem State.returned_memWhileBusy (s : State) (v : Word) : (s.returned v).memWhileBusy = s.memWhileBusy := rfl
@[simp] theorem State.returned_script (s : State) (v : Word) : (s.returned v).script = s.script := rfl
@[simp] theorem State.returned_sched (s : State) (v : Word) : (s.returned v).sched = s.sched := rfl
@[simp] theorem State.returned_reads (s : State) (v : Word) : (s.returned v).reads = v :: s.reads := rfl

/-! ### `State.recordBadAccess` -/

@[simp] theorem State.recordBadAccess_params (s : State) : (s.recordBadAccess).params = s.params := rfl
@[simp] theorem State.recordBadAccess_ie (s : State) : (s.recordBadAccess).ie = s.ie := rfl
@[simp] theorem State.recordBadAccess_cmdLast (s : State) : (s.recordBadAccess).cmdLast = s.cmdLast := rfl
@[simp] theorem State.recordBadAccess_status (s : State) : (s.recordBadAccess).status = s.status := rfl
@[simp] theorem State.recordBadAccess_args (s : State) : (s.recordBadAccess).args = s.args := rfl
@[simp] theorem State.recordBadAccess_res (s : State) : (s.recordBadAccess).res = s.res := rfl
@[simp] theorem State.recordBadAccess_latch (s : State) : (s.recordBadAccess).latch = s.latch := rfl
@[simp] theorem State.recordBadAccess_mem (s : State) : (s.recordBadAccess).mem = s.mem := rfl
@[simp] theorem State.recordBadAccess_epoch (s : State) : (s.recordBadAccess).epoch = s.epoch := rfl
@[simp] theorem State.recordBadAccess_badAccess (s : State) : (s.recordBadAccess).badAccess = true := rfl
@[simp] theorem State.recordBadAccess_memWhileBusy (s : State) : (s.recordBadAccess).memWhileBusy = s.memWhileBusy := rfl
@[simp] theorem State.recordBadAccess_script (s : State) : (s.recordBadAccess).script = s.script := rfl
@[simp] theorem State.recordBadAccess_sched (s : State) : (s.recordBadAccess).sched = s.sched := rfl
@[simp] theorem State.recordBadAccess_reads (s : State) : (s.recordBadAccess).reads = s.reads := rfl

/-! ### `State.recordMemWhileBusy` -/

@[simp] theorem State.recordMemWhileBusy_params (s : State) : (s.recordMemWhileBusy).params = s.params := rfl
@[simp] theorem State.recordMemWhileBusy_ie (s : State) : (s.recordMemWhileBusy).ie = s.ie := rfl
@[simp] theorem State.recordMemWhileBusy_cmdLast (s : State) : (s.recordMemWhileBusy).cmdLast = s.cmdLast := rfl
@[simp] theorem State.recordMemWhileBusy_status (s : State) : (s.recordMemWhileBusy).status = s.status := rfl
@[simp] theorem State.recordMemWhileBusy_args (s : State) : (s.recordMemWhileBusy).args = s.args := rfl
@[simp] theorem State.recordMemWhileBusy_res (s : State) : (s.recordMemWhileBusy).res = s.res := rfl
@[simp] theorem State.recordMemWhileBusy_latch (s : State) : (s.recordMemWhileBusy).latch = s.latch := rfl
@[simp] theorem State.recordMemWhileBusy_mem (s : State) : (s.recordMemWhileBusy).mem = s.mem := rfl
@[simp] theorem State.recordMemWhileBusy_epoch (s : State) : (s.recordMemWhileBusy).epoch = s.epoch := rfl
@[simp] theorem State.recordMemWhileBusy_badAccess (s : State) : (s.recordMemWhileBusy).badAccess = s.badAccess := rfl
@[simp] theorem State.recordMemWhileBusy_memWhileBusy (s : State) : (s.recordMemWhileBusy).memWhileBusy = true := rfl
@[simp] theorem State.recordMemWhileBusy_script (s : State) : (s.recordMemWhileBusy).script = s.script := rfl
@[simp] theorem State.recordMemWhileBusy_sched (s : State) : (s.recordMemWhileBusy).sched = s.sched := rfl
@[simp] theorem State.recordMemWhileBusy_reads (s : State) : (s.recordMemWhileBusy).reads = s.reads := rfl

/-! ### `State.advance` -/

@[simp] theorem State.advance_params (s : State) : (s.advance).params = s.params := rfl
@[simp] theorem State.advance_ie (s : State) : (s.advance).ie = s.ie := rfl
@[simp] theorem State.advance_cmdLast (s : State) : (s.advance).cmdLast = s.cmdLast := rfl
@[simp] theorem State.advance_status (s : State) : (s.advance).status = s.status := rfl
@[simp] theorem State.advance_args (s : State) : (s.advance).args = s.args := rfl
@[simp] theorem State.advance_res (s : State) : (s.advance).res = s.res := rfl
@[simp] theorem State.advance_latch (s : State) : (s.advance).latch = s.latch := rfl
@[simp] theorem State.advance_mem (s : State) : (s.advance).mem = s.mem := rfl
@[simp] theorem State.advance_epoch (s : State) : (s.advance).epoch = s.epoch := rfl
@[simp] theorem State.advance_badAccess (s : State) : (s.advance).badAccess = s.badAccess := rfl
@[simp] theorem State.advance_memWhileBusy (s : State) : (s.advance).memWhileBusy = s.memWhileBusy := rfl
@[simp] theorem State.advance_script (s : State) : (s.advance).script = s.script := rfl
@[simp] theorem State.advance_sched (s : State) : (s.advance).sched = (agenda s).tail := rfl
@[simp] theorem State.advance_reads (s : State) : (s.advance).reads = s.reads := rfl

/-! ### `Status.started` -/

@[simp] theorem Status.started_busy (st : Status) : (st.started).busy = true := rfl
@[simp] theorem Status.started_done (st : Status) : (st.started).done = false := rfl
@[simp] theorem Status.started_err (st : Status) : (st.started).err = false := rfl
@[simp] theorem Status.started_drop (st : Status) : (st.started).drop = st.drop := rfl
@[simp] theorem Status.started_errCode (st : Status) : (st.started).errCode = .noError := rfl

/-! ### `Status.dropped` -/

@[simp] theorem Status.dropped_busy (st : Status) : (st.dropped).busy = st.busy := rfl
@[simp] theorem Status.dropped_done (st : Status) : (st.dropped).done = st.done := rfl
@[simp] theorem Status.dropped_err (st : Status) : (st.dropped).err = st.err := rfl
@[simp] theorem Status.dropped_drop (st : Status) : (st.dropped).drop = true := rfl
@[simp] theorem Status.dropped_errCode (st : Status) : (st.dropped).errCode = st.errCode := rfl

/-! ### `Status.succeeded` -/

@[simp] theorem Status.succeeded_busy (st : Status) : (st.succeeded).busy = false := rfl
@[simp] theorem Status.succeeded_done (st : Status) : (st.succeeded).done = true := rfl
@[simp] theorem Status.succeeded_err (st : Status) : (st.succeeded).err = false := rfl
@[simp] theorem Status.succeeded_drop (st : Status) : (st.succeeded).drop = st.drop := rfl
@[simp] theorem Status.succeeded_errCode (st : Status) : (st.succeeded).errCode = .noError := rfl

/-! ### `Status.failed` -/

@[simp] theorem Status.failed_busy (st : Status) (c : ErrCode) : (st.failed c).busy = false := rfl
@[simp] theorem Status.failed_done (st : Status) (c : ErrCode) : (st.failed c).done = true := rfl
@[simp] theorem Status.failed_err (st : Status) (c : ErrCode) : (st.failed c).err = true := rfl
@[simp] theorem Status.failed_drop (st : Status) (c : ErrCode) : (st.failed c).drop = st.drop := rfl
@[simp] theorem Status.failed_errCode (st : Status) (c : ErrCode) : (st.failed c).errCode = c := rfl

/-! ### `Status.acknowledged` -/

@[simp] theorem Status.acknowledged_busy (st : Status) (w : Word) : (st.acknowledged w).busy = st.busy := rfl
@[simp] theorem Status.acknowledged_done (st : Status) (w : Word) : (st.acknowledged w).done = (st.done && !w.getLsbD 1) := rfl
@[simp] theorem Status.acknowledged_err (st : Status) (w : Word) : (st.acknowledged w).err = (st.err && !w.getLsbD 2) := rfl
@[simp] theorem Status.acknowledged_drop (st : Status) (w : Word) : (st.acknowledged w).drop = (st.drop && !w.getLsbD 3) := rfl
@[simp] theorem Status.acknowledged_errCode (st : Status) (w : Word) : (st.acknowledged w).errCode = st.errCode := rfl

end Sys2Proof.Machine
end

