-- ==== Sys2Proof/Laws/Exec.lean ====
section
/-! SUPPORT. What the shared operations of the commands can do: the checks, the completion, and, for all fourteen
commands at once, that each is the completion of one result whose writes stay inside `MEM`. -/

namespace Sys2Proof.Machine

/-! ### Checks -/

@[simp] theorem raiseIf_true {α : Type} (c : ErrCode) (k : Except ErrCode α) : raiseIf true c k = .error c := rfl

@[simp] theorem raiseIf_false {α : Type} (c : ErrCode) (k : Except ErrCode α) : raiseIf false c k = k := rfl

/-- A check that goes on with `k` answers an error of its own or what `k` answers. -/
theorem raiseIf_eq_ok {α : Type} {bad : Bool} {c : ErrCode} {k : Except ErrCode α} {x : α} :
    raiseIf bad c k = .ok x ↔ bad = false ∧ k = .ok x := by
  cases bad <;> simp

theorem raiseIf_eq_error {α : Type} {bad : Bool} {c e : ErrCode} {k : Except ErrCode α} :
    raiseIf bad c k = .error e ↔ (bad = true ∧ e = c) ∨ (bad = false ∧ k = .error e) := by
  cases bad <;> simp [eq_comm]

theorem rangeCheck_pass {α : Type} {s : State} {addr n : Nat} (k : Except ErrCode α)
    (h : addr + n ≤ s.params.memBytes) : rangeCheck s addr n k = k := by
  have : ¬ s.params.memBytes < addr + n := by omega
  simp [rangeCheck, this]

theorem rangeCheck_fail {α : Type} {s : State} {addr n : Nat} (k : Except ErrCode α)
    (h : s.params.memBytes < addr + n) : rangeCheck s addr n k = .error .range := by
  simp [rangeCheck, h]

theorem rangeCheck_eq_ok {α : Type} {s : State} {addr n : Nat} {k : Except ErrCode α} {x : α} :
    rangeCheck s addr n k = .ok x ↔ addr + n ≤ s.params.memBytes ∧ k = .ok x := by
  simp [rangeCheck, raiseIf_eq_ok]

theorem rangeCheck_eq_error {α : Type} {s : State} {addr n : Nat} {k : Except ErrCode α} {e : ErrCode} :
    rangeCheck s addr n k = .error e ↔
      (s.params.memBytes < addr + n ∧ e = .range) ∨ (addr + n ≤ s.params.memBytes ∧ k = .error e) := by
  simp [rangeCheck, raiseIf_eq_error]

theorem bind_eq_ok {α β : Type} {x : Except ErrCode α} {f : α → Except ErrCode β} {b : β} :
    x.bind f = .ok b ↔ ∃ a, x = .ok a ∧ f a = .ok b := by
  cases x <;> simp [Except.bind]

theorem bind_eq_error {α β : Type} {x : Except ErrCode α} {f : α → Except ErrCode β} {e : ErrCode} :
    x.bind f = .error e ↔ x = .error e ∨ ∃ a, x = .ok a ∧ f a = .error e := by
  cases x <;> simp [Except.bind]

/-! ### Completion -/

theorem finish_ok (s : State) (e : Effect) : finish s (.ok e) = .next (s.succeed e) := rfl

theorem finish_error (s : State) (c : ErrCode) : finish s (.error c) = .next (s.fail c) := rfl

theorem fail_eq_afterError (s : State) (c : ErrCode) : s.fail c = s.afterError c := rfl

theorem succeed_eq_afterSuccess (s : State) (e : Effect) :
    s.succeed e = s.afterSuccess e.res (Memory.storeAll s.mem e.writes) := rfl

/-- A completion always answers a next state, one of two. -/
theorem finish_eq_next {s t : State} {x : Except ErrCode Effect} (h : finish s x = .next t) :
    (∃ e, x = .ok e ∧ t = s.succeed e) ∨ (∃ c, x = .error c ∧ t = s.fail c) := by
  cases x with
  | ok e =>
    cases h
    exact .inl ⟨e, rfl, rfl⟩
  | error c =>
    cases h
    exact .inr ⟨c, rfl, rfl⟩

/-- One scheduled write leaves `MEM` as `Stored` says. -/
theorem succeed_stored (s : State) (res : ResFile) (dst : Nat) (out : List Byte) :
    Stored s (s.succeed { res := res, writes := [(dst, out)] }) dst out := by
  intro a
  rw [← State.readByte_store s dst out a]
  exact State.readByte_congr rfl rfl a

/-! ### Lengths of what the builders write -/

theorem buildIPv4_length (p : List Byte) (proto ttl srcIP dstIP : Nat) :
    (buildIPv4 p proto ttl srcIP dstIP).1.length = 20 + p.length := by
  simp [buildIPv4, patch, ipHeader, enc16, enc32]
  omega

theorem buildUDP_length (z : Bool) (p : List Byte) (sp dp srcIP dstIP : Nat) :
    (buildUDP z p sp dp srcIP dstIP).1.length = 8 + p.length := by
  simp [buildUDP, patch, udpDatagram, enc16]
  omega

theorem optTable_length (es : List OptEntry) : (optTable es).length = 4 * es.length := by
  induction es with
  | nil => rfl
  | cons e rest ih =>
    simp only [optTable, List.flatMap_cons, List.length_append, List.length_cons] at *
    rw [ih]
    simp [enc16]
    omega

theorem dhcpMessage_length (l : ArgFile) (c : List Byte) : (dhcpMessage l c).length = 244 + c.length := by
  simp only [dhcpMessage, dhcpHeader, dhcpChaddr, magicCookie, List.length_append, List.length_cons, List.length_nil,
    enc16, enc32, zeros, List.length_replicate]
  omega

theorem leaseRecords_length (n : Nat) : (leaseRecords n).length = 18 := rfl

/-! ### Where the option scan can stop -/

theorem scanLoop_error {mode : PadMode} {d : List Byte} {src fuel i : Nat} {t : OptScan} {c : ErrCode}
    (h : scanLoop mode d src fuel i t = .error c) : c = .optOverrun := by
  induction fuel generalizing i t with
  | zero => simp [scanLoop] at h
  | succ fuel ih =>
    simp only [scanLoop] at h
    split at h
    · simp at h
    · split at h
      · simp at h
      · split at h
        · exact ih h
        · split at h
          · simpa using h.symm
          · split at h
            · simpa using h.symm
            · exact ih h

theorem decodeIPv4_error_ne {d : List Byte} : decodeIPv4 d ≠ .error .noError := by
  simp [decodeIPv4, raiseIf_eq_error]

theorem decodeUDP_error_ne {z : Bool} {d : List Byte} {a b : Nat} : decodeUDP z d a b ≠ .error .noError := by
  simp [decodeUDP, raiseIf_eq_error]

/-! ### All commands at once -/

/-- A command's result: an error that is one, or writes that stay inside `MEM`. -/
structure Sound (s : State) (x : Except ErrCode Effect) : Prop where
  error : ∀ c, x = .error c → c ≠ .noError
  inside : ∀ e, x = .ok e → ∀ w ∈ e.writes, w.1 + w.2.length ≤ s.params.memBytes

theorem Sound.raiseIf {s : State} {bad : Bool} {c : ErrCode} {k : Except ErrCode Effect} (hc : c ≠ .noError)
    (h : Sound s k) : Sound s (raiseIf bad c k) := by
  cases bad
  · exact h
  · exact ⟨fun e he => by cases he; exact hc, fun e he => by cases he⟩

theorem Sound.rangeCheck {s : State} {addr n : Nat} {k : Except ErrCode Effect}
    (h : addr + n ≤ s.params.memBytes → Sound s k) : Sound s (rangeCheck s addr n k) := by
  by_cases hr : addr + n ≤ s.params.memBytes
  · rw [rangeCheck_pass k hr]
    exact h hr
  · rw [rangeCheck_fail k (by omega)]
    exact ⟨fun e he => by cases he; simp, fun e he => by cases he⟩

theorem Sound.bind {α : Type} {s : State} {x : Except ErrCode α} {f : α → Except ErrCode Effect}
    (hx : x ≠ .error .noError) (h : ∀ a, x = .ok a → Sound s (f a)) : Sound s (x.bind f) := by
  cases x with
  | error c => exact ⟨fun e he => by cases he; exact fun hc => hx (by rw [hc]), fun e he => by cases he⟩
  | ok a => exact h a rfl

theorem Sound.nothing {s : State} {res : ResFile} : Sound s (.ok { res := res, writes := [] }) :=
  ⟨fun _ h => (nomatch h), fun _ h => by cases h; simp⟩

theorem Sound.write {s : State} {res : ResFile} {dst : Nat} {out : List Byte}
    (h : dst + out.length ≤ s.params.memBytes) : Sound s (.ok { res := res, writes := [(dst, out)] }) :=
  ⟨fun _ he => (nomatch he), fun _ he => by cases he; simpa using h⟩

/-- What each command's pseudocode gives, before its completion. -/
def commandOutcome (i : Instr) (s : State) : Except ErrCode Effect :=
  match i with
  | .nop => nopOutcome s
  | .csum => csumOutcome s
  | .csumVerify => csumVerifyOutcome s
  | .csumUdp => csumUdpOutcome s
  | .ipBuild => ipBuildOutcome s
  | .udpBuild => udpBuildOutcome s
  | .udpipBuild => udpipBuildOutcome s
  | .ipDecode => ipDecodeOutcome s
  | .udpDecode => udpDecodeOutcome s
  | .udpipDecode => udpipDecodeOutcome s
  | .dhcpDecode => dhcpDecodeOutcome s
  | .dhcpEncode => dhcpEncodeOutcome s
  | .optAddrs => optAddrsOutcome s
  | .optLease => optLeaseOutcome s

/-- Every command is the completion of its outcome (R61). -/
theorem exec_eq_finish (i : Instr) (s : State) : exec i s = finish s (commandOutcome i s) := by
  cases i <;> rfl

/-- Every command's outcome is sound. -/
theorem commandOutcome_sound (i : Instr) (s : State) : Sound s (commandOutcome i s) := by
  cases i
  case nop => exact Sound.nothing
  case csum => exact Sound.rangeCheck fun _ => Sound.nothing
  case csumVerify => exact Sound.rangeCheck fun _ => Sound.nothing
  case csumUdp => exact Sound.rangeCheck fun _ => Sound.raiseIf (by simp) Sound.nothing
  case ipBuild =>
    exact Sound.rangeCheck fun _ => Sound.raiseIf (by simp) <| Sound.rangeCheck fun h =>
      Sound.write (by simpa [buildIPv4_length] using h)
  case udpBuild =>
    exact Sound.rangeCheck fun _ => Sound.raiseIf (by simp) <| Sound.rangeCheck fun h =>
      Sound.write (by simpa [buildUDP_length] using h)
  case udpipBuild =>
    exact Sound.rangeCheck fun _ => Sound.raiseIf (by simp) <| Sound.rangeCheck fun h =>
      Sound.write (by simp [buildIPv4_length, buildUDP_length]; omega)
  case ipDecode => exact Sound.rangeCheck fun _ => Sound.bind decodeIPv4_error_ne fun _ _ => Sound.nothing
  case udpDecode => exact Sound.rangeCheck fun _ => Sound.bind decodeUDP_error_ne fun _ _ => Sound.nothing
  case udpipDecode =>
    exact Sound.rangeCheck fun _ => Sound.bind decodeIPv4_error_ne fun _ _ => Sound.raiseIf (by simp) <|
      Sound.bind decodeUDP_error_ne fun _ _ => Sound.nothing
  case dhcpDecode =>
    exact Sound.rangeCheck fun _ => Sound.raiseIf (by simp) <| Sound.raiseIf (by simp) <|
      Sound.raiseIf (by simp) <| Sound.bind (fun h => by simpa using scanLoop_error h) fun _ _ =>
      Sound.rangeCheck fun h => Sound.write (by simpa [optTable_length] using h)
  case dhcpEncode =>
    exact Sound.rangeCheck fun _ => Sound.rangeCheck fun h =>
      Sound.write (by simpa [dhcpMessage_length] using h)
  case optAddrs =>
    exact Sound.raiseIf (by simp) <| Sound.raiseIf (by simp) <| Sound.raiseIf (by simp) <|
      Sound.rangeCheck fun _ => Sound.rangeCheck fun h => Sound.write (by simp; omega)
  case optLease => exact Sound.rangeCheck fun h => Sound.write (by simpa [leaseRecords_length] using h)

/-- What a command that answers `t` did: it succeeded with writes inside `MEM`, or it failed with an error code. -/
theorem exec_eq_next {i : Instr} {s t : State} (h : exec i s = .next t) :
    (∃ e, commandOutcome i s = .ok e ∧ t = s.succeed e ∧ ∀ w ∈ e.writes, w.1 + w.2.length ≤ s.params.memBytes) ∨
    (∃ c, commandOutcome i s = .error c ∧ t = s.fail c ∧ c ≠ .noError) := by
  rw [exec_eq_finish] at h
  rcases finish_eq_next h with ⟨e, he, rfl⟩ | ⟨c, hc, rfl⟩
  · exact .inl ⟨e, he, rfl, (commandOutcome_sound i s).inside e he⟩
  · exact .inr ⟨c, hc, rfl, (commandOutcome_sound i s).error c hc⟩

/-- Every command answers a next state. -/
theorem exec_next (i : Instr) (s : State) : ∃ t, exec i s = .next t := by
  rw [exec_eq_finish]
  cases commandOutcome i s with
  | ok e => exact ⟨_, finish_ok s e⟩
  | error c => exact ⟨_, finish_error s c⟩

end Sys2Proof.Machine
end

