-- ==== Sys2Proof/Laws/Host.lean ====
section
/-! SUPPORT. What the host's accesses can do: where an access falls, what it is there, and what every access leaves
alone (10_state.md R9 to R24). -/

namespace Sys2Proof.Machine

/-! ### Where an access falls -/

theorem placeOf_reg {off : Nat} (h : off < 0x10000) (h4 : off % 4 = 0) : placeOf 32 off = .reg (regAt off) := by
  simp [placeOf, h, h4]

theorem placeOf_window {a : Nat} (h : a < 0x10000) : placeOf 8 (0x10000 + a) = .window a := by
  have h2 : 0x10000 + a < 0x20000 := by omega
  simp [placeOf, h2]

/-- The accesses R10 refuses, and no others. -/
theorem placeOf_eq_refused {bits off : Nat} :
    placeOf bits off = .refused ↔
      (off < 0x10000 ∧ ¬(bits = 32 ∧ off % 4 = 0)) ∨ (0x10000 ≤ off ∧ off < 0x20000 ∧ bits ≠ 8) ∨ 0x20000 ≤ off := by
  unfold placeOf
  split
  · split
    · simp; omega
    · simp; omega
  · split
    · split
      · simp; omega
      · simp; omega
    · simp; omega

theorem regAt_arg (i : Fin 11) : regAt (0x020 + 4 * i.val) = .arg i := by
  match i with
  | 0 | 1 | 2 | 3 | 4 | 5 | 6 | 7 | 8 | 9 | 10 => rfl

theorem regAt_res (i : Fin 8) : regAt (0x060 + 4 * i.val) = .res i := by
  match i with
  | 0 | 1 | 2 | 3 | 4 | 5 | 6 | 7 => rfl

/-- The legal buffer sizes fit in the window. -/
theorem Params.memBytes_le {p : Params} (h : p.wellFormed = true) : p.memBytes ≤ 0x10000 := by
  simp [Params.wellFormed] at h
  omega

/-! ### One access -/

theorem hostAccess_readReg {s : State} {off : Nat} {r : Reg} (h : off < 0x10000) (h4 : off % 4 = 0)
    (hr : regAt off = r) :
    hostAccess s { kind := .read, bits := 32, off := off } = s.returned (readReg s r) := by
  simp [hostAccess, placeOf_reg h h4, hr]

theorem hostAccess_writeReg {s : State} {off : Nat} {r : Reg} (v : Word) (h : off < 0x10000) (h4 : off % 4 = 0)
    (hr : regAt off = r) :
    hostAccess s { kind := .write v, bits := 32, off := off } = writeReg s r v := by
  simp [hostAccess, placeOf_reg h h4, hr]

theorem hostAccess_window (s : State) (k : AccessKind) {a : Nat} (h : a < 0x10000) :
    hostAccess s { kind := k, bits := 8, off := 0x10000 + a } = windowAccess s k a := by
  simp [hostAccess, placeOf_window h]

theorem hostAccess_refused {s : State} {acc : HostAccess} (h : placeOf acc.bits acc.off = .refused) :
    hostAccess s acc = s.recordBadAccess.noEffect acc.kind := by
  simp [hostAccess, h]

@[simp] theorem ArgFile.get_set (f : ArgFile) (i j : Fin 11) (v : Word) :
    (f.set i v).get j = if j = i then v else f.get j := by
  match i, j with
  | 0, j | 1, j | 2, j | 3, j | 4, j | 5, j | 6, j | 7, j | 8, j | 9, j | 10, j =>
    match j with
    | 0 | 1 | 2 | 3 | 4 | 5 | 6 | 7 | 8 | 9 | 10 => rfl

/-! ### What every access leaves alone -/

theorem State.noEffect_eq (s : State) (k : AccessKind) :
    s.noEffect k = { s with reads := (s.noEffect k).reads } := by
  cases k <;> rfl

/-- Everything one access can change: the registers the host writes, a command start or a drop, one byte of `MEM`, the
recorded faults, and the host's own record of reads. -/
theorem hostAccess_frame (s : State) (acc : HostAccess) :
    hostAccess s acc =
      { s with
        ie := (hostAccess s acc).ie
        cmdLast := (hostAccess s acc).cmdLast
        status := (hostAccess s acc).status
        args := (hostAccess s acc).args
        latch := (hostAccess s acc).latch
        mem := (hostAccess s acc).mem
        badAccess := (hostAccess s acc).badAccess
        memWhileBusy := (hostAccess s acc).memWhileBusy
        reads := (hostAccess s acc).reads } := by
  unfold hostAccess
  split
  · cases acc.kind <;> rfl
  · cases acc.kind with
    | read => rfl
    | write v =>
      rename_i r _
      cases r <;> try rfl
      simp only [writeReg, State.requestCommand]
      split <;> rfl
  · unfold windowAccess
    split
    · cases acc.kind <;> rfl
    · split
      · cases acc.kind <;> rfl
      · cases acc.kind <;> rfl

/-- A recorded host fault stays recorded. -/
theorem hostAccess_sticky (s : State) (acc : HostAccess) :
    (s.badAccess = true → (hostAccess s acc).badAccess = true) ∧
    (s.memWhileBusy = true → (hostAccess s acc).memWhileBusy = true) := by
  unfold hostAccess
  split
  · cases acc.kind <;> simp [State.noEffect]
  · rename_i r _
    cases acc.kind with
    | read => simp
    | write v =>
      cases r <;> simp [writeReg]
      unfold State.requestCommand
      split <;> simp
  · unfold windowAccess
    split
    · cases acc.kind <;> simp [State.noEffect]
    · split
      · cases acc.kind <;> simp [State.noEffect]
      · cases acc.kind <;> simp

/-- The command word, the latched arguments and BUSY change in an access only by a command start (R58, R59). -/
theorem hostAccess_start (s : State) (acc : HostAccess) :
    ((hostAccess s acc).cmdLast = s.cmdLast ∧ (hostAccess s acc).latch = s.latch ∧
        (hostAccess s acc).status.busy = s.status.busy) ∨
      (s.status.busy = false ∧ ∃ w, hostAccess s acc = s.startCommand w) := by
  unfold hostAccess
  split
  · cases acc.kind <;> simp [State.noEffect]
  · rename_i r _
    cases acc.kind with
    | read => simp
    | write v =>
      cases r <;> simp [writeReg]
      unfold State.requestCommand
      cases hb : s.status.busy
      · exact .inr ⟨rfl, v, by simp⟩
      · exact .inl (by simp [hb])
  · unfold windowAccess
    split
    · cases acc.kind <;> simp [State.noEffect]
    · split
      · cases acc.kind <;> simp [State.noEffect]
      · cases acc.kind <;> simp

/-! ### Which agent moves -/

/-- The agent that moves has a step (R60). -/
theorem mover_enabled {s : State} {x : Slot} (h : mover s = some x) : enabled s x = true := by
  unfold mover at h
  split at h
  · rename_i y rest hy
    cases h
    have := List.head?_dropWhile_not (fun z => !enabled s z) s.sched
    rw [show s.sched.dropWhile (fun z => !enabled s z) = _ :: rest from hy] at this
    simpa using this
  · split at h
    · cases h
      simpa [enabled] using ‹s.status.busy = true›
    · split at h
      · cases h
      · cases h
        simpa [enabled] using ‹¬s.script.isEmpty = true›

end Sys2Proof.Machine
end

