-- ==== Sys2Proof/Laws/PerInstr.lean ====
section
/-! SUPPORT. One law per command about its encoding: the word has zero reserved bits, and its opcode stands in the map
of 30_encoding.md R44 beside this command. -/

namespace Sys2Proof.Laws.Encoding

/-- The command is well-formed, its word has `w[31:8] = 0`, and the map of R44 gives it for its opcode. -/
def Statement (i : Instr) : Prop :=
  i.wellFormed = true ∧ rsvdField (encode i) = 0 ∧ opcodeMap.lookup (opField (encode i)) = some i

theorem nop : Statement .nop := by
  unfold Statement
  decide

theorem csum : Statement .csum := by
  unfold Statement
  decide

theorem csumVerify : Statement .csumVerify := by
  unfold Statement
  decide

theorem csumUdp : Statement .csumUdp := by
  unfold Statement
  decide

theorem ipBuild : Statement .ipBuild := by
  unfold Statement
  decide

theorem udpBuild : Statement .udpBuild := by
  unfold Statement
  decide

theorem udpipBuild : Statement .udpipBuild := by
  unfold Statement
  decide

theorem ipDecode : Statement .ipDecode := by
  unfold Statement
  decide

theorem udpDecode : Statement .udpDecode := by
  unfold Statement
  decide

theorem udpipDecode : Statement .udpipDecode := by
  unfold Statement
  decide

theorem dhcpDecode : Statement .dhcpDecode := by
  unfold Statement
  decide

theorem dhcpEncode : Statement .dhcpEncode := by
  unfold Statement
  decide

theorem optAddrs : Statement .optAddrs := by
  unfold Statement
  decide

theorem optLease : Statement .optLease := by
  unfold Statement
  decide

end Sys2Proof.Laws.Encoding
end

