-- ==== Sys2Proof/Laws/Wire.lean ====
section
/-! SUPPORT. The framer's and the codec's functions in the bit-vector form the statements use (30_encoding.md R49 to
R52). -/

namespace Sys2Proof.Machine

/-! ### Fields of argument registers (R47) -/

theorem field_byte0 (v : Word) : field v 7 0 = (v.extractLsb' 0 8).toNat := field_toNat v 0 8 (by decide)
theorem field_byte1 (v : Word) : field v 15 8 = (v.extractLsb' 8 8).toNat := field_toNat v 8 8 (by decide)
theorem field_byte2 (v : Word) : field v 23 16 = (v.extractLsb' 16 8).toNat := field_toNat v 16 8 (by decide)
theorem field_byte3 (v : Word) : field v 31 24 = (v.extractLsb' 24 8).toNat := field_toNat v 24 8 (by decide)
theorem field_half0 (v : Word) : field v 15 0 = (v.extractLsb' 0 16).toNat := field_toNat v 0 16 (by decide)
theorem field_half1 (v : Word) : field v 31 16 = (v.extractLsb' 16 16).toNat := field_toNat v 16 16 (by decide)
theorem field_high24 (v : Word) : field v 31 8 = (v.extractLsb' 8 24).toNat := field_toNat v 8 24 (by decide)

@[simp] theorem byte_toNat (b : Byte) : byte b.toNat = b := by simp [byte]

/-! ### IPv4 -/

theorem ipHeader_eq (n : Nat) (proto ttl : Byte) (srcIP dstIP : Word) :
    ipHeader n proto.toNat ttl.toNat srcIP.toNat dstIP.toNat = ipHeaderWith 0 (20 + n) proto ttl srcIP dstIP := by
  simp only [ipHeader, ipHeaderWith, byte_toNat, enc32_eq_wordBytes, enc16_eq_halfBytes]
  rfl

theorem ipHeaderWith_length (c : BitVec 16) (total : Nat) (proto ttl : Byte) (srcIP dstIP : Word) :
    (ipHeaderWith c total proto ttl srcIP dstIP).length = 20 := rfl

theorem patch_ipHeaderWith (c : Nat) (total : Nat) (proto ttl : Byte) (srcIP dstIP : Word) :
    patch (ipHeaderWith 0 total proto ttl srcIP dstIP) 10 (enc16 c) =
      ipHeaderWith (BitVec.ofNat 16 c) total proto ttl srcIP dstIP := by
  rw [enc16_eq_halfBytes]
  rfl

/-- `BuildIPv4` gives the datagram and the checksum the statements speak of (R77). -/
theorem buildIPv4_eq (p : List Byte) (proto ttl : Byte) (srcIP dstIP : Word) :
    buildIPv4 p proto.toNat ttl.toNat srcIP.toNat dstIP.toNat =
      (ipDatagram p proto ttl srcIP dstIP, ipChecksumOf (20 + p.length) proto ttl srcIP dstIP) := by
  simp only [buildIPv4, ipHeader_eq, internetChecksum, patch_ipHeaderWith, ipDatagram, ipChecksumOf]

theorem ipDatagram_length (p : List Byte) (proto ttl : Byte) (srcIP dstIP : Word) :
    (ipDatagram p proto ttl srcIP dstIP).length = 20 + p.length := by
  simp [ipDatagram, ipHeaderWith_length]

/-! ### UDP -/

theorem pseudo_eq (srcIP dstIP : Word) (n : Nat) :
    pseudo srcIP.toNat dstIP.toNat n =
      wordBytes srcIP ++ wordBytes dstIP ++ [0x00, 0x11] ++ halfBytes (BitVec.ofNat 16 n) := by
  simp only [pseudo, enc32_eq_wordBytes, enc16_eq_halfBytes]

theorem udpSum_eq (srcIP dstIP : Word) (d : List Byte) : udpSum srcIP.toNat dstIP.toNat d = udpSumOf srcIP dstIP d := by
  simp only [udpSum, udpSumOf, pseudo_eq]

theorem udpDatagram_eq (p : List Byte) (sp dp : BitVec 16) :
    udpDatagram p sp.toNat dp.toNat = udpWith 0 p sp dp := by
  simp only [udpDatagram, udpWith, enc16_toNat, enc16_eq_halfBytes (8 + p.length), enc16_eq_halfBytes 0x0000]
  rfl

theorem udpWith_length (c : BitVec 16) (p : List Byte) (sp dp : BitVec 16) :
    (udpWith c p sp dp).length = 8 + p.length := by
  simp [udpWith]
  omega

theorem patch_udpWith (c : Nat) (p : List Byte) (sp dp : BitVec 16) :
    patch (udpWith 0 p sp dp) 6 (enc16 c) = udpWith (BitVec.ofNat 16 c) p sp dp := by
  rw [enc16_eq_halfBytes]
  rfl

/-- `BuildUDP` gives the datagram and the checksum field the statements speak of (R78). -/
theorem buildUDP_eq (z : Bool) (p : List Byte) (sp dp : BitVec 16) (srcIP dstIP : Word) :
    buildUDP z p sp.toNat dp.toNat srcIP.toNat dstIP.toNat =
      (udpDatagramOf z p sp dp srcIP dstIP, udpChecksumOf z p sp dp srcIP dstIP) := by
  simp only [buildUDP, udpDatagram_eq, udpChecksum, udpSum_eq, patch_udpWith, udpDatagramOf, udpChecksumOf]

theorem udpDatagramOf_length (z : Bool) (p : List Byte) (sp dp : BitVec 16) (srcIP dstIP : Word) :
    (udpDatagramOf z p sp dp srcIP dstIP).length = 8 + p.length := udpWith_length _ _ _ _

/-! ### DHCP -/

theorem byte_dhcpOp (mt : Byte) : byte (dhcpOp mt.toNat) = if mt = 2 ∨ mt = 5 ∨ mt = 6 then 2 else 1 := by
  have h (k : Nat) (hk : k < 256) : mt.toNat = k ↔ mt = BitVec.ofNat 8 k := by
    rw [← BitVec.toNat_inj]
    simp [Nat.mod_eq_of_lt hk]
  simp only [dhcpOp, h 2 (by decide), h 5 (by decide), h 6 (by decide)]
  simp only [BitVec.ofNat_eq_ofNat]
  split <;> simp [byte]

/-- DHCP_ENCODE's message in the form the statements use (R99, R100). -/
theorem dhcpMessage_eq (l : ArgFile) (c : List Byte) : dhcpMessage l c = dhcpMessageOf l c := by
  simp only [dhcpMessage, dhcpHeader, dhcpChaddr, dhcpMessageOf, field_byte2, field_byte3, field_half0, field_half1,
    enc16_toNat, enc32_eq_wordBytes, byte_toNat, byte_dhcpOp, magicCookie, zeros]
  simp only [List.append_assoc, List.replicate_add, List.cons_append, List.nil_append]

end Sys2Proof.Machine
end

