-- ==== Sys2Proof/Tests/Slice0.lean ====
section
/-! SUPPORT. The model's own tests: one step each, on small states, with results from spec/95_test_vectors.md (the vector
is named in each docstring); and, for every statement with hypotheses, states and operands that meet them. -/

namespace Sys2Proof.Machine.Tests

set_option Elab.async false

open Sys2Proof

/-! ### Helpers -/

/-- A pending command's state: `bytes` written from `MEM[base]` on, the latched arguments `l`, the parameters `p`. -/
def pending (base : Nat) (bytes : List Byte) (l : ArgFile) (p : Params := Params.defaults) : State :=
  { State.reset with
    params := p
    latch := l
    mem := Memory.cells base bytes
    status := { Status.reset with busy := true } }

/-- The state a step or a command answers, where it answers one. -/
def nextOf (r : Result) : Option State :=
  match r with
  | .next t => some t
  | .fault _ => none
  | .refused _ => none

/-- The result registers after a command, and the word a read of `STATUS` then returns. -/
def resOf (r : Result) : Option (List Word × Word) :=
  (nextOf r).map fun t =>
    ([t.res.r0, t.res.r1, t.res.r2, t.res.r3, t.res.r4, t.res.r5, t.res.r6, t.res.r7], t.status.toWord)

/-- `n` bytes of `MEM` from `a` on after a command. -/
def memOf (r : Result) (a n : Nat) : Option (List Byte) := (nextOf r).map fun t => t.memRead a n

/-- The error code a command ends with. -/
def errOf (r : Result) : Option ErrCode := (nextOf r).map fun t => t.status.errCode

/-- The largest buffer of R4. -/
def bigMem : Params := { Params.defaults with memBytes := 65536 }

/-- All arguments 0. -/
def l0 : ArgFile := ArgFile.reset

/-- The payload of vectors F1 and F9. -/
def payload : List Byte := [0xde, 0xad, 0xbe, 0xef]

/-- The 24 bytes of vector F1. -/
def frameF1 : List Byte :=
  [0x45, 0x00, 0x00, 0x18, 0x00, 0x00, 0x00, 0x00, 0x40, 0x11, 0x70, 0xd5, 0x0a, 0x00, 0x00, 0x01,
   0xff, 0xff, 0xff, 0xff, 0xde, 0xad, 0xbe, 0xef]

/-- The 8 bytes of vector F5. -/
def datagramF5 : List Byte := [0x00, 0x43, 0x00, 0x44, 0x00, 0x08, 0xf5, 0x56]

/-- The 32 bytes of vector F9. -/
def frameF9 : List Byte :=
  [0x45, 0x00, 0x00, 0x20, 0x00, 0x00, 0x00, 0x00, 0x80, 0x11, 0xb9, 0x79, 0xc0, 0xa8, 0x00, 0x01,
   0xc0, 0xa8, 0x00, 0x02, 0x00, 0x43, 0x00, 0x44, 0x00, 0x0c, 0xe0, 0x5d, 0xde, 0xad, 0xbe, 0xef]

/-- The first 240 bytes of the message of vector E1, "B" of section 2.6, with a hardware address length and a last
cookie byte. -/
def messageB (hlen cookie3 : Byte) : List Byte :=
  [0x01, 0x01, hlen, 0x00, 0x12, 0x34, 0x56, 0x78] ++ List.replicate 20 0 ++
    [0xaa, 0xbb, 0xcc, 0xdd, 0xee, 0x01] ++ List.replicate 202 0 ++ [0x63, 0x82, 0x53, cookie3]

/-- The addresses of vectors F1 and F5. -/
def addrsA : ArgFile := { l0 with a3 := 0x0A000001, a4 := 0xFFFFFFFF }

/-- The arguments of vector F9. -/
def argsF9 : ArgFile :=
  { l0 with a1 := 4, a2 := 0x300, a3 := 0xC0A80001, a4 := 0xC0A80002, a5 := 0x8011, a6 := 0x00440043 }

/-- The arguments of vectors E1 to E8 for a message type. -/
def argsE (mt : Word) : ArgFile :=
  { l0 with a3 := 0x12345678, a9 := 0xAABBCCDD, a10 := 0x0000EE01 ||| (mt <<< 16) }

/-! ### WellFormed refuses ill-formed terms -/

/-- `MEM_BYTES` below 1024 and above 65536 (R4). -/
theorem test_params_illFormed :
    { Params.defaults with memBytes := 1023 }.wellFormed = false ∧
    { Params.defaults with memBytes := 65537 }.wellFormed = false ∧
    { Params.defaults with memBytes := 1024 }.wellFormed = true ∧ bigMem.wellFormed = true := by decide

/-- A register operand that is no register, is misaligned, or lies outside the register region (R9, R10, R57). -/
theorem test_regOperand_illFormed :
    RegOperand.wellFormed (.name .unlisted) = false ∧ RegOperand.wellFormed (.offset 0x022) = false ∧
    RegOperand.wellFormed (.offset 0x10000) = false ∧ RegOperand.wellFormed (.offset 0x014) = true := by decide

/-- `WB` with no byte or past the window, `RB` past the window, `RUN` naming a register twice, and a line whose operand
is ill-formed (R57). -/
theorem test_scriptLine_illFormed :
    ScriptLine.wellFormed (.wb 0 []) = false ∧ ScriptLine.wellFormed (.wb 0xFFFF [1, 2]) = false ∧
    ScriptLine.wellFormed (.rb 0xFFFF 2) = false ∧ ScriptLine.wellFormed (.run .csum [(0, 1), (0, 2)]) = false ∧
    ScriptLine.wellFormed (.w (.offset 2) 0) = false ∧ ScriptLine.wellFormed (.r (.offset 2)) = false ∧
    ScriptLine.wellFormed (.run .csum [(0, 1), (1, 2)]) = true := by decide

/-! ### Decoding, from the table of R44 written out bit by bit -/

/-- NOP and the checksum family. -/
theorem test_decode_checksum :
    decode 0b00000000000000000000000000000000#32 = .ok .nop ∧
    decode 0b00000000000000000000000000000001#32 = .ok .csum ∧
    decode 0b00000000000000000000000000000010#32 = .ok .csumVerify ∧
    decode 0b00000000000000000000000000000011#32 = .ok .csumUdp := ⟨rfl, rfl, rfl, rfl⟩

/-- The framer family. -/
theorem test_decode_framer :
    decode 0b00000000000000000000000000010000#32 = .ok .ipBuild ∧
    decode 0b00000000000000000000000000010001#32 = .ok .udpBuild ∧
    decode 0b00000000000000000000000000010010#32 = .ok .udpipBuild ∧
    decode 0b00000000000000000000000000011000#32 = .ok .ipDecode ∧
    decode 0b00000000000000000000000000011001#32 = .ok .udpDecode ∧
    decode 0b00000000000000000000000000011010#32 = .ok .udpipDecode := ⟨rfl, rfl, rfl, rfl, rfl, rfl⟩

/-- The DHCP and the options families. -/
theorem test_decode_dhcp_options :
    decode 0b00000000000000000000000000100000#32 = .ok .dhcpDecode ∧
    decode 0b00000000000000000000000000100001#32 = .ok .dhcpEncode ∧
    decode 0b00000000000000000000000000101000#32 = .ok .optAddrs ∧
    decode 0b00000000000000000000000000101001#32 = .ok .optLease := ⟨rfl, rfl, rfl, rfl⟩

/-- The ends of the ranges of R45, and a set reserved bit (K2, K3). -/
theorem test_decode_illegal :
    decode 0x04#32 = .error (.unassigned 0x04) ∧ decode 0x0F#32 = .error (.unassigned 0x0F) ∧
    decode 0x13#32 = .error (.unassigned 0x13) ∧ decode 0x17#32 = .error (.unassigned 0x17) ∧
    decode 0x1B#32 = .error (.unassigned 0x1B) ∧ decode 0x1F#32 = .error (.unassigned 0x1F) ∧
    decode 0x22#32 = .error (.unassigned 0x22) ∧ decode 0x27#32 = .error (.unassigned 0x27) ∧
    decode 0x2A#32 = .error (.unassigned 0x2A) ∧ decode 0xFF#32 = .error (.unassigned 0xFF) ∧
    decode 0x101#32 = .error (.reservedBits 1) ∧ decode 0x80000001#32 = .error (.reservedBits 0x800000) :=
  ⟨rfl, rfl, rfl, rfl, rfl, rfl, rfl, rfl, rfl, rfl, rfl, rfl⟩

/-- The decoder as the opcode table numbers its words. -/
theorem test_decodeTableWord :
    decodeTableWord 32 0x12 = some .udpipBuild ∧ decodeTableWord 8 0x29 = some .optLease ∧
    decodeTableWord 32 0x112 = none ∧ decodeTableWord 40 0x12 = none := ⟨rfl, rfl, rfl, rfl⟩

/-! ### The handshake (section 2.1) -/

/-- K1: NOP from reset, as the first command. -/
theorem test_nop_first_command :
    resOf (step (State.reset.withFetchWord 32 0x00)) = some ([0, 0, 0, 0, 0, 0, 0, 0], 0x00000002) := by decide +kernel

/-- K2 and K3: an unassigned opcode and a set reserved bit end with BADCMD. -/
theorem test_illegal_words_badcmd :
    resOf (step (State.reset.withFetchWord 32 0x04)) = some ([0, 0, 0, 0, 0, 0, 0, 0], 0x00000A06) ∧
    resOf (step (State.reset.withFetchWord 32 0x101)) = some ([0, 0, 0, 0, 0, 0, 0, 0], 0x00000A06) ∧
    (State.reset.withFetchWord 32 0x101).cmdLast = 0x101 := by decide +kernel

/-- K4, K5, K6: a dropped request, and the two acknowledgements. -/
theorem test_drop_and_acknowledge :
    let busy := (State.reset.startCommand 0).requestCommand 1
    busy.status.toWord = 0x00000009 ∧ busy.cmdLast = 0 ∧
    (nextOf (step busy)).map (fun t => t.status.toWord) = some 0x0000000A ∧
    ((nextOf (step busy)).map fun t =>
      (hostAccess t { kind := .write 0x2, bits := 32, off := 0x010 }).status.toWord) = some 0x00000008 := by
  decide +kernel

/-- K6a and K7: ERRCODE outlives an acknowledgement, and a start clears it. -/
theorem test_errcode_until_next_start :
    let bad := { State.reset with status := { Status.reset with done := true, err := true, errCode := .badCmd } }
    (hostAccess bad { kind := .write 0xE, bits := 32, off := 0x010 }).status.toWord = 0x00000A00 ∧
    (hostAccess bad { kind := .write 0, bits := 32, off := 0x00C }).status.toWord = 0x00000001 := by decide +kernel

/-- K8 to K12: CTRL, an unlisted offset, ID, CAP and a window byte beyond `MEM_BYTES`. -/
theorem test_register_reads :
    (hostAccess (hostAccess State.reset { kind := .write 0xFFFFFFFF, bits := 32, off := 0x008 })
      { kind := .read, bits := 32, off := 0x008 }).reads = [1] ∧
    (hostAccess State.reset { kind := .read, bits := 32, off := 0x014 }).reads = [0] ∧
    hostAccess State.reset { kind := .write 5, bits := 32, off := 0x014 } = State.reset ∧
    (hostAccess State.reset { kind := .read, bits := 32, off := 0x000 }).reads = [0x50495341] ∧
    (hostAccess State.reset { kind := .read, bits := 32, off := 0x004 }).reads = [0x1000] ∧
    hostAccess State.reset { kind := .write 0x55, bits := 8, off := 0x11000 } = State.reset := by decide +kernel

/-- K9 and K13: the interrupt line, and an argument written while BUSY. -/
theorem test_irq_and_latch :
    let s := { State.reset with ie := true }
    ((nextOf (step (s.withFetchWord 32 0))).map fun t => t.irq) = some true ∧
    (hostAccess (s.startCommand 1) { kind := .write 7, bits := 32, off := 0x020 }).latch.a0 = 0 := by decide +kernel

/-- R10, R109, R119: an 8-bit register access, a window access while BUSY. -/
theorem test_host_faults :
    (hostAccess State.reset { kind := .read, bits := 8, off := 0x010 }).badAccess = true ∧
    (hostAccess State.reset { kind := .write 1, bits := 32, off := 0x20000 }).badAccess = true ∧
    (hostAccess (State.reset.startCommand 0) { kind := .read, bits := 8, off := 0x10000 }).memWhileBusy = true ∧
    (hostAccess (State.reset.startCommand 0) { kind := .read, bits := 8, off := 0x11000 }).memWhileBusy = false := by
  decide +kernel

/-- R116: a reset discards the pending command. -/
theorem test_reset_step :
    (nextOf (step { State.reset.startCommand 1 with sched := [.reset] })).map
      (fun t => (t.status, t.cmdLast, t.epoch)) = some (Status.reset, 0, 1) := by decide +kernel

/-- A line of program P1 as host accesses (R57, P1's "Host access encoding"). -/
theorem test_run_line :
    expandLine (.run .csum [(0, 0), (1, 20)]) =
      [write32 0x020 0, write32 0x024 0x14, write32 0x00C 0x00000001, .wait] ∧
    expandLine (.wb 0x00A [0xb8, 0x61]) = [write8 0x0A 0xb8, write8 0x0B 0x61] := by decide +kernel

/-! ### Checksum commands (section 2.2) -/

/-- C3. -/
theorem test_csum :
    resOf (exec .csum (pending 0 [0x00, 0x01, 0xf2, 0x03, 0xf4, 0xf5, 0xf6, 0xf7] { l0 with a1 := 8 })) =
      some ([0x220D, 0xDDF2, 0, 0, 0, 0, 0, 0], 0x2) := by decide +kernel

/-- C8, C15 and C16: an odd length, no wrap-around, an empty region at the end. -/
theorem test_csum_corners :
    resOf (exec .csum (pending 0 [0x12, 0x34, 0x56] { l0 with a1 := 3 })) =
      some ([0x97CB, 0x6834, 0, 0, 0, 0, 0, 0], 0x2) ∧
    errOf (exec .csum (pending 0 [] { l0 with a0 := 0xFFFFFFFF, a1 := 1 })) = some .range ∧
    resOf (exec .csum (pending 0 [] { l0 with a0 := 4096 })) = some ([0xFFFF, 0, 0, 0, 0, 0, 0, 0], 0x2) := by
  decide +kernel

/-- C6 and C10, which verify, and C9, which does not. -/
theorem test_csum_verify :
    resOf (exec .csumVerify (pending 0 [0xff, 0xff, 0xff, 0xff] { l0 with a1 := 4 })) =
      some ([1, 0xFFFF, 0, 0, 0, 0, 0, 0], 0x2) ∧
    resOf (exec .csumVerify (pending 0 [0xff, 0xfe, 0x00, 0x01] { l0 with a1 := 4 })) =
      some ([1, 0xFFFF, 0, 0, 0, 0, 0, 0], 0x2) ∧
    resOf (exec .csumVerify (pending 0 [0x80, 0x00, 0x80, 0x00] { l0 with a1 := 4 })) =
      some ([0, 1, 0, 0, 0, 0, 0, 0], 0x2) := by decide +kernel

/-- C17, C19, C20 and C21. -/
theorem test_csum_udp :
    resOf (exec .csumUdp (pending 0 [0x00, 0x43, 0x00, 0x44, 0x00, 0x08, 0x00, 0x00] { addrsA with a1 := 8 })) =
      some ([0xF556, 0x0AA9, 0, 0, 0, 0, 0, 0], 0x2) ∧
    resOf (exec .csumUdp (pending 0 [] l0)) = some ([0xFFEE, 0x11, 0, 0, 0, 0, 0, 0], 0x2) ∧
    errOf (exec .csumUdp (pending 0 [] { l0 with a1 := 0x10000 })) = some .range ∧
    errOf (exec .csumUdp (pending 0 [] { l0 with a1 := 0x10000 } bigMem)) = some .tooLong := by decide +kernel

/-! ### Framer commands (sections 2.3 and 2.4) -/

/-- F1. -/
theorem test_ip_build :
    let r := exec .ipBuild (pending 0 payload { addrsA with a1 := 4, a2 := 0x100, a5 := 0x4011 })
    resOf r = some ([0x18, 0x70D5, 0, 0, 0, 0, 0, 0], 0x2) ∧ memOf r 0x100 24 = some frameF1 := by decide +kernel

/-- F3, F4 and F11: the header in front of its payload, and the two errors. -/
theorem test_ip_build_corners :
    memOf (exec .ipBuild (pending 0x114 payload { addrsA with a0 := 0x114, a1 := 4, a2 := 0x100, a5 := 0x4011 }))
      0x100 24 = some frameF1 ∧
    errOf (exec .ipBuild (pending 0 payload { addrsA with a1 := 4, a2 := 4073 })) = some .range ∧
    errOf (exec .ipBuild (pending 0 [] { l0 with a1 := 0xFFEC } bigMem)) = some .tooLong := by decide +kernel

/-- F5 and F8. -/
theorem test_udp_build :
    memOf (exec .udpBuild (pending 0 [] { addrsA with a2 := 0x200, a6 := 0x00440043 })) 0x200 8 = some datagramF5 ∧
    memOf (exec .udpBuild (pending 0 [0xab] { addrsA with a1 := 1, a2 := 0x200, a6 := 0x00440043 })) 0x200 9 =
      some [0x00, 0x43, 0x00, 0x44, 0x00, 0x09, 0x4a, 0x54, 0xab] := by decide +kernel

/-- F6 and F7: a computed checksum of zero, with and without the substitution. -/
theorem test_udp_build_zero :
    let l := { addrsA with a1 := 2, a2 := 0x200, a6 := 0x00440043 }
    resOf (exec .udpBuild (pending 0 [0xf5, 0x52] l)) = some ([10, 0, 0, 0, 0, 0, 0, 0], 0x2) ∧
    resOf (exec .udpBuild (pending 0 [0xf5, 0x52] l { Params.defaults with udpTxZeroSubst := true })) =
      some ([10, 0xFFFF, 0, 0, 0, 0, 0, 0], 0x2) := by decide +kernel

/-- F9 and F10. -/
theorem test_udpip_build :
    let r := exec .udpipBuild (pending 0 payload argsF9)
    resOf r = some ([0x20, 0xB979, 0xE05D, 0, 0, 0, 0, 0], 0x2) ∧ memOf r 0x300 32 = some frameF9 ∧
    memOf (exec .udpipBuild (pending 0 payload { argsF9 with a5 := 0x80FF })) 0x300 32 = some frameF9 := by
  decide +kernel

/-- F13. -/
theorem test_ip_decode :
    resOf (exec .ipDecode (pending 0x100 frameF1 { l0 with a0 := 0x100, a1 := 24 })) =
      some ([0x114, 4, 0x00054011, 0x0A000001, 0xFFFFFFFF, 0, 0x70D5, 0x18], 0x2) := by decide +kernel

/-- F15 to F21: every check of R79. -/
theorem test_ip_decode_errors :
    let run := fun (i : Nat) (v : Byte) => errOf (exec .ipDecode (pending 0 (frameF1.set i v) { l0 with a1 := 24 }))
    errOf (exec .ipDecode (pending 0 frameF1 { l0 with a1 := 19 })) = some .short ∧
    run 0 0x65 = some .badHdr ∧ run 0 0x44 = some .badHdr ∧ run 0 0x4f = some .short ∧ run 3 0x13 = some .badHdr ∧
    run 3 0x19 = some .short ∧ run 11 0xd4 = some .csum ∧ run 23 0x6f = some .noError := by decide +kernel

/-- F24, with RES3 to RES5 kept. -/
theorem test_udp_decode :
    resOf (exec .udpDecode
      { pending 0x200 datagramF5 { addrsA with a0 := 0x200, a1 := 8 } with
        res := { r0 := 1, r1 := 2, r2 := 3, r3 := 4, r4 := 5, r5 := 6, r6 := 7, r7 := 8 } }) =
      some ([0x208, 0, 0x00440043, 4, 5, 6, 0xF556, 8], 0x2) := by decide +kernel

/-- F25 to F28 and F30: every check of R80, and the received zero checksum. -/
theorem test_udp_decode_errors :
    let run := fun (i : Nat) (v : Byte) (p : Params) =>
      errOf (exec .udpDecode (pending 0 (datagramF5.set i v) { addrsA with a1 := 8 } p))
    errOf (exec .udpDecode (pending 0 datagramF5 { addrsA with a1 := 8, a3 := 0x0A000002 })) = some .csum ∧
    errOf (exec .udpDecode (pending 0 datagramF5 { addrsA with a1 := 7 })) = some .short ∧
    run 5 7 Params.defaults = some .badHdr ∧ run 5 9 Params.defaults = some .short ∧
    errOf (exec .udpDecode (pending 0 [0x00, 0x43, 0x00, 0x44, 0x00, 0x08, 0x00, 0x00] { addrsA with a1 := 8 }
      { Params.defaults with udpRxZeroAccept := true })) = some .noError := by decide +kernel

/-- F31. -/
theorem test_udpip_decode :
    resOf (exec .udpipDecode (pending 0x300 frameF9 { l0 with a0 := 0x300, a1 := 32 })) =
      some ([0x31C, 4, 0x00440043, 0xC0A80001, 0xC0A80002, 0x8011, 0xE05DB979, 0x000C0020], 0x2) := by decide +kernel

/-- F32 to F34, F39 and F40. -/
theorem test_udpip_decode_errors :
    let run := fun (d : List Byte) => errOf (exec .udpipDecode (pending 0 d { l0 with a1 := 32 }))
    run (((frameF9.set 9 6).set 10 0xb9).set 11 0x84) = some .proto ∧ run (frameF9.set 31 0xee) = some .csum ∧
    run (frameF9.set 25 0x10) = some .short ∧ run (frameF9.set 25 0x08) = some .csum ∧
    run (frameF9.set 25 0x04) = some .badHdr := by decide +kernel

/-! ### Option records (section 2.5) -/

/-- O1 and O3. -/
theorem test_opt_addrs :
    let src := [0x0a, 0x00, 0x00, 0x01, 0x0a, 0x00, 0x00, 0x02]
    memOf (exec .optAddrs (pending 0x200 src { l0 with a0 := 0x200, a1 := 1, a2 := 0x300, a3 := 3 })) 0x300 6 =
      some [0x03, 0x04, 0x0a, 0x00, 0x00, 0x01] ∧
    memOf (exec .optAddrs (pending 0x200 src { l0 with a0 := 0x200, a1 := 2, a2 := 0x300, a3 := 6 })) 0x300 10 =
      some [0x06, 0x08, 0x0a, 0x00, 0x00, 0x01, 0x0a, 0x00, 0x00, 0x02] := by decide +kernel

/-- O6 to O9. -/
theorem test_opt_addrs_errors :
    let run := fun (l : ArgFile) => errOf (exec .optAddrs (pending 0 [] l))
    run { l0 with a1 := 1, a3 := 2 } = some .arg ∧ run { l0 with a1 := 1, a3 := 0x103 } = some .arg ∧
    run { l0 with a1 := 0, a3 := 3 } = some .arg ∧ run { l0 with a1 := 64, a3 := 3 } = some .arg ∧
    run { l0 with a1 := 2, a3 := 1 } = some .arg ∧ run { l0 with a0 := 4092, a1 := 2, a3 := 3 } = some .range ∧
    run { l0 with a1 := 1, a2 := 4091, a3 := 3 } = some .range ∧
    run { l0 with a0 := 0xFFFFFFFF, a1 := 64, a3 := 3 } = some .arg := by decide +kernel

/-- O10. -/
theorem test_opt_lease :
    let r := exec .optLease (pending 0 [] { l0 with a2 := 0x100, a3 := 3600 })
    resOf r = some ([18, 1800, 2970, 0, 0, 0, 0, 0], 0x2) ∧
    memOf r 0x100 18 = some [0x33, 0x04, 0x00, 0x00, 0x0e, 0x10, 0x3a, 0x04, 0x00, 0x00, 0x07, 0x08,
      0x3b, 0x04, 0x00, 0x00, 0x0b, 0x9a] := by decide +kernel

/-- O14, O18 and O19. -/
theorem test_opt_lease_corners :
    resOf (exec .optLease (pending 0 [] { l0 with a3 := 39 })) = some ([18, 19, 32, 0, 0, 0, 0, 0], 0x2) ∧
    resOf (exec .optLease (pending 0 [] { l0 with a3 := 0xFFFFFFFF })) =
      some ([18, 0x7FFFFFFF, 0xD3333332, 0, 0, 0, 0, 0], 0x2) ∧
    errOf (exec .optLease (pending 0 [] { l0 with a2 := 4079 })) = some .range ∧
    errOf (exec .optLease (pending 0 [] { l0 with a2 := 4078 })) = some .noError := by decide +kernel

/-! ### DHCP (sections 2.6 and 2.7) -/

/-- D15: three option-53 records, the message type from the first of length 1. -/
theorem test_dhcp_decode :
    let d := messageB 6 0x63 ++ [0x35, 0x02, 0x05, 0x05, 0x35, 0x01, 0x03, 0x35, 0x01, 0x05, 0xff]
    let r := exec .dhcpDecode (pending 0 d { l0 with a1 := 251, a2 := 0x400 })
    resOf r = some ([0x00060101, 0x12345678, 0, 0, 0, 0, 0, 0x00030303], 0x2) ∧
    memOf r 0x400 12 = some [0x35, 0x02, 0x00, 0xf2, 0x35, 0x01, 0x00, 0xf6, 0x35, 0x01, 0x00, 0xf9] := by
  decide +kernel

/-- D2 to D7, D10, D11, D16, D17 and D19: the checks in order, and the two readings of tag 0. -/
theorem test_dhcp_decode_corners :
    let err := fun (d : List Byte) (n tdst : Word) =>
      errOf (exec .dhcpDecode (pending 0 d { l0 with a1 := n, a2 := tdst }))
    let r7 := fun (p : Params) =>
      (nextOf (exec .dhcpDecode (pending 0 (messageB 6 0x63 ++ [0x00, 0x00, 0x35, 0x01, 0x01, 0xff])
        { l0 with a1 := 246, a2 := 0x400 } p))).map (fun t => t.res.r7)
    err (messageB 6 0x63) 239 0x400 = some .short ∧ err (messageB 17 0x63) 240 0x400 = some .hlen ∧
    err (messageB 16 0x63) 240 0x400 = some .noError ∧ err (messageB 6 0x64) 240 0x400 = some .cookie ∧
    err (messageB 17 0x00) 240 0x400 = some .hlen ∧ err (messageB 17 0x00) 239 0x400 = some .short ∧
    err (messageB 6 0x63 ++ [0x03]) 241 0x400 = some .optOverrun ∧
    err (messageB 6 0x63 ++ [0x03, 0x04, 0x00, 0x00, 0x0a]) 245 0x400 = some .optOverrun ∧
    err (messageB 6 0x63 ++ [0x35, 0x01, 0x01, 0xff]) 244 4093 = some .range ∧
    r7 Params.defaults = some 0x00020301 ∧ r7 { Params.defaults with padMode := .rfc } = some 0x00010301 := by
  decide +kernel

/-- E1. -/
theorem test_dhcp_encode :
    memOf (exec .dhcpEncode (pending 0 [] (argsE 1))) 0 244 =
      some (messageB 6 0x63 ++ [0x35, 0x01, 0x01, 0xff]) := by decide +kernel

/-- E2 and E8 (the `op` byte), E9 and E10. -/
theorem test_dhcp_encode_corners :
    memOf (exec .dhcpEncode (pending 0 [] (argsE 2))) 0 4 = some [0x02, 0x01, 0x06, 0x00] ∧
    memOf (exec .dhcpEncode (pending 0 [] (argsE 255))) 0 4 = some [0x01, 0x01, 0x06, 0x00] ∧
    errOf (exec .dhcpEncode (pending 0 [] { argsE 1 with a2 := 4096 - 243 })) = some .range ∧
    errOf (exec .dhcpEncode (pending 0 [] { argsE 1 with a0 := 4000, a1 := 97 })) = some .range := by decide +kernel

/-! ### Witnesses: states and operands that meet the hypotheses of each statement that has some

Where a hypothesis is a bound, the witness stands at the bound. -/

/-- A result that answers a state with a decidable property. -/
theorem reaches {r : Result} {P : State → Prop} [DecidablePred P]
    (h : (nextOf r).any (fun t => decide (P t)) = true) : ∃ t, r = .next t ∧ P t := by
  cases r with
  | next t => exact ⟨t, rfl, by simpa [nextOf] using h⟩
  | fault f => simp [nextOf] at h
  | refused f => simp [nextOf] at h

/-- A scan that finds records with a decidable property. -/
theorem finds {x : Except ErrCode OptScan} {P : OptScan → Prop} [DecidablePred P]
    (h : x.toOption.any (fun r => decide (P r)) = true) : ∃ r, x = .ok r ∧ P r := by
  cases x with
  | ok r => exact ⟨r, rfl, by simpa [Except.toOption] using h⟩
  | error c => simp [Except.toOption] at h

/-- A scan that stops. -/
theorem stops {x : Except ErrCode OptScan} (h : x.toOption = none) : ∃ c, x = .error c := by
  cases x with
  | ok r => simp [Except.toOption] at h
  | error c => exact ⟨c, rfl⟩

/-- A state with a pending command word and nothing else. -/
def waiting (w : Word) : State := State.reset.startCommand w

theorem witness_DecodeAndEncodeAgree : decode 0x29#32 = .ok .optLease := rfl

/-- The ends of each range of R45. -/
theorem witness_IllegalWords :
    (∀ n ∈ [0x04, 0x0F, 0x13, 0x17, 0x1B, 0x1F, 0x22, 0x27, 0x2A, 0xFF, 0x100, 0xFFFFFFFF],
      IllegalWord (BitVec.ofNat 32 n)) ∧
    (∀ n ∈ [0x03, 0x10, 0x12, 0x18, 0x1A, 0x20, 0x21, 0x28, 0x29], ¬ IllegalWord (BitVec.ofNat 32 n)) ∧
    State.reset.status.busy = false ∧ (waiting 0x7F).cmdLast = 0x7F ∧ mover (waiting 0x7F) = some .engine := by
  dsimp only [IllegalWord]
  exact ⟨by decide, by decide, rfl, rfl, rfl⟩

theorem witness_StepRunsDecodedCommand :
    mover (waiting 1) = some .engine ∧ decode (waiting 1).cmdLast = .ok .csum ∧
    mover (waiting 0x7F) = some .engine ∧ decode (waiting 0x7F).cmdLast = .error (.unassigned 0x7F) :=
  ⟨rfl, rfl, rfl, rfl⟩

theorem witness_HostStep :
    mover { waiting 0 with script := [read32 0x010, .wait], sched := [.host] } = some .host ∧
    mover { State.reset with script := [.wait] } = some .host ∧
    mover { waiting 0 with script := [.wait], sched := [.host] } = some .host := by decide

theorem witness_PerformStepCompletes : mover (waiting 0x1A) = some .engine := rfl

theorem witness_StepStopsExactlyWhenIdle :
    State.reset.status.busy = false ∧ State.reset.script = [] ∧ Slot.reset ∉ State.reset.sched := by decide

theorem witness_CommandRequests : State.reset.status.busy = false ∧ (waiting 0).status.busy = true := ⟨rfl, rfl⟩

theorem witness_CommandFrame :
    ∃ t, exec .udpDecode (pending 0x200 datagramF5 { addrsA with a0 := 0x200, a1 := 8 }) = .next t ∧
      (t.status.err = false ∧ (3 : Fin 8) ∉ namedRes .udpDecode ∧ (4 : Fin 8) ∉ namedRes .udpDecode) :=
  reaches (by decide +kernel)

theorem witness_ErrorsArePrecise :
    (∃ t, exec .csum (pending 0 [] { l0 with a0 := 4096, a1 := 1 }) = .next t ∧ t.status.err = true) ∧
    (∃ t, performStep (waiting 0x100) = .next t ∧ t.status.err = true) :=
  ⟨reaches (by decide +kernel), reaches (by decide +kernel)⟩

theorem witness_ResultsAndLatch :
    (∃ t, step (waiting 1) = .next t ∧ t.res ≠ (waiting 1).res) ∧
    (∃ t, step { State.reset with args := { l0 with a0 := 7 }, script := [write32 0x00C 1] } = .next t ∧
      (t.latch ≠ l0 ∧ t.cmdLast ≠ 0)) :=
  ⟨reaches (by decide +kernel), reaches (by decide +kernel)⟩

theorem witness_CommandsThatStoreNothing :
    (∃ t, exec .ipDecode (pending 0 frameF1 { l0 with a1 := 24 }) = .next t ∧
      (Instr.ipDecode ∈ [Instr.nop, .csum, .csumVerify, .csumUdp, .ipDecode, .udpDecode, .udpipDecode] ∧
        t.status.err = false)) ∧
    (∃ t, exec .ipBuild (pending 0 [] { l0 with a2 := 4077 }) = .next t ∧ t.status.err = true) :=
  ⟨reaches (by decide +kernel), reaches (by decide +kernel)⟩

/-- Each storing form completes, at a region whose neighbours are the bytes before it and behind it. -/
theorem witness_StoringCommands :
    (∃ t, exec .ipBuild (pending 0 payload { addrsA with a1 := 4, a2 := 0x100 }) = .next t ∧
      (t.status.err = false ∧ (0xFF : Nat) < (0x100 : Word).toNat ∧ (0x100 : Word).toNat + (20 + 4) ≤ 0x118)) ∧
    (∃ t, exec .udpBuild (pending 0 payload { addrsA with a1 := 4, a2 := 0x100 }) = .next t ∧
      (t.status.err = false ∧ (0x100 : Word).toNat + (8 + 4) ≤ 0x10C)) ∧
    (∃ t, exec .udpipBuild (pending 0 payload argsF9) = .next t ∧
      (t.status.err = false ∧ argsF9.a2.toNat + (28 + argsF9.a1.toNat) ≤ 0x320)) ∧
    (∃ t, exec .optAddrs (pending 0 payload { l0 with a1 := 1, a2 := 0x100, a3 := 3 }) = .next t ∧
      (t.status.err = false ∧ (0x100 : Word).toNat + (2 + 4 * 1) ≤ 0x106)) ∧
    (∃ t, exec .optLease (pending 0 [] { l0 with a2 := 0x100 }) = .next t ∧
      (t.status.err = false ∧ (0x100 : Word).toNat + 18 ≤ 0x112)) ∧
    (∃ t, exec .dhcpEncode (pending 0 [] { argsE 1 with a2 := 0x100 }) = .next t ∧
      (t.status.err = false ∧ (0x100 : Word).toNat + (244 + 0) ≤ 0x1F4)) :=
  ⟨reaches (by decide +kernel), reaches (by decide +kernel), reaches (by decide +kernel),
    reaches (by decide +kernel), reaches (by decide +kernel), reaches (by decide +kernel)⟩

/-- The message of vector D1, its table at 0x400. -/
def stateD1 : State :=
  pending 0 (messageB 6 0x63 ++ [0x35, 0x01, 0x01, 0xff]) { l0 with a1 := 244, a2 := 0x400 }

theorem witness_StoringCommands_dhcpDecode :
    (∃ t, exec .dhcpDecode stateD1 = .next t ∧ t.status.err = false) ∧
    ∃ r, scanOptions stateD1.params.padMode (stateD1.memRead stateD1.latch.a0.toNat stateD1.latch.a1.toNat)
        stateD1.latch.a0.toNat = .ok r ∧ (4 = 4 * r.entries.length ∧ stateD1.latch.a2.toNat + 4 ≤ 0x404) :=
  ⟨reaches (by decide +kernel), finds (by decide +kernel)⟩

/-- The bounds of CSUM and CSUM_VERIFY: the last byte of `MEM`, the empty region at its end, one byte beyond. -/
theorem witness_Csum :
    let ok := { l0 with a0 := 4095, a1 := 1 }
    let empty := { l0 with a0 := 4096 }
    let bad := { l0 with a0 := 4096, a1 := 1 }
    ok.a0.toNat + ok.a1.toNat ≤ Params.defaults.memBytes ∧ empty.a0.toNat + empty.a1.toNat ≤ Params.defaults.memBytes ∧
    Params.defaults.memBytes < bad.a0.toNat + bad.a1.toNat := by decide

theorem witness_CsumUdp :
    let ok := { l0 with a1 := 0xFFFF }
    let long := { l0 with a1 := 0x10000 }
    let bad := { l0 with a0 := 1, a1 := 0x10000 }
    (ok.a0.toNat + ok.a1.toNat ≤ bigMem.memBytes ∧ ok.a1.toNat ≤ 0xFFFF) ∧
    (long.a0.toNat + long.a1.toNat ≤ bigMem.memBytes ∧ 0xFFFF < long.a1.toNat) ∧
    bigMem.memBytes < bad.a0.toNat + bad.a1.toNat := by decide

/-- A pending state with a source, a length and a destination, in the largest buffer. -/
def region (src n dst : Nat) : State :=
  pending 0 [] { l0 with a0 := BitVec.ofNat 32 src, a1 := BitVec.ofNat 32 n, a2 := BitVec.ofNat 32 dst } bigMem

/-- The end of the input region, and of an output region of `h` more bytes. -/
def regionEnds (s : State) (h : Nat) : Nat × Nat :=
  (s.latch.a0.toNat + s.latch.a1.toNat, s.latch.a2.toNat + (h + s.latch.a1.toNat))

/-- The clauses of IP_BUILD (header 20), UDP_BUILD (8) and UDPIP_BUILD (28) at their bounds: success with the longest
datagram at the end of `MEM`, RANGE of the input by one byte, TOOLONG by one byte, RANGE of the output by one byte. -/
theorem witness_Builders :
    ∀ h ∈ [20, 8, 28],
      (let s := region (h + 1) (0xFFFF - h) 1
       (regionEnds s h).1 ≤ s.params.memBytes ∧ h + s.latch.a1.toNat ≤ 0xFFFF ∧
         (regionEnds s h).2 ≤ s.params.memBytes) ∧
      (let s := region 0x10000 1 0
       s.params.memBytes < (regionEnds s h).1) ∧
      (let s := region h (0x10000 - h) 0
       (regionEnds s h).1 ≤ s.params.memBytes ∧ 0xFFFF < h + s.latch.a1.toNat) ∧
      (let s := region 0 (0xFFFF - h) 2
       (regionEnds s h).1 ≤ s.params.memBytes ∧ h + s.latch.a1.toNat ≤ 0xFFFF ∧
         s.params.memBytes < (regionEnds s h).2) := by decide +kernel

/-- The IPv4 checks of R79 pass on F1. -/
theorem accepts_F1 : IpAccepts frameF1 :=
  ⟨by decide, by decide, by decide, by decide, by decide, by decide, by decide +kernel⟩

/-- The IPv4 checks of R79 pass on F9. -/
theorem accepts_F9 : IpAccepts frameF9 :=
  ⟨by decide, by decide, by decide, by decide, by decide, by decide, by decide +kernel⟩

/-- The bytes a decoder reads. -/
def dataOf (s : State) : List Byte := s.memRead s.latch.a0.toNat s.latch.a1.toNat

theorem witness_IpDecode :
    (dataOf (pending 4072 frameF1 { l0 with a0 := 4072, a1 := 24 }) = frameF1 ∧ 4072 + 24 ≤ Params.defaults.memBytes ∧
      IpAccepts frameF1) ∧
    ((frameF1.take 19).length < 20) ∧
    (20 ≤ (frameF1.take 20).length ∧ byteAt (frameF1.set 0 0x65) 0 / 16 ≠ 4 ∧ byteAt (frameF1.set 0 0x44) 0 % 16 < 5) ∧
    (frameF1.length < 4 * (byteAt (frameF1.set 0 0x47) 0 % 16)) ∧
    (4 * (byteAt (frameF1.set 0 0x46) 0 % 16) ≤ frameF1.length ∧ be16 (frameF1.set 3 19) 2 < 20) ∧
    (20 ≤ be16 (frameF1.set 3 25) 2 ∧ frameF1.length < be16 (frameF1.set 3 25) 2) ∧
    fold (sum16 ((frameF1.set 11 0xd4).take 20)) ≠ 0xFFFF :=
  ⟨⟨by decide +kernel, by decide, accepts_F1⟩, by decide, by decide, by decide, by decide, by decide,
    by decide +kernel⟩

theorem witness_UdpDecode :
    (dataOf (pending 4088 datagramF5 { addrsA with a0 := 4088, a1 := 8 }) = datagramF5 ∧
      4088 + 8 ≤ Params.defaults.memBytes ∧ UdpAccepts false datagramF5 addrsA.a3 addrsA.a4) ∧
    ((datagramF5.take 7).length < 8) ∧ (8 ≤ datagramF5.length ∧ be16 (datagramF5.set 5 7) 4 < 8) ∧
    (8 ≤ be16 (datagramF5.set 5 9) 4 ∧ datagramF5.length < be16 (datagramF5.set 5 9) 4) ∧
    (8 ≤ be16 datagramF5 4 ∧ be16 datagramF5 4 ≤ 8 ∧ ¬ UdpVerifies false datagramF5 0x0A000002 addrsA.a4) := by
  refine ⟨⟨by decide +kernel, by decide, by decide, by decide, by decide, ?_⟩, by decide, by decide, by decide,
    by decide, by decide, ?_⟩ <;> unfold UdpVerifies <;> decide +kernel

theorem witness_UdpipDecode :
    let u := fun (d : List Byte) => (d.take (be16 d 2)).drop (4 * (byteAt d 0 % 16))
    let udp := fun (d : List Byte) => UdpVerifies false (u d) (BitVec.ofNat 32 (be32 d 12)) (BitVec.ofNat 32 (be32 d 16))
    (dataOf (pending 4064 frameF9 { l0 with a0 := 4064, a1 := 32 }) = frameF9 ∧ IpAccepts frameF9 ∧
      byteAt frameF9 9 = 17 ∧ 8 ≤ (u frameF9).length ∧ 8 ≤ be16 (u frameF9) 4 ∧
      be16 (u frameF9) 4 ≤ (u frameF9).length ∧ udp frameF9) ∧
    (∃ t, exec .ipDecode (pending 0 frameF9 { l0 with a1 := 19 }) = .next t ∧ t.status.errCode = .short) ∧
    (let d := ((frameF9.set 9 6).set 10 0xb9).set 11 0x84; IpAccepts d ∧ byteAt d 9 ≠ 17) ∧
    (let d := ((frameF9.set 3 27).set 11 0x7e); IpAccepts d ∧ byteAt d 9 = 17 ∧ (u d).length < 8) ∧
    (let d := frameF9.set 25 7; IpAccepts d ∧ 8 ≤ (u d).length ∧ be16 (u d) 4 < 8) ∧
    (let d := frameF9.set 25 13; IpAccepts d ∧ 8 ≤ be16 (u d) 4 ∧ (u d).length < be16 (u d) 4) ∧
    (let d := frameF9.set 25 8; IpAccepts d ∧ 8 ≤ be16 (u d) 4 ∧ be16 (u d) 4 ≤ (u d).length ∧ ¬ udp d) := by
  have ip : ∀ d : List Byte, d.length = 32 → byteAt d 0 = 0x45 → 20 ≤ be16 d 2 → be16 d 2 ≤ 32 →
      fold (sum16 (d.take 20)) = 0xFFFF → IpAccepts d := by
    intro d h1 h2 h3 h4 h5
    constructor <;> simp [h1, h2, h3, h4, h5]
  refine ⟨⟨by decide +kernel, accepts_F9, by decide, by decide, by decide, by decide, ?_⟩,
    reaches (by decide +kernel),
    ⟨ip _ (by decide) (by decide) (by decide) (by decide) (by decide +kernel), by decide⟩,
    ⟨ip _ (by decide) (by decide) (by decide) (by decide) (by decide +kernel), by decide, by decide⟩,
    ⟨ip _ (by decide) (by decide) (by decide) (by decide) (by decide +kernel), by decide, by decide⟩,
    ⟨ip _ (by decide) (by decide) (by decide) (by decide) (by decide +kernel), by decide, by decide⟩,
    ⟨ip _ (by decide) (by decide) (by decide) (by decide) (by decide +kernel), by decide, by decide, ?_⟩⟩ <;>
    unfold UdpVerifies <;> decide +kernel

/-- The largest count at the end of `MEM`, the subnet mask, RANGE of the input and of the output by a byte, and each
reason for ARG. -/
theorem witness_OptAddrs :
    let l := { l0 with a0 := 3844, a1 := 63, a2 := 3842, a3 := 6 }
    let tag := fun (m : ArgFile) => m.a3.extractLsb' 0 8
    let end0 := fun (m : ArgFile) => m.a0.toNat + 4 * m.a1.toNat
    let end2 := fun (m : ArgFile) => m.a2.toNat + (2 + 4 * m.a1.toNat)
    (l.a3.extractLsb' 8 24 = 0 ∧ tag l = 6 ∧ 1 ≤ l.a1.toNat ∧ l.a1.toNat ≤ 63 ∧
      end0 l ≤ Params.defaults.memBytes ∧ end2 l ≤ Params.defaults.memBytes) ∧
    Params.defaults.memBytes < end0 { l with a0 := 3845 } ∧ Params.defaults.memBytes < end2 { l with a2 := 3843 } ∧
    (tag { l with a1 := 1, a3 := 1 } = 1 ∧ ({ l with a1 := 1, a3 := 1 } : ArgFile).a1.toNat = 1) ∧
    ({ l with a3 := 0x103 } : ArgFile).a3.extractLsb' 8 24 ≠ 0 ∧
    ¬ (tag { l with a3 := 2 } = 1 ∨ tag { l with a3 := 2 } = 3 ∨ tag { l with a3 := 2 } = 4 ∨
      tag { l with a3 := 2 } = 6) ∧
    ({ l with a1 := 0 } : ArgFile).a1.toNat = 0 ∧ 63 < ({ l with a1 := 64 } : ArgFile).a1.toNat ∧
    (tag { l with a1 := 2, a3 := 1 } = 1 ∧ ({ l with a1 := 2, a3 := 1 } : ArgFile).a1.toNat ≠ 1) := by decide

theorem witness_OptLease :
    ({ l0 with a2 := 4078 } : ArgFile).a2.toNat + 18 ≤ Params.defaults.memBytes ∧
    Params.defaults.memBytes < ({ l0 with a2 := 4079 } : ArgFile).a2.toNat + 18 := by decide

theorem witness_DhcpDecode :
    let cookie := [0x63, 0x82, 0x53, 0x63]
    let b := messageB 6 0x63
    (Params.defaults.memBytes < 4096 + 1 ∧ 3856 + 240 ≤ Params.defaults.memBytes) ∧
    (b.take 239).length < 240 ∧ (240 ≤ (messageB 17 0x63).length ∧ 16 < byteAt (messageB 17 0x63) 2) ∧
    (byteAt (messageB 16 0x64) 2 ≤ 16 ∧ ((messageB 16 0x64).drop 236).take 4 ≠ cookie) ∧
    ((b ++ [0x03]).drop 236).take 4 = cookie ∧ (∃ c, scanOptions .triple (b ++ [0x03]) 0 = .error c) ∧
    (∃ r, scanOptions .triple (b ++ [0x35, 0x01, 0x01, 0xff]) 0 = .ok r ∧
      (4092 + 4 * r.entries.length ≤ Params.defaults.memBytes ∧
        Params.defaults.memBytes < 4093 + 4 * r.entries.length)) :=
  ⟨by decide, by decide +kernel, by decide +kernel, by decide +kernel, by decide +kernel, stops (by decide +kernel),
    finds (by decide +kernel)⟩

theorem witness_DhcpEncode :
    let l := { l0 with a0 := 4000, a1 := 96, a2 := 3756 }
    let end0 := fun (m : ArgFile) => m.a0.toNat + m.a1.toNat
    let end2 := fun (m : ArgFile) => m.a2.toNat + (244 + m.a1.toNat)
    (end0 l ≤ Params.defaults.memBytes ∧ end2 l ≤ Params.defaults.memBytes) ∧
    Params.defaults.memBytes < end0 { l with a0 := 4001 } ∧
    (end0 { l with a2 := 3757 } ≤ Params.defaults.memBytes ∧
      Params.defaults.memBytes < end2 { l with a2 := 3757 }) := by decide

theorem witness_OptionScan :
    240 ≤ (messageB 6 0x63).length ∧
    (∃ r, scanOptions .triple (messageB 6 0x63) 0 = .ok r ∧ r.entries = []) ∧
    (∃ r, scanOptions .rfc (messageB 6 0x63 ++ [0x00, 0x35, 0x01, 0x03]) 0 = .ok r ∧ r.entries.length = 1) :=
  ⟨by decide +kernel, finds (by decide +kernel), finds (by decide +kernel)⟩

/-- The header of vector C11, its checksum field at bytes 10 and 11. -/
def headerC11 : List Byte :=
  [0x45, 0x00, 0x00, 0x73, 0x00, 0x00, 0x40, 0x00, 0x40, 0x11, 0x00, 0x00, 0xc0, 0xa8, 0x00, 0x01,
   0xc0, 0xa8, 0x00, 0xc7]

theorem witness_FoldRule : headerC11.length ≤ 65536 + 12 := by decide

theorem witness_ChecksumRoundTrip :
    2 * 5 + 1 < headerC11.length ∧ headerC11.getD (2 * 5) 0 = 0 ∧ headerC11.getD (2 * 5 + 1) 0 = 0 ∧
    (19 < headerC11.length ∧ 7 < 8) ∧ 2 * 0 + 1 < ([0, 0] : List Byte).length := by decide

theorem witness_IpFrameRoundTrip :
    ∃ t, exec .ipBuild (pending 0 payload { addrsA with a1 := 4, a2 := 0x100, a5 := 0x4011 }) = .next t ∧
      (t.status.err = false ∧ ({ l0 with a0 := 0x100, a1 := 24 } : ArgFile).a0 = 0x100 ∧ (24 : Word) = t.res.r0) :=
  reaches (by decide +kernel)

theorem witness_UdpipFrameRoundTrip :
    ∃ t, exec .udpipBuild (pending 0 payload argsF9) = .next t ∧
      (t.status.err = false ∧ ({ l0 with a0 := 0x300, a1 := 32 } : ArgFile).a0 = argsF9.a2 ∧ (32 : Word) = t.res.r0) :=
  reaches (by decide +kernel)

/-- The last bit of F9's payload, flipped. -/
theorem witness_UdpipFrameFlip :
    ∃ t f : State, exec .udpipBuild (pending 0 payload argsF9) = .next t ∧ t.status.err = false ∧
      f.params = Params.defaults ∧ f.latch.a0 = argsF9.a2 ∧ f.latch.a1 = t.res.r0 ∧ 31 < 28 + argsF9.a1.toNat ∧
      (20 ≤ 31 → Params.defaults.udpRxZeroAccept = false) ∧
      Stored t f (argsF9.a2.toNat + 31) [t.readByte (argsF9.a2.toNat + 31) ^^^ BitVec.twoPow 8 7] := by
  obtain ⟨t, ht, he, hr, hp⟩ : ∃ t, exec .udpipBuild (pending 0 payload argsF9) = .next t ∧
      (t.status.err = false ∧ (32 : Word) = t.res.r0 ∧ t.params = Params.defaults) := reaches (by decide +kernel)
  let flipped := [t.readByte (argsF9.a2.toNat + 31) ^^^ BitVec.twoPow 8 7]
  refine ⟨t, { t with mem := Memory.store t.mem (argsF9.a2.toNat + 31) flipped, latch := { l0 with a0 := 0x300, a1 := 32 } },
    ht, he, hp, rfl, hr, by decide, fun _ => rfl, fun a => ?_⟩
  exact (State.readByte_congr rfl rfl a).trans (State.readByte_store t _ flipped a)

/-- Two records, one of them empty, and a table that ends with `MEM`. -/
theorem witness_DhcpRoundTrip :
    let recs : List (Byte × List Byte) := [(3, [0x0a, 0x00, 0x00, 0x01]), (53, [])]
    let s := pending 0x100 (recs.flatMap optRecord) { argsE 2 with a0 := 0x100, a1 := 8, a2 := 0x200 }
    let l := { l0 with a0 := 0x200, a1 := 252, a2 := 4084 }
    s.params.wellFormed = true ∧
    (∃ t, exec .dhcpEncode s = .next t ∧ (t.status.err = false ∧ l.a1 = t.res.r0)) ∧
    s.memRead s.latch.a0.toNat s.latch.a1.toNat = recs.flatMap optRecord ∧
    (∀ r ∈ recs, r.2.length ≤ 255 ∧ r.1 ≠ 255 ∧ ¬ (r.1 = 53 ∧ r.2.length = 1) ∧ (PadMode.rfc = .rfc → r.1 ≠ 0)) ∧
    l.a0 = s.latch.a2 ∧ l.a2.toNat + 4 * (recs.length + 1) ≤ s.params.memBytes :=
  ⟨by decide, reaches (by decide +kernel), by decide +kernel, by decide, by decide, by decide⟩

theorem witness_OutcomeDependsOnlyOnInputs :
    SameInputs (waiting 1) { waiting 1 with args := argsF9, ie := true } ∧
    (∃ t, exec .csum (waiting 1) = .next t ∧ t.status.err = false) ∧
    (∃ t, exec .csum { waiting 1 with args := argsF9, ie := true } = .next t ∧ t.status.err = false) :=
  ⟨⟨rfl, rfl, fun _ _ => rfl⟩, reaches (by decide +kernel), reaches (by decide +kernel)⟩

theorem witness_BufferWindow :
    Params.defaults.wellFormed = true ∧ 0 < Params.defaults.memBytes ∧ 4095 < Params.defaults.memBytes ∧
    State.reset.status.busy = false ∧ (waiting 0).status.busy = true := by decide

/-- The ends of each range of unlisted offsets, and of the window beyond `MEM_BYTES`. -/
theorem witness_UnlistedAccesses :
    (∀ off ∈ [0x014, 0x01C, 0x04C, 0x05C, 0x080, 0xFFFC],
      off % 4 = 0 ∧ ((0x014 ≤ off ∧ off ≤ 0x01C) ∨ (0x04C ≤ off ∧ off ≤ 0x05C) ∨ (0x080 ≤ off ∧ off ≤ 0x0FFFC))) ∧
    Params.defaults.memBytes ≤ 4096 ∧ Params.defaults.memBytes ≤ 0xFFFF ∧ 0xFFFF < 0x10000 := by decide

/-- Accesses on both sides of each bound of R10, as pairs of width and offset. -/
theorem witness_RefusedAccesses :
    (∀ x ∈ [(8, 0x0), (16, 0x0), (32, 0x1), (32, 0xFFFE), (8, 0xFFFF), (32, 0x10000), (16, 0x1FFFF), (8, 0x20000),
        (32, 0x20000)],
      (x.2 < 0x10000 ∧ (x.1 ≠ 32 ∨ x.2 % 4 ≠ 0)) ∨ (0x10000 ≤ x.2 ∧ x.2 < 0x20000 ∧ x.1 ≠ 8) ∨ 0x20000 ≤ x.2) ∧
    (∀ x ∈ [(32, 0x0), (32, 0xFFFC), (8, 0x10000), (8, 0x1FFFF)],
      (x.2 < 0x10000 ∧ x.1 = 32 ∧ x.2 % 4 = 0) ∨ (0x10000 ≤ x.2 ∧ x.2 < 0x20000 ∧ x.1 = 8)) := by decide

theorem witness_HostFaultsStay :
    ∃ t, step { waiting 0 with badAccess := true, memWhileBusy := true } = .next t ∧
      (t.badAccess = true ∧ t.memWhileBusy = true) := reaches (by decide +kernel)

theorem witness_Interrupt :
    (∃ t, exec .nop { waiting 0 with ie := true } = .next t ∧ t.status.err = false) ∧
    (0x2 : Word).getLsbD 1 = true ∧ (0xFFFFFFFE : Word).getLsbD 0 = false :=
  ⟨reaches (by decide +kernel), by decide, by decide⟩

theorem witness_ResetStep : { waiting 1 with sched := [.reset, .engine] }.sched = .reset :: [.engine] := rfl

/-- A busy state with the invariant, and the step it takes. -/
theorem witness_EveryStepKeepsTheInvariant :
    (waiting 1).Inv ∧ ∃ t, step (waiting 1) = .next t ∧ t.status.done = true :=
  ⟨⟨by decide, by simp [waiting, State.startCommand, State.reset], by simp [waiting, State.startCommand, State.reset],
    fun _ => ⟨rfl, rfl, rfl⟩, fun h => by simp [waiting, State.startCommand, Status.started] at h⟩,
    reaches (by decide +kernel)⟩

theorem witness_PendingCommandCompletes :
    let s := { waiting 1 with sched := [.host, .host, .engine], script := [.wait, .wait] }
    s.status.busy = true ∧ Slot.reset ∉ s.sched := by decide

theorem witness_ScriptLines : 1 < ([0xb8, 0x61] : List Byte).length ∧ 0 < 1 := by decide

end Sys2Proof.Machine.Tests
end

section
/-! The invariant `State.Inv` right after reset (00_scope.md R4, 10_state.md R18, R24, R26). -/

namespace Sys2Proof.Machine

/-- The default `MEM_BYTES` lies in the legal range of R4. -/
theorem Params.wellFormed_defaults : Params.defaults.wellFormed = true := by decide

/-- What a reset establishes is enough for the invariant, whatever the other registers hold: with no byte of `MEM`
written and `STATUS` at its reset value, only the parameters are left to be legal. -/
theorem State.inv_of_mem_nil_of_status_reset {s : State} (hlegal : s.params.wellFormed = true) (hmem : s.mem = [])
    (hstatus : s.status = Status.reset) : s.Inv where
  legal := hlegal
  memWf := by simp [hmem]
  memInside := by simp [hmem]
  busyClear := by simp [hstatus, Status.reset]
  errCoded := by simp [hstatus, Status.reset]

/-- Settles O56: the reset state has the default parameters, an unwritten `MEM` and `STATUS` at its reset value. -/
theorem invariantHoldsAtReset : Obligations.InvariantHoldsAtReset :=
  State.inv_of_mem_nil_of_status_reset Params.wellFormed_defaults rfl rfl

end Sys2Proof.Machine
end

section
/-! What one step can do, said once: which agent moved, what a perform step made of the state, and what a host step is
(40_command.md R60, R61, R63; 20_memory.md R38; 70_reset_and_hazards.md R116). -/

namespace Sys2Proof.Machine

/-- Where an agent moved, the next state is that agent's move on the state with its slot taken off. -/
theorem step_eq_next {s t : State} (h : step s = .next t) :
    (mover s = some .host ∧ t = hostStep s.advance) ∨
    (mover s = some .engine ∧ performStep s.advance = .next t) ∨
    (mover s = some .reset ∧ t = s.advance.assertReset) := by
  unfold step at h
  split at h
  · cases h
    exact .inl ⟨‹_›, rfl⟩
  · exact .inr (.inl ⟨‹_›, h⟩)
  · cases h
    exact .inr (.inr ⟨‹_›, rfl⟩)
  · cases h

/-- A perform step succeeds with writes inside `MEM`, or fails with the code of an error; an illegal word fails. -/
theorem performStep_eq_next {s t : State} (h : performStep s = .next t) :
    (∃ e : Effect, t = s.succeed e ∧ ∀ w ∈ e.writes, w.1 + w.2.length ≤ s.params.memBytes) ∨
    (∃ c, t = s.fail c ∧ c ≠ .noError) := by
  unfold performStep at h
  split at h
  · rcases exec_eq_next h with ⟨e, -, rfl, hin⟩ | ⟨c, -, rfl, hc⟩
    · exact .inl ⟨e, rfl, hin⟩
    · exact .inr ⟨c, rfl, hc⟩
  · cases h
    exact .inr ⟨.badCmd, rfl, by decide⟩

/-- A host step is nothing, one access, or one read of `STATUS`, after which the program left is `rest`. -/
theorem hostStep_cases (s : State) :
    hostStep s = s ∨ (∃ rest acc, hostStep s = hostAccess { s with script := rest } acc) ∨
    (∃ rest v, hostStep s = { s with script := rest }.returned v) := by
  unfold hostStep
  split
  · exact .inl rfl
  · exact .inr (.inl ⟨_, _, rfl⟩)
  · split
    · exact .inr (.inr ⟨s.script, _, rfl⟩)
    · exact .inr (.inr ⟨_, _, rfl⟩)

/-- What an access can make of `STATUS` and `MEM`: it leaves both, it changes `STATUS` by a start, a drop or an
acknowledgement alone, or it stores one byte inside `MEM`. -/
theorem hostAccess_status_mem (s : State) (acc : HostAccess) :
    ((hostAccess s acc).mem = s.mem ∧
      ((hostAccess s acc).status = s.status ∨ (hostAccess s acc).status = s.status.started ∨
        (hostAccess s acc).status = s.status.dropped ∨ ∃ w, (hostAccess s acc).status = s.status.acknowledged w)) ∨
    ((hostAccess s acc).status = s.status ∧
      ∃ a b, a < s.params.memBytes ∧ (hostAccess s acc).mem = Memory.store s.mem a [b]) := by
  unfold hostAccess
  split
  · exact .inl (by cases acc.kind <;> simp [State.noEffect])
  · rename_i r _
    refine .inl ?_
    cases acc.kind with
    | read => simp
    | write v =>
      cases r with
      | cmd => by_cases hb : s.status.busy <;> simp [writeReg, State.requestCommand, hb]
      | _ => simp [writeReg]
  · rename_i a _
    unfold windowAccess
    split
    · exact .inl (by cases acc.kind <;> simp [State.noEffect])
    · rename_i ha
      split
      · exact .inl (by cases acc.kind <;> simp [State.noEffect])
      · cases acc.kind with
        | read => simp
        | write v => exact .inr ⟨rfl, a, _, by omega, rfl⟩

@[simp] theorem hostAccess_params (s : State) (acc : HostAccess) : (hostAccess s acc).params = s.params := by
  rw [hostAccess_frame]

@[simp] theorem hostAccess_res (s : State) (acc : HostAccess) : (hostAccess s acc).res = s.res := by
  rw [hostAccess_frame]

/-- No host step writes a result register (R21). -/
@[simp] theorem hostStep_res (s : State) : (hostStep s).res = s.res := by
  rcases hostStep_cases s with h | ⟨rest, acc, h⟩ | ⟨rest, v, h⟩ <;> simp [h]

/-- The command word and the latched arguments change in a host step only by a command start (R22, R58). -/
theorem hostStep_start (s : State) :
    ((hostStep s).cmdLast = s.cmdLast ∧ (hostStep s).latch = s.latch) ∨
    (s.status.busy = false ∧ (hostStep s).status.busy = true ∧ (hostStep s).latch = s.args) := by
  rcases hostStep_cases s with h | ⟨rest, acc, h⟩ | ⟨rest, v, h⟩
  · exact .inl (by simp [h])
  · rw [h]
    rcases hostAccess_start { s with script := rest } acc with ⟨hcmd, hlatch, -⟩ | ⟨hidle, w, hstart⟩
    · exact .inl ⟨hcmd, hlatch⟩
    · exact .inr ⟨hidle, by simp [hstart]⟩
  · exact .inl (by simp [h])

/-- Settles O13: a host step writes no result register and latches only at a start, a perform step writes no latched
argument, and a perform step that fails writes no result register. -/
theorem resultsAndLatchChangeOnlyWhereSaid : Obligations.ResultsAndLatchChangeOnlyWhereSaid := by
  intro s t h
  rcases step_eq_next h with ⟨hm, rfl⟩ | ⟨hm, hperform⟩ | ⟨hm, -⟩
  · refine ⟨fun hres => absurd (hostStep_res s.advance) hres, fun hlatch => .inr ⟨hm, ?_⟩⟩
    rcases hostStep_start s.advance with ⟨hcmd, hsame⟩ | hstart
    · exact absurd hlatch (by simp [hcmd, hsame])
    · exact hstart
  · rcases performStep_eq_next hperform with ⟨e, rfl, -⟩ | ⟨c, rfl, -⟩
    · exact ⟨fun _ => .inr ⟨hm, rfl, rfl⟩, fun hlatch => absurd hlatch (by simp)⟩
    · exact ⟨fun hres => absurd rfl hres, fun hlatch => absurd hlatch (by simp)⟩
  · exact ⟨fun _ => .inl hm, fun _ => .inl hm⟩

end Sys2Proof.Machine
end

section
/-! The invariant `State.Inv` is kept by every step (00_scope.md R4; 10_state.md R18, R24; 40_command.md R61). -/

namespace Sys2Proof.Machine

/-- What the invariant asks of `STATUS` (R18, R61). -/
def Status.Consistent (st : Status) : Prop :=
  (st.busy = true → st.done = false ∧ st.err = false ∧ st.errCode = .noError) ∧
  (st.err = true → st.errCode ≠ .noError)

theorem State.Inv.consistent {s : State} (hs : s.Inv) : s.status.Consistent := ⟨hs.busyClear, hs.errCoded⟩

theorem Status.consistent_reset : Status.reset.Consistent := by simp [Status.Consistent, Status.reset]

theorem Status.consistent_started (st : Status) : st.started.Consistent := by simp [Status.Consistent]

theorem Status.consistent_succeeded (st : Status) : st.succeeded.Consistent := by simp [Status.Consistent]

theorem Status.consistent_failed (st : Status) {c : ErrCode} (hc : c ≠ .noError) : (st.failed c).Consistent := by
  simp [Status.Consistent, hc]

theorem Status.Consistent.dropped {st : Status} (h : st.Consistent) : st.dropped.Consistent := h

/-- An acknowledgement clears DONE and ERR at most, and leaves BUSY and the code. -/
theorem Status.Consistent.acknowledged {st : Status} (h : st.Consistent) (w : Word) :
    (st.acknowledged w).Consistent := by
  obtain ⟨hbusy, herr⟩ := h
  refine ⟨fun hb => ?_, fun he => ?_⟩
  · obtain ⟨hd, he, hc⟩ := hbusy hb
    simp [hd, he, hc]
  · rw [Status.acknowledged_err, Bool.and_eq_true] at he
    exact herr he.1

/-- The invariant carries over to a state with the same parameters and buffer and any sound `STATUS`. -/
theorem State.Inv.of_same_mem {s t : State} (hs : s.Inv) (hparams : t.params = s.params) (hmem : t.mem = s.mem)
    (hstatus : t.status.Consistent) : t.Inv where
  legal := by rw [hparams]; exact hs.legal
  memWf := by rw [hmem]; exact hs.memWf
  memInside := by rw [hmem, hparams]; exact hs.memInside
  busyClear := hstatus.1
  errCoded := hstatus.2

/-- The invariant carries over to a state whose buffer is a store inside `MEM_BYTES`. -/
theorem State.Inv.of_stores {s t : State} {ws : List (Nat × List Byte)} (hs : s.Inv) (hparams : t.params = s.params)
    (hmem : t.mem = Memory.storeAll s.mem ws) (hin : ∀ w ∈ ws, w.1 + w.2.length ≤ s.params.memBytes)
    (hstatus : t.status.Consistent) : t.Inv where
  legal := by rw [hparams]; exact hs.legal
  memWf := by rw [hmem]; exact Memory.storeAll_wf hs.memWf ws
  memInside := by rw [hmem, hparams]; exact Memory.storeAll_inside hs.memInside hin
  busyClear := hstatus.1
  errCoded := hstatus.2

theorem State.Inv.advance {s : State} (hs : s.Inv) : s.advance.Inv := hs.of_same_mem rfl rfl hs.consistent

theorem State.Inv.assertReset {s : State} (hs : s.Inv) : s.assertReset.Inv :=
  State.inv_of_mem_nil_of_status_reset hs.legal rfl rfl

/-- The engine's perform step keeps the invariant. -/
theorem State.Inv.performStep {s t : State} (hs : s.Inv) (h : performStep s = .next t) : t.Inv := by
  rcases performStep_eq_next h with ⟨e, rfl, hin⟩ | ⟨c, rfl, hc⟩
  · exact hs.of_stores rfl rfl hin s.status.consistent_succeeded
  · exact hs.of_same_mem rfl rfl (s.status.consistent_failed hc)

/-- One host access keeps the invariant. -/
theorem State.Inv.hostAccess {s : State} (hs : s.Inv) (acc : HostAccess) : (hostAccess s acc).Inv := by
  rcases hostAccess_status_mem s acc with ⟨hmem, hstatus⟩ | ⟨hstatus, a, b, ha, hmem⟩
  · refine hs.of_same_mem (hostAccess_params s acc) hmem ?_
    rcases hstatus with h | h | h | ⟨w, h⟩ <;> rw [h]
    · exact hs.consistent
    · exact s.status.consistent_started
    · exact hs.consistent.dropped
    · exact hs.consistent.acknowledged w
  · exact hs.of_stores (ws := [(a, [b])]) (hostAccess_params s acc) hmem (by simpa using ha) (hstatus ▸ hs.consistent)

/-- The host's next operation keeps the invariant. -/
theorem State.Inv.hostStep {s : State} (hs : s.Inv) : (hostStep s).Inv := by
  have hrest (rest : List HostOp) : ({ s with script := rest } : State).Inv := hs.of_same_mem rfl rfl hs.consistent
  rcases hostStep_cases s with h | ⟨rest, acc, h⟩ | ⟨rest, v, h⟩ <;> rw [h]
  · exact hs
  · exact (hrest rest).hostAccess acc
  · exact (hrest rest).of_same_mem rfl rfl hs.consistent

/-- Settles O57: a host step, a perform step and a reset each keep the invariant. -/
theorem everyStepKeepsTheInvariant : Obligations.EveryStepKeepsTheInvariant := by
  intro s t hs h
  rcases step_eq_next h with ⟨-, rfl⟩ | ⟨-, hperform⟩ | ⟨-, rfl⟩
  · exact hs.advance.hostStep
  · exact hs.advance.performStep hperform
  · exact hs.advance.assertReset

end Sys2Proof.Machine
end

section
/-! What the host reads and writes at each offset of the block space (10_state.md R9 to R24), and the values right after
reset (R26). -/

namespace Sys2Proof.Machine

/-! ### Registers -/

theorem ArgFile.get_eq_getD (f : ArgFile) (i : Fin 11) :
    f.get i = [f.a0, f.a1, f.a2, f.a3, f.a4, f.a5, f.a6, f.a7, f.a8, f.a9, f.a10].getD i.val 0 := by
  match i with
  | 0 | 1 | 2 | 3 | 4 | 5 | 6 | 7 | 8 | 9 | 10 => rfl

theorem ResFile.get_eq_getD (f : ResFile) (i : Fin 8) :
    f.get i = [f.r0, f.r1, f.r2, f.r3, f.r4, f.r5, f.r6, f.r7].getD i.val 0 := by
  match i with
  | 0 | 1 | 2 | 3 | 4 | 5 | 6 | 7 => rfl

theorem ArgFile.get_reset (i : Fin 11) : ArgFile.reset.get i = 0 := by
  match i with
  | 0 | 1 | 2 | 3 | 4 | 5 | 6 | 7 | 8 | 9 | 10 => rfl

theorem ResFile.get_reset (i : Fin 8) : ResFile.reset.get i = 0 := by
  match i with
  | 0 | 1 | 2 | 3 | 4 | 5 | 6 | 7 => rfl

theorem hostAccess_readArg (s : State) (i : Fin 11) :
    hostAccess s { kind := .read, bits := 32, off := 0x020 + 4 * i.val } = s.returned (s.args.get i) :=
  hostAccess_readReg (by omega) (by omega) (regAt_arg i)

theorem hostAccess_writeArg (s : State) (i : Fin 11) (v : Word) :
    hostAccess s { kind := .write v, bits := 32, off := 0x020 + 4 * i.val } = { s with args := s.args.set i v } :=
  hostAccess_writeReg v (by omega) (by omega) (regAt_arg i)

theorem hostAccess_readRes (s : State) (i : Fin 8) :
    hostAccess s { kind := .read, bits := 32, off := 0x060 + 4 * i.val } = s.returned (s.res.get i) :=
  hostAccess_readReg (by omega) (by omega) (regAt_res i)

/-- The offsets R9 does not list (R11). -/
theorem regAt_unlisted {off : Nat}
    (h : (0x014 ≤ off ∧ off ≤ 0x01C) ∨ (0x04C ≤ off ∧ off ≤ 0x05C) ∨ 0x080 ≤ off) : regAt off = .unlisted := by
  have hargs : ¬(0x020 ≤ off ∧ off < 0x04C) := by omega
  have hres : ¬(0x060 ≤ off ∧ off < 0x080) := by omega
  unfold regAt
  rw [if_neg (by omega), if_neg (by omega), if_neg (by omega), if_neg (by omega), if_neg (by omega), dif_neg hargs,
    dif_neg hres]

/-- Settles O42: each offset of R9 is its register's, and a read of it hands over that register. -/
theorem registerReadsReturnTheirValue : Obligations.RegisterReadsReturnTheirValue := by
  intro s reads
  refine ⟨rfl, rfl, ?_, rfl, rfl, fun i => ?_, fun i => ?_⟩
  · have hctrl : readReg s .ctrl = if s.ie then 1 else 0 := by cases h : s.ie <;> simp [readReg, word, h]
    exact hctrl ▸ hostAccess_readReg (by decide) (by decide) rfl
  · exact ArgFile.get_eq_getD s.args i ▸ hostAccess_readArg s i
  · exact ResFile.get_eq_getD s.res i ▸ hostAccess_readRes s i

/-- Settles O46: the write sets the one register of the argument file, which a read then returns. -/
theorem argumentWriteReadsBack : Obligations.ArgumentWriteReadsBack := by
  intro s i v
  rw [hostAccess_writeArg]
  refine ⟨rfl, fun j => ArgFile.get_set s.args i j v, ?_⟩
  rw [hostAccess_readArg, ArgFile.get_set, if_pos rfl]
  rfl

/-- Settles O45: a write keeps bit 0 alone, and `word` of that bit is the written value masked to it. -/
theorem ctrlHoldsOnlyTheEnable : Obligations.CtrlHoldsOnlyTheEnable := by
  refine ⟨rfl, fun s w => ⟨hostAccess_writeReg w (by decide) (by decide) (r := .ctrl) rfl, ?_⟩⟩
  have hread : word (w.getLsbD 0).toNat = w &&& 1 := by
    rw [show w &&& 1 = (BitVec.ofBool (w.getLsbD 0)).setWidth 32 from BitVec.and_one_eq_setWidth_ofBool_getLsbD]
    cases w.getLsbD 0 <;> rfl
  exact hread ▸ hostAccess_readReg (by decide) (by decide) rfl

/-! ### STATUS -/

/-- Settles O44: a write to `STATUS` is an acknowledgement, which clears exactly where the value has a 1. -/
theorem statusWriteOneToClear : Obligations.StatusWriteOneToClear := by
  have hclear (a b : Bool) : (a && !b) = if b then false else a := by cases b <;> simp
  intro s w
  rw [hostAccess_writeReg w (by decide) (by decide) (r := .status) rfl]
  simp only [writeReg, Status.acknowledged, hclear]

theorem ErrCode.code_lt (c : ErrCode) : c.code < 16 := by cases c <;> decide

/-- The number the `STATUS` word stands for (R16). -/
theorem Status.toNat_toWord (st : Status) :
    st.toWord.toNat =
      st.busy.toNat + 2 * st.done.toNat + 4 * st.err.toNat + 8 * st.drop.toNat + 256 * st.errCode.code := by
  have := st.busy.toNat_lt
  have := st.done.toNat_lt
  have := st.err.toNat_lt
  have := st.drop.toNat_lt
  have := st.errCode.code_lt
  rw [Status.toWord, BitVec.toNat_ofNat, Nat.mod_eq_of_lt (by omega)]

/-- A bit of a word is `b` where its value puts `b` at that place. -/
theorem getLsbD_eq_of_div_mod {w : Word} {i : Nat} {b : Bool} (h : w.toNat / 2 ^ i % 2 = b.toNat) :
    w.getLsbD i = b := by
  rw [← BitVec.testBit_toNat, Nat.testBit_eq_decide_div_mod_eq, h]
  cases b <;> rfl

/-- A field of a word is `v` where its value puts `v` at that place. -/
theorem extractLsb'_eq_of_div_mod {w : Word} {lo len v : Nat} (h : w.toNat / 2 ^ lo % 2 ^ len = v % 2 ^ len) :
    w.extractLsb' lo len = BitVec.ofNat len v := by
  apply BitVec.eq_of_toNat_eq
  rw [BitVec.extractLsb'_toNat, Nat.shiftRight_eq_div_pow, h, BitVec.toNat_ofNat]

/-- Settles O43: the fields stand side by side in the word's value, so division reads each one back. -/
theorem statusWordLayout : Obligations.StatusWordLayout := by
  refine ⟨fun st => ?_, rfl⟩
  have hword := st.toNat_toWord
  have hbusy := st.busy.toNat_lt
  have hdone := st.done.toNat_lt
  have herr := st.err.toNat_lt
  have hdrop := st.drop.toNat_lt
  have hcode := st.errCode.code_lt
  refine ⟨getLsbD_eq_of_div_mod ?_, getLsbD_eq_of_div_mod ?_, getLsbD_eq_of_div_mod ?_, getLsbD_eq_of_div_mod ?_,
    extractLsb'_eq_of_div_mod (v := 0) ?_, extractLsb'_eq_of_div_mod ?_, extractLsb'_eq_of_div_mod (v := 0) ?_⟩ <;>
    omega

/-! ### The buffer window -/

/-- Settles O47: inside `MEM_BYTES` and while BUSY = 0 a window access reads the byte or stores the value's low 8
bits. -/
theorem bufferWindowReadsAndWrites : Obligations.BufferWindowReadsAndWrites := by
  intro s a v hlegal ha hidle
  have hbuffer : ¬s.params.memBytes ≤ a := by omega
  have hwindow : a < 0x10000 := by
    have := Params.memBytes_le hlegal
    omega
  have hlow : v.setWidth 8 = v.extractLsb' 0 8 := BitVec.setWidth_eq_extractLsb' (by decide)
  rw [hostAccess_window s _ hwindow, hostAccess_window s _ hwindow]
  simp only [windowAccess, hbuffer, hidle, if_false, Bool.false_eq_true]
  exact ⟨rfl, _, rfl, rfl, hlow ▸ State.readByte_store s a _⟩

/-- A window access beyond `MEM_BYTES` has no effect, BUSY or not (R11). -/
theorem hostAccess_beyond (s : State) (k : AccessKind) {a : Nat} (hbeyond : s.params.memBytes ≤ a)
    (hwindow : a < 0x10000) : hostAccess s { kind := k, bits := 8, off := 0x10000 + a } = s.noEffect k := by
  rw [hostAccess_window s k hwindow]
  exact if_pos hbeyond

/-- Settles O48: an unlisted offset is no register, a window byte beyond `MEM_BYTES` is no byte, and `writeReg` ignores
the read-only registers. -/
theorem unlistedAndReadOnlyAccesses : Obligations.UnlistedAndReadOnlyAccesses := by
  intro s v
  refine ⟨fun off haligned hoff => ?_, fun a hbeyond hwindow => ?_,
    hostAccess_writeReg v (by decide) (by decide) (r := .id) rfl,
    hostAccess_writeReg v (by decide) (by decide) (r := .cap) rfl,
    fun i => hostAccess_writeReg v (by omega) (by omega) (regAt_res i)⟩
  · have hreg : regAt off = .unlisted := regAt_unlisted (by omega)
    exact ⟨hostAccess_readReg (by omega) haligned hreg, hostAccess_writeReg v (by omega) haligned hreg⟩
  · exact ⟨hostAccess_beyond s .read hbeyond hwindow, hostAccess_beyond s (.write v) hbeyond hwindow⟩

/-! ### Refused accesses -/

/-- An access that R10 does not refuse records no HOST_BAD_ACCESS (R109). -/
theorem hostAccess_badAccess {s : State} {acc : HostAccess} (h : placeOf acc.bits acc.off ≠ .refused) :
    (hostAccess s acc).badAccess = s.badAccess := by
  unfold hostAccess
  split
  · exact absurd ‹_› h
  · rename_i r _
    cases acc.kind with
    | read => rfl
    | write v =>
      cases r with
      | cmd => by_cases hb : s.status.busy <;> simp [writeReg, State.requestCommand, hb]
      | _ => rfl
  · unfold windowAccess
    split
    · cases acc.kind <;> rfl
    · split <;> cases acc.kind <;> rfl

/-- Settles O49: `placeOf` refuses exactly the accesses of R10. -/
theorem refusedAccessesAreRecorded : Obligations.RefusedAccessesAreRecorded := by
  intro s k bits off
  refine ⟨fun h => ?_, fun h => hostAccess_badAccess (?_ : placeOf bits off ≠ .refused)⟩
  · have hrefused : placeOf bits off = .refused := placeOf_eq_refused.mpr (by omega)
    rw [hostAccess_refused hrefused]
    cases k with
    | read => rfl
    | write v => rfl
  · intro hrefused
    have := placeOf_eq_refused.mp hrefused
    omega

/-! ### Right after reset -/

/-- Settles O54: every register is at its reset value, and with no byte written every read is a draw. -/
theorem resetLeavesSpecifiedValues : Obligations.ResetLeavesSpecifiedValues :=
  ⟨rfl, rfl, rfl, ArgFile.get_reset, ResFile.get_reset, ArgFile.get_reset, rfl, rfl, rfl, rfl, fun _ => rfl⟩

end Sys2Proof.Machine
end

section
/-! What a command's outcome depends on and which result registers it writes (10_state.md R20, R21, R22; 20_memory.md R27;
30_encoding.md R47, R48; 70_reset_and_hazards.md R118, R121). -/

namespace Sys2Proof.Machine

/-! ### What a command reads -/

/-- No command reads the argument registers: it works on the latched copy (R22). -/
theorem commandOutcome_args (i : Instr) (s : State) (a : ArgFile) :
    commandOutcome i { s with args := a } = commandOutcome i s := by
  cases i <;> rfl

/-- A completion carries other argument registers along. -/
theorem finish_args {s t : State} {x : Except ErrCode Effect} (a : ArgFile) (h : finish s x = .next t) :
    finish { s with args := a } x = .next { t with args := a } := by
  rcases finish_eq_next h with ⟨e, rfl, rfl⟩ | ⟨c, rfl, rfl⟩
  · rfl
  · rfl

/-- Settles O40: the outcome does not see the argument registers, and its completion leaves them. -/
theorem argumentWritesDoNotDisturb : Obligations.ArgumentWritesDoNotDisturb := by
  intro i s t a h
  rw [exec_eq_finish] at h ⊢
  rw [commandOutcome_args]
  exact finish_args a h

theorem SameInputs.refl (s : State) : SameInputs s s := ⟨rfl, rfl, fun _ _ => rfl⟩

/-- A read inside `MEM` (R27) gives the same bytes. -/
theorem SameInputs.memRead_eq {s s' : State} (h : SameInputs s s') {addr n : Nat}
    (hin : addr + n ≤ s.params.memBytes) : s'.memRead addr n = s.memRead addr n :=
  State.memRead_congr fun k hk => (h.bytes (addr + k) (by omega)).symm

/-! ### The outcomes of one command on two states -/

/-- `f` and `f'` agree on the registers `named`, and hold what `s` and `s'` hold in every other one. -/
def SameNamed (named : List (Fin 8)) (s s' : State) (f f' : ResFile) : Prop :=
  ∀ k, if k ∈ named then f.get k = f'.get k else f.get k = s.res.get k ∧ f'.get k = s'.res.get k

section
variable {s s' : State} {a b c d e : Word}

theorem SameNamed.nothing : SameNamed [] s s' s.res s'.res := by
  simp [SameNamed]

theorem SameNamed.r0 : SameNamed [0] s s' { s.res with r0 := a } { s'.res with r0 := a } := by
  simp [SameNamed, Fin.forall_fin_succ, ResFile.get]

theorem SameNamed.r0_r1 : SameNamed [0, 1] s s' { s.res with r0 := a, r1 := b } { s'.res with r0 := a, r1 := b } := by
  simp [SameNamed, Fin.forall_fin_succ, ResFile.get]

theorem SameNamed.r0_r1_r2 :
    SameNamed [0, 1, 2] s s' { s.res with r0 := a, r1 := b, r2 := c } { s'.res with r0 := a, r1 := b, r2 := c } := by
  simp [SameNamed, Fin.forall_fin_succ, ResFile.get]

theorem SameNamed.r0_r1_r2_r6_r7 :
    SameNamed [0, 1, 2, 6, 7] s s' { s.res with r0 := a, r1 := b, r2 := c, r6 := d, r7 := e }
      { s'.res with r0 := a, r1 := b, r2 := c, r6 := d, r7 := e } := by
  simp [SameNamed, Fin.forall_fin_succ, ResFile.get]

theorem SameNamed.all (f : ResFile) : SameNamed [0, 1, 2, 3, 4, 5, 6, 7] s s' f f := by
  simp [SameNamed, Fin.forall_fin_succ]

end

/-- Two outcomes on the states `s` and `s'` are alike: the same error, or the same writes and result files that differ
only in what they keep of `s` and `s'` outside the registers `named`. -/
inductive SameOutcome (named : List (Fin 8)) (s s' : State) : Except ErrCode Effect → Except ErrCode Effect → Prop
  | error (c : ErrCode) : SameOutcome named s s' (.error c) (.error c)
  | ok {f f' : ResFile} {ws : List (Nat × List Byte)} (h : SameNamed named s s' f f') :
    SameOutcome named s s' (.ok { res := f, writes := ws }) (.ok { res := f', writes := ws })

section
variable {named : List (Fin 8)} {s s' : State}

theorem SameOutcome.raiseIf {bad : Bool} {c : ErrCode} {k k' : Except ErrCode Effect} (h : SameOutcome named s s' k k') :
    SameOutcome named s s' (raiseIf bad c k) (raiseIf bad c k') := by
  cases bad
  · exact h
  · exact .error c

theorem SameOutcome.rangeCheck {addr n : Nat} {k k' : Except ErrCode Effect} (hparams : s.params = s'.params)
    (h : addr + n ≤ s.params.memBytes → SameOutcome named s s' k k') :
    SameOutcome named s s' (rangeCheck s addr n k) (rangeCheck s' addr n k') := by
  by_cases hin : addr + n ≤ s.params.memBytes
  · rw [rangeCheck_pass k hin, rangeCheck_pass k' (hparams ▸ hin)]
    exact h hin
  · have hout : s.params.memBytes < addr + n := by omega
    rw [rangeCheck_fail k hout, rangeCheck_fail k' (hparams ▸ hout)]
    exact .error .range

theorem SameOutcome.bind {α : Type} {x : Except ErrCode α} {f f' : α → Except ErrCode Effect}
    (h : ∀ a, SameOutcome named s s' (f a) (f' a)) : SameOutcome named s s' (x.bind f) (x.bind f') := by
  cases x with
  | error c => exact .error c
  | ok a => exact h a

/-- A range check of an input region, and what follows on the bytes read there. -/
theorem SameOutcome.readRegion (hs : SameInputs s s') {addr n : Nat} {k k' : Except ErrCode Effect}
    (h : s'.memRead addr n = s.memRead addr n → SameOutcome named s s' k k') :
    SameOutcome named s s' (Machine.rangeCheck s addr n k) (Machine.rangeCheck s' addr n k') :=
  SameOutcome.rangeCheck hs.params fun hin => h (hs.memRead_eq hin)

end

/-- Every command has like outcomes on two states with the same inputs. -/
theorem commandOutcome_same (i : Instr) {s s' : State} (hs : SameInputs s s') :
    SameOutcome (namedRes i) s s' (commandOutcome i s) (commandOutcome i s') := by
  have hparams := hs.params
  have hlatch := hs.latch.symm
  cases i <;> simp only [commandOutcome, csumOutcome, csumVerifyOutcome, csumUdpOutcome, ipBuildOutcome,
    udpBuildOutcome, udpipBuildOutcome, ipDecodeOutcome, udpDecodeOutcome, udpipDecodeOutcome, dhcpDecodeOutcome,
    dhcpEncodeOutcome, optAddrsOutcome, optLeaseOutcome, hlatch, ← hparams]
  case nop => exact .ok .nothing
  case csum => exact .readRegion hs fun hread => hread ▸ .ok .r0_r1
  case csumVerify => exact .readRegion hs fun hread => hread ▸ .ok .r0_r1
  case csumUdp => exact .readRegion hs fun hread => hread ▸ .raiseIf (.ok .r0_r1)
  case ipBuild =>
    exact .readRegion hs fun hread => hread ▸ .raiseIf (.rangeCheck hparams fun _ => .ok .r0_r1)
  case udpBuild =>
    exact .readRegion hs fun hread => hread ▸ .raiseIf (.rangeCheck hparams fun _ => .ok .r0_r1)
  case udpipBuild =>
    exact .readRegion hs fun hread => hread ▸ .raiseIf (.rangeCheck hparams fun _ => .ok .r0_r1_r2)
  case ipDecode => exact .readRegion hs fun hread => hread ▸ .bind fun _ => .ok (.all _)
  case udpDecode => exact .readRegion hs fun hread => hread ▸ .bind fun _ => .ok .r0_r1_r2_r6_r7
  case udpipDecode =>
    exact .readRegion hs fun hread => hread ▸ .bind fun _ => .raiseIf <| .bind fun _ => .ok (.all _)
  case dhcpDecode =>
    refine .readRegion hs fun hread => ?_
    rw [hread]
    exact .raiseIf <| .raiseIf <| .raiseIf <| .bind fun _ => .rangeCheck hparams fun _ => .ok (.all _)
  case dhcpEncode => exact .readRegion hs fun hread => hread ▸ .rangeCheck hparams fun _ => .ok .r0
  case optAddrs =>
    exact .raiseIf <| .raiseIf <| .raiseIf <| .readRegion hs fun hread => hread ▸ .rangeCheck hparams fun _ => .ok .r0
  case optLease => exact .rangeCheck hparams fun _ => .ok .r0_r1_r2

/-! ### The statements -/

/-- A result register the command does not name keeps its value in a success (R48). -/
theorem commandOutcome_keeps_unnamed {i : Instr} {s : State} {e : Effect} {k : Fin 8} (h : commandOutcome i s = .ok e)
    (hk : k ∉ namedRes i) : e.res.get k = s.res.get k := by
  have hsame := commandOutcome_same i (SameInputs.refl s)
  rw [h] at hsame
  cases hsame with
  | ok hres =>
    have hkept := hres k
    rw [if_neg hk] at hkept
    exact hkept.1

/-- Settles O12: a failing command writes no result register, and a succeeding one only those its row of R48 names. -/
theorem onlyNamedResultsWritten : Obligations.OnlyNamedResultsWritten := by
  intro i s t k h hk
  rcases exec_eq_next h with ⟨e, he, rfl, -⟩ | ⟨c, -, rfl, -⟩
  · exact commandOutcome_keeps_unnamed he hk
  · rfl

/-- The same writes leave the same byte at an address where the states read alike before. -/
theorem State.readByte_storeAll_congr {s s' : State} {a : Nat} (h : s.readByte a = s'.readByte a)
    (ws : List (Nat × List Byte)) :
    State.readByte { s with mem := Memory.storeAll s.mem ws } a =
      State.readByte { s' with mem := Memory.storeAll s'.mem ws } a := by
  induction ws generalizing s s' with
  | nil => exact h
  | cons w rest ih =>
    have hstep : State.readByte { s with mem := Memory.store s.mem w.1 w.2 } a =
        State.readByte { s' with mem := Memory.store s'.mem w.1 w.2 } a := by
      rw [State.readByte_store, State.readByte_store, h]
    exact ih hstep

/-- Settles O41: like outcomes complete with the same error, or store the same bytes and name the same results. -/
theorem outcomeDependsOnlyOnInputs : Obligations.OutcomeDependsOnlyOnInputs := by
  intro i s s' t t' hs h h'
  rw [exec_eq_finish] at h h'
  have hsame := commandOutcome_same i hs
  generalize commandOutcome i s = x at h hsame
  generalize commandOutcome i s' = x' at h' hsame
  cases hsame with
  | error c =>
    cases h
    cases h'
    exact ⟨rfl, rfl, nofun, hs.bytes⟩
  | @ok f f' ws hres =>
    cases h
    cases h'
    refine ⟨rfl, rfl, fun _ k hk => ?_, fun a ha => State.readByte_storeAll_congr (hs.bytes a ha) ws⟩
    have hnamed := hres k
    rwa [if_pos hk] at hnamed

end Sys2Proof.Machine
end

section
/-! What the host's next operation is, and what a read can do (20_memory.md R35, R38; 30_encoding.md R57;
60_exceptions.md R109). -/

namespace Sys2Proof.Machine

/-! ### The host's next operation -/

/-- Where the host moves, the step is its next operation on the state with its slot taken off. -/
theorem step_of_mover_host {s : State} (h : mover s = some .host) : step s = .next (hostStep s.advance) := by
  simp [step, h]

theorem hostStep_of_access {s : State} {acc : HostAccess} {rest : List HostOp} (h : s.script = .access acc :: rest) :
    hostStep s = hostAccess { s with script := rest } acc := by
  simp [hostStep, h]

/-- `WAIT` keeps its place in the program while BUSY = 1, and is over when the read has BUSY = 0 (R57). -/
theorem hostStep_of_wait {s : State} {rest : List HostOp} (h : s.script = .wait :: rest) :
    hostStep s =
      { s with script := if s.status.busy then .wait :: rest else rest, reads := s.status.toWord :: s.reads } := by
  cases hb : s.status.busy with
  | true => simp [hostStep, h, hb, State.returned]
  | false => simp [hostStep, h, hb, State.returned]

/-- Settles O5: the host's step is `hostStep` on the advanced state, whose program is still the host's. -/
theorem hostStepMakesNextOperation : Obligations.HostStepMakesNextOperation := by
  intro s rest hmover
  rw [step_of_mover_host hmover]
  refine ⟨fun acc hscript => ?_, fun hscript => ?_⟩
  · rw [hostStep_of_access (s := s.advance) hscript]
    rfl
  · rw [hostStep_of_wait (s := s.advance) hscript]
    rfl

/-! ### Reads -/

/-- A read hands over one value, and where it is refused or falls in the busy window it records a host fault and
hands over 0 (R109). -/
theorem hostAccess_read_cases (s : State) (bits off : Nat) :
    (∃ v, hostAccess s { kind := .read, bits := bits, off := off } = s.returned v) ∨
    hostAccess s { kind := .read, bits := bits, off := off } = s.recordBadAccess.returned 0 ∨
    hostAccess s { kind := .read, bits := bits, off := off } = s.recordMemWhileBusy.returned 0 := by
  unfold hostAccess
  split
  · exact .inr (.inl rfl)
  · exact .inl ⟨_, rfl⟩
  · unfold windowAccess
    split
    · exact .inl ⟨0, rfl⟩
    · split
      · exact .inr (.inr rfl)
      · exact .inl ⟨_, rfl⟩

/-- Settles O51: in each outcome of a read only the host's record and a fault bit differ. -/
theorem readsHaveNoSideEffect : Obligations.ReadsHaveNoSideEffect := by
  rintro s t bits off rfl
  rcases hostAccess_read_cases s bits off with ⟨v, h⟩ | h | h <;> rw [h]
  · exact ⟨v, rfl⟩
  · exact ⟨0, rfl⟩
  · exact ⟨0, rfl⟩

end Sys2Proof.Machine
end

section
/-! What each command writes to `MEM`, and the bytes it leaves (20_memory.md R28; 40_command.md R61). -/

namespace Sys2Proof.Machine

/-! ### The writes of an outcome -/

/-- Where an outcome is a success, its scheduled writes are as `P` says. -/
def WritesSatisfy (P : List (Nat × List Byte) → Prop) (x : Except ErrCode Effect) : Prop :=
  ∀ e, x = .ok e → P e.writes

/-- One write, of `len` bytes at `dst`. -/
def OneWrite (dst len : Nat) (ws : List (Nat × List Byte)) : Prop :=
  ∃ out : List Byte, ws = [(dst, out)] ∧ out.length = len

section
variable {P : List (Nat × List Byte) → Prop}

theorem WritesSatisfy.ok {e : Effect} (h : P e.writes) : WritesSatisfy P (.ok e) :=
  fun _ he => by cases he; exact h

theorem WritesSatisfy.raiseIf {bad : Bool} {c : ErrCode} {k : Except ErrCode Effect} (h : WritesSatisfy P k) :
    WritesSatisfy P (raiseIf bad c k) :=
  fun e he => h e (raiseIf_eq_ok.mp he).2

theorem WritesSatisfy.rangeCheck {s : State} {addr n : Nat} {k : Except ErrCode Effect} (h : WritesSatisfy P k) :
    WritesSatisfy P (rangeCheck s addr n k) :=
  h.raiseIf

theorem WritesSatisfy.bind {α : Type} {x : Except ErrCode α} {f : α → Except ErrCode Effect}
    (h : ∀ a, x = .ok a → WritesSatisfy P (f a)) : WritesSatisfy P (x.bind f) := by
  intro e he
  obtain ⟨a, ha, hf⟩ := bind_eq_ok.mp he
  exact h a ha e hf

end

theorem WritesSatisfy.oneWrite {res : ResFile} {dst len : Nat} {out : List Byte} (h : out.length = len) :
    WritesSatisfy (OneWrite dst len) (.ok { res := res, writes := [(dst, out)] }) :=
  .ok ⟨out, rfl, h⟩

/-! ### Commands that store nothing -/

theorem commandOutcome_writes_nil {i : Instr} (s : State)
    (hi : i ∈ [Instr.nop, .csum, .csumVerify, .csumUdp, .ipDecode, .udpDecode, .udpipDecode]) :
    WritesSatisfy (· = []) (commandOutcome i s) := by
  cases i
  case nop => exact .ok rfl
  case csum => exact .rangeCheck (.ok rfl)
  case csumVerify => exact .rangeCheck (.ok rfl)
  case csumUdp => exact .rangeCheck (.raiseIf (.ok rfl))
  case ipDecode => exact .rangeCheck (.bind fun _ _ => .ok rfl)
  case udpDecode => exact .rangeCheck (.bind fun _ _ => .ok rfl)
  case udpipDecode => exact .rangeCheck (.bind fun _ _ => .raiseIf (.bind fun _ _ => .ok rfl))
  all_goals simp at hi

/-- A success of a command that stores nothing, and every failure, leaves the list of written bytes. -/
theorem exec_mem_of_storesNothing {i : Instr} {s t : State} (h : exec i s = .next t)
    (hi : i ∈ [Instr.nop, .csum, .csumVerify, .csumUdp, .ipDecode, .udpDecode, .udpipDecode] ∨ t.status.err = true) :
    t.mem = s.mem := by
  rcases exec_eq_next h with ⟨e, he, rfl, -⟩ | ⟨c, -, rfl, -⟩
  · have hnil : e.writes = [] := commandOutcome_writes_nil s (hi.resolve_right (by simp)) e he
    simp [hnil]
  · rfl

/-- No command takes a new draw of the unwritten bytes. -/
theorem exec_epoch {i : Instr} {s t : State} (h : exec i s = .next t) : t.epoch = s.epoch := by
  rcases exec_eq_next h with ⟨e, -, rfl, -⟩ | ⟨c, -, rfl, -⟩
  · rfl
  · rfl

/-- Settles O14: such a command has no writes, or fails and keeps the buffer. -/
theorem commandsThatStoreNothing : Obligations.CommandsThatStoreNothing := by
  intro i s t h hi
  have hmem : t.mem = s.mem := exec_mem_of_storesNothing h hi
  exact ⟨hmem, State.readByte_congr hmem (exec_epoch h)⟩

/-! ### Commands that store one region -/

theorem ipBuild_writes (s : State) :
    WritesSatisfy (OneWrite s.latch.a2.toNat (20 + s.latch.a1.toNat)) (commandOutcome .ipBuild s) :=
  .rangeCheck <| .raiseIf <| .rangeCheck <| .oneWrite (by simp [buildIPv4_length])

theorem udpBuild_writes (s : State) :
    WritesSatisfy (OneWrite s.latch.a2.toNat (8 + s.latch.a1.toNat)) (commandOutcome .udpBuild s) :=
  .rangeCheck <| .raiseIf <| .rangeCheck <| .oneWrite (by simp [buildUDP_length])

theorem udpipBuild_writes (s : State) :
    WritesSatisfy (OneWrite s.latch.a2.toNat (28 + s.latch.a1.toNat)) (commandOutcome .udpipBuild s) :=
  .rangeCheck <| .raiseIf <| .rangeCheck <| .oneWrite (by simp [buildIPv4_length, buildUDP_length]; omega)

theorem optAddrs_writes (s : State) :
    WritesSatisfy (OneWrite s.latch.a2.toNat (2 + 4 * s.latch.a1.toNat)) (commandOutcome .optAddrs s) :=
  .raiseIf <| .raiseIf <| .raiseIf <| .rangeCheck <| .rangeCheck <| .oneWrite (by simp; omega)

theorem optLease_writes (s : State) :
    WritesSatisfy (OneWrite s.latch.a2.toNat 18) (commandOutcome .optLease s) :=
  .rangeCheck <| .oneWrite (leaseRecords_length _)

theorem dhcpEncode_writes (s : State) :
    WritesSatisfy (OneWrite s.latch.a2.toNat (244 + s.latch.a1.toNat)) (commandOutcome .dhcpEncode s) :=
  .rangeCheck <| .rangeCheck <| .oneWrite (by simp [dhcpMessage_length])

/-- The option table has 4 bytes for each record the scan found (R97, R98). -/
theorem dhcpDecode_writes {s : State} {r : OptScan}
    (hscan : scanOptions s.params.padMode (s.memRead s.latch.a0.toNat s.latch.a1.toNat) s.latch.a0.toNat = .ok r) :
    WritesSatisfy (OneWrite s.latch.a2.toNat (4 * r.entries.length)) (commandOutcome .dhcpDecode s) := by
  refine .rangeCheck <| .raiseIf <| .raiseIf <| .raiseIf <| .bind fun found hfound => .rangeCheck <| .oneWrite ?_
  have hsame : found = r := Except.ok.inj (hfound.symm.trans hscan)
  rw [hsame, optTable_length]

/-- A command with one write leaves every byte outside the written region, and by failing leaves all. -/
theorem exec_readByte_outside {i : Instr} {s t : State} {dst len a : Nat} (h : exec i s = .next t)
    (hwrite : WritesSatisfy (OneWrite dst len) (commandOutcome i s)) (ha : a < dst ∨ dst + len ≤ a) :
    t.readByte a = s.readByte a := by
  rcases exec_eq_next h with ⟨⟨res, ws⟩, he, rfl, -⟩ | ⟨c, -, rfl, -⟩
  · obtain ⟨out, rfl, rfl⟩ : OneWrite dst len ws := hwrite _ he
    rw [succeed_stored s res dst out a, if_neg (by omega)]
  · rfl

/-- Settles O15: each of these commands makes one write, at `L2`, of the length its rule gives. -/
theorem storingCommandsKeepOtherBytes : Obligations.StoringCommandsKeepOtherBytes := by
  intro i s t a len h hlen
  refine exec_readByte_outside h ?_
  rcases hlen with ⟨rfl, rfl⟩ | ⟨rfl, rfl⟩ | ⟨rfl, rfl⟩ | ⟨rfl, rfl⟩ | ⟨rfl, rfl⟩ | ⟨rfl, rfl⟩ | ⟨rfl, r, hscan, rfl⟩
  · exact ipBuild_writes s
  · exact udpBuild_writes s
  · exact udpipBuild_writes s
  · exact optAddrs_writes s
  · exact optLease_writes s
  · exact dhcpEncode_writes s
  · exact dhcpDecode_writes hscan

end Sys2Proof.Machine
end

section
/-! The command word (30_encoding.md R43, R44, R45): decoding said in terms of the two fields of a word and the opcode of
a command, and what an illegal word does. -/

namespace Sys2Proof.Machine

/-! ### The opcode map -/

/-- The laws of `Sys2Proof.Laws.Encoding`, for every command. -/
theorem encoding_statement (i : Instr) : Laws.Encoding.Statement i := by
  cases i
  case nop => exact Laws.Encoding.nop
  case csum => exact Laws.Encoding.csum
  case csumVerify => exact Laws.Encoding.csumVerify
  case csumUdp => exact Laws.Encoding.csumUdp
  case ipBuild => exact Laws.Encoding.ipBuild
  case udpBuild => exact Laws.Encoding.udpBuild
  case udpipBuild => exact Laws.Encoding.udpipBuild
  case ipDecode => exact Laws.Encoding.ipDecode
  case udpDecode => exact Laws.Encoding.udpDecode
  case udpipDecode => exact Laws.Encoding.udpipDecode
  case dhcpDecode => exact Laws.Encoding.dhcpDecode
  case dhcpEncode => exact Laws.Encoding.dhcpEncode
  case optAddrs => exact Laws.Encoding.optAddrs
  case optLease => exact Laws.Encoding.optLease

/-- Each row of the map holds the opcode of its command. -/
theorem fst_of_mem_opcodeMap : ∀ p ∈ opcodeMap, p.1 = (opcodeOf p.2).toNat := by decide

theorem encode_eq_opcodeOf (i : Instr) : encode i = (opcodeOf i).setWidth 32 := by cases i <;> rfl

theorem opField_eq_extract (w : Word) : opField w = (w.extractLsb' 0 8).toNat := by
  simp [opField, BitVec.extractLsb'_toNat]

theorem rsvdField_eq_zero_iff (w : Word) : rsvdField w = 0 ↔ w.extractLsb' 8 24 = 0 := by
  have htoNat : (w.extractLsb' 8 24).toNat = rsvdField w := by
    rw [BitVec.extractLsb'_toNat, Nat.shiftRight_eq_div_pow, rsvdField]
    omega
  rw [← htoNat]
  exact BitVec.toNat_inj (y := 0#24)

theorem opField_encode (i : Instr) : opField (encode i) = (opcodeOf i).toNat := by
  have hlt : (opcodeOf i).toNat < 256 := (opcodeOf i).isLt
  rw [encode_eq_opcodeOf, opField, BitVec.toNat_setWidth_of_le (by decide), Nat.mod_eq_of_lt hlt]

/-- The map gives a command for its opcode and for no other number (R44). -/
theorem opcodeMap_lookup_eq_some {n : Nat} {i : Instr} :
    opcodeMap.lookup n = some i ↔ n = (opcodeOf i).toNat := by
  constructor
  · intro h
    obtain ⟨before, after, hsplit, -⟩ := List.lookup_eq_some_iff.mp h
    exact fst_of_mem_opcodeMap (n, i) (by simp [hsplit])
  · rintro rfl
    rw [← opField_encode]
    obtain ⟨-, -, hrow⟩ := encoding_statement i
    exact hrow

/-! ### Decoding -/

theorem decode_eq_ok {w : Word} {i : Instr} :
    decode w = .ok i ↔ rsvdField w = 0 ∧ opField w = (opcodeOf i).toNat := by
  rw [← opcodeMap_lookup_eq_some]
  unfold decode
  by_cases hrsvd : rsvdField w = 0
  · cases opcodeMap.lookup (opField w) with
    | none => simp [hrsvd]
    | some j => simp [hrsvd]
  · simp [hrsvd]

theorem decode_encode (i : Instr) : decode (encode i) = .ok i := by
  obtain ⟨-, hrsvd, -⟩ := encoding_statement i
  exact decode_eq_ok.mpr ⟨hrsvd, opField_encode i⟩

/-- A word is its two fields (R43). -/
theorem eq_of_opField_of_rsvdField {v w : Word} (hop : opField v = opField w) (hrsvd : rsvdField v = rsvdField w) :
    v = w :=
  BitVec.eq_of_toNat_eq (by unfold opField rsvdField at *; omega)

theorem encode_eq_of_decode {w : Word} {i : Instr} (h : decode w = .ok i) : encode i = w := by
  obtain ⟨hrsvd, hop⟩ := decode_eq_ok.mp h
  obtain ⟨hrsvd', hop'⟩ := decode_eq_ok.mp (decode_encode i)
  exact eq_of_opField_of_rsvdField (hop'.trans hop.symm) (hrsvd'.trans hrsvd.symm)

/-- The selection rule of R44, with the fields as bit vectors. -/
theorem decode_eq_ok_iff_extract (w : Word) (i : Instr) :
    decode w = .ok i ↔ w.extractLsb' 8 24 = 0 ∧ w.extractLsb' 0 8 = opcodeOf i := by
  rw [decode_eq_ok, rsvdField_eq_zero_iff, opField_eq_extract, BitVec.toNat_inj]

/-- Settles O2: decoding is the selection rule, and a word is its two fields. -/
theorem decodeAndEncodeAgree : Obligations.DecodeAndEncodeAgree :=
  ⟨decode_encode, fun _ _ => encode_eq_of_decode, decode_eq_ok_iff_extract⟩

/-- Settles O1: each word written out is the encoding of its command. -/
theorem specWordsDecode : Obligations.SpecWordsDecode :=
  ⟨decode_encode .nop, decode_encode .csum, decode_encode .csumVerify, decode_encode .csumUdp, decode_encode .ipBuild,
    decode_encode .udpBuild, decode_encode .udpipBuild, decode_encode .ipDecode, decode_encode .udpDecode,
    decode_encode .udpipDecode, decode_encode .dhcpDecode, decode_encode .dhcpEncode, decode_encode .optAddrs,
    decode_encode .optLease⟩

/-! ### Illegal words -/

/-- The opcodes that R45 lists as none of the fourteen. -/
def UnassignedOpcode (n : Nat) : Prop :=
  (0x04 ≤ n ∧ n ≤ 0x0F) ∨ (0x13 ≤ n ∧ n ≤ 0x17) ∨ (0x1B ≤ n ∧ n ≤ 0x1F) ∨ (0x22 ≤ n ∧ n ≤ 0x27) ∨ 0x2A ≤ n

theorem illegalWord_iff (w : Word) :
    IllegalWord w ↔ w.extractLsb' 8 24 ≠ 0 ∨ UnassignedOpcode (w.extractLsb' 0 8).toNat := Iff.rfl

theorem not_unassignedOpcode_opcodeOf (i : Instr) : ¬ UnassignedOpcode (opcodeOf i).toNat := by
  unfold UnassignedOpcode
  cases i <;> decide

/-- A number outside the ranges of R45 stands in the opcode map. -/
theorem exists_mem_opcodeMap {n : Nat} (h : ¬ UnassignedOpcode n) : ∃ p ∈ opcodeMap, p.1 = n := by
  simp only [UnassignedOpcode] at h
  simp only [opcodeMap, List.exists_mem_cons_iff, List.not_mem_nil, false_and, exists_false, or_false]
  omega

theorem exists_opcodeOf_iff (op : BitVec 8) : (∃ i, op = opcodeOf i) ↔ ¬ UnassignedOpcode op.toNat := by
  constructor
  · rintro ⟨i, rfl⟩
    exact not_unassignedOpcode_opcodeOf i
  · intro h
    obtain ⟨p, hp, hop⟩ := exists_mem_opcodeMap h
    exact ⟨p.2, BitVec.eq_of_toNat_eq (hop.symm.trans (fst_of_mem_opcodeMap p hp))⟩

/-- The words that decode to a command are those R45 does not list. -/
theorem exists_decode_iff_not_illegalWord (w : Word) : (∃ i, decode w = .ok i) ↔ ¬ IllegalWord w := by
  simp only [decode_eq_ok_iff_extract, exists_and_left, exists_opcodeOf_iff, illegalWord_iff, not_or, not_not]

/-- A word written to `CMD` while BUSY = 0 is started as a command, whatever it is (R58). -/
theorem hostAccess_writeCmd_of_idle {s : State} (w : Word) (hidle : s.status.busy = false) :
    hostAccess s { kind := .write w, bits := 32, off := 0x00C } = s.startCommand w := by
  rw [hostAccess_writeReg (r := .cmd) w (by decide) (by decide) rfl]
  simp [writeReg, State.requestCommand, hidle]

/-- A pending word that decodes to no command is completed with BADCMD (R63). -/
theorem performStep_of_not_decode {s : State} (h : ¬ ∃ i, decode s.cmdLast = .ok i) :
    performStep s = .next (s.afterError .badCmd) := by
  unfold performStep
  split
  · exact absurd ⟨_, ‹_›⟩ h
  · rfl

/-- Settles O3: the ranges of R45 leave exactly the opcodes of the map; the start does not look at the word. -/
theorem illegalWordsCompleteWithBadCmd : Obligations.IllegalWordsCompleteWithBadCmd := by
  intro w
  refine ⟨exists_decode_iff_not_illegalWord w, fun hillegal => ⟨fun s hidle => ?_, ?_⟩⟩
  · exact hostAccess_writeCmd_of_idle w hidle
  · rintro s rfl
    exact performStep_of_not_decode fun hlegal => (exists_decode_iff_not_illegalWord s.cmdLast).mp hlegal hillegal

end Sys2Proof.Machine
end

section
/-! What the lines of a host script stand for (30_encoding.md R57). -/

namespace Sys2Proof.Machine

/-! ### The cells of a byte sequence -/

@[simp] theorem Memory.cells_length (a : Nat) (bs : List Byte) : (Memory.cells a bs).length = bs.length := by
  induction bs generalizing a with
  | nil => rfl
  | cons b rest ih => simp [Memory.cells, ih]

/-- The `k`-th cell holds the `k`-th byte, at the `k`-th address. -/
theorem Memory.cells_getElem? (a : Nat) (bs : List Byte) (k : Nat) :
    (Memory.cells a bs)[k]? = bs[k]?.map fun b => (a + k, b) := by
  induction bs generalizing a k with
  | nil => simp [Memory.cells]
  | cons b rest ih =>
    cases k with
    | zero => simp [Memory.cells]
    | succ k => simp [Memory.cells, ih, Nat.add_right_comm, Nat.add_assoc]

/-! ### The lines -/

/-- `WB` writes the `k`-th byte in its `k`-th access, at the `k`-th address. -/
theorem expandLine_wb_getElem? (addr : Nat) {bytes : List Byte} {k : Nat} (h : k < bytes.length) :
    (expandLine (.wb addr bytes))[k]? = some (write8 (addr + k) (bytes.getD k 0)) := by
  rw [expandLine, List.getElem?_map, Memory.cells_getElem?, List.getElem?_eq_getElem h, List.getD_eq_getElem _ _ h]
  rfl

theorem expandLine_rb_getElem? (addr : Nat) {count k : Nat} (h : k < count) :
    (expandLine (.rb addr count))[k]? = some (read8 (addr + k)) := by
  simp [expandLine, h]

/-- `RUN` writes the arguments in their order, then the opcode, then waits. -/
theorem expandLine_run (i : Instr) (args : List (Fin 11 × Word)) :
    expandLine (.run i args) =
      args.map (fun p => write32 (0x020 + 4 * p.1.val) p.2) ++ [write32 0x00C ((opcodeOf i).setWidth 32), .wait] := by
  rw [← encode_eq_opcodeOf]
  rfl

/-- Settles O59: a line that names a register is one access at its offset; the lines of several accesses are read off
their `k`-th element. -/
theorem scriptLinesExpand : Obligations.ScriptLinesExpand := by
  refine ⟨fun v => ⟨?_, fun i => ⟨rfl, rfl⟩, fun i => ⟨rfl, rfl⟩⟩, fun off v => rfl, fun off => rfl,
    fun addr bytes k => ⟨?_, expandLine_wb_getElem? addr⟩, fun addr count k => ⟨?_, expandLine_rb_getElem? addr⟩,
    rfl, expandLine_run, rfl, ?_⟩
  · intro r off hreg
    simp only [List.mem_cons, List.not_mem_nil, or_false, Prod.mk.injEq] at hreg
    rcases hreg with ⟨rfl, rfl⟩ | ⟨rfl, rfl⟩ | ⟨rfl, rfl⟩ | ⟨rfl, rfl⟩ | ⟨rfl, rfl⟩ <;> exact ⟨rfl, rfl⟩
  · simp [expandLine]
  · simp [expandLine]
  · intro b
    cases b <;> rfl

end Sys2Proof.Machine
end

section
/-! The command handshake (40_command.md R58 to R63, R66): what a request does, which agent moves next, what the perform
step completes and leaves alone, and that a pending command is performed. -/

namespace Sys2Proof.Machine

/-! ### Command requests -/

/-- Settles O8: the write is a request to an idle block, which starts the word whatever it is. -/
theorem commandStartLatchesArguments : Obligations.CommandStartLatchesArguments :=
  fun _ w hidle => hostAccess_writeCmd_of_idle w hidle

/-- A word written to `CMD` while BUSY = 1 is dropped, whatever it is (R59). -/
theorem hostAccess_writeCmd_of_busy {s : State} (w : Word) (hbusy : s.status.busy = true) :
    hostAccess s { kind := .write w, bits := 32, off := 0x00C } = s.dropCommand := by
  rw [hostAccess_writeReg (r := .cmd) w (by decide) (by decide) rfl]
  simp [writeReg, State.requestCommand, hbusy]

/-- Settles O9: the write is a request to a busy block, which drops the word whatever it is. -/
theorem requestWhileBusyIsDropped : Obligations.RequestWhileBusyIsDropped :=
  fun _ w hbusy => hostAccess_writeCmd_of_busy w hbusy

/-! ### What a perform step completes -/

/-- Settles O16: NOP keeps the result registers and schedules no write, so its completion changes `STATUS` alone. -/
theorem nopCompletes : Obligations.NopCompletes :=
  ⟨decode_encode .nop, fun s => exec_eq_finish .nop s⟩

/-- Settles O10: a command succeeds with results and stores of its own or fails with neither, and either completion
keeps DROP. -/
theorem commandsChangeOnlyResultsBufferStatus : Obligations.CommandsChangeOnlyResultsBufferStatus := by
  intro i s t h
  rcases exec_eq_next h with ⟨e, -, rfl, -⟩ | ⟨c, -, rfl, -⟩
  · exact ⟨rfl, rfl, rfl, rfl⟩
  · exact ⟨rfl, rfl, rfl, rfl⟩

theorem performStep_of_decode {s : State} {i : Instr} (h : decode s.cmdLast = .ok i) : performStep s = exec i s := by
  simp [performStep, h]

/-- Every perform step answers a next state, of a command and of an illegal word alike. -/
theorem performStep_next (s : State) : ∃ t, performStep s = .next t := by
  by_cases h : ∃ i, decode s.cmdLast = .ok i
  · obtain ⟨i, hi⟩ := h
    rw [performStep_of_decode hi]
    exact exec_next i s
  · exact ⟨_, performStep_of_not_decode h⟩

/-- Every perform step ends with BUSY = 0 and DONE = 1 (R61). -/
theorem performStep_completes (s : State) :
    ∃ t, performStep s = .next t ∧ t.status.busy = false ∧ t.status.done = true := by
  obtain ⟨t, ht⟩ := performStep_next s
  refine ⟨t, ht, ?_⟩
  rcases performStep_eq_next ht with ⟨e, rfl, -⟩ | ⟨c, rfl, -⟩
  · exact ⟨rfl, rfl⟩
  · exact ⟨rfl, rfl⟩

/-! ### Where the engine moves -/

theorem step_of_mover_engine {s : State} (h : mover s = some .engine) : step s = performStep s.advance := by
  simp [step, h]

/-- Settles O4: the engine's step is `performStep` on the advanced state, whose command word is still the pending
one. -/
theorem stepRunsDecodedCommand : Obligations.StepRunsDecodedCommand := by
  intro s hmover
  rw [step_of_mover_engine hmover]
  exact ⟨fun i hi => performStep_of_decode (s := s.advance) hi,
    fun hillegal => performStep_of_not_decode (s := s.advance) (not_exists.mpr hillegal)⟩

/-- Settles O6: an agent that moves has a step, which the engine has exactly while BUSY = 1; its step is a perform
step. -/
theorem performStepCompletes : Obligations.PerformStepCompletes := by
  intro s hmover
  refine ⟨mover_enabled hmover, ?_⟩
  rw [step_of_mover_engine hmover]
  exact performStep_completes s.advance

/-! ### Where no agent moves -/

theorem agenda_eq_nil_iff (s : State) : agenda s = [] ↔ ∀ x ∈ s.sched, enabled s x = false := by
  simp [agenda]

/-- No agent moves where the host and the engine have no step and no reset is to come (R60). -/
theorem mover_eq_none_iff (s : State) :
    mover s = none ↔ s.status.busy = false ∧ s.script = [] ∧ Slot.reset ∉ s.sched := by
  have hidle : mover s = none ↔ agenda s = [] ∧ s.status.busy = false ∧ s.script = [] := by
    unfold mover
    cases agenda s <;> cases s.status.busy <;> simp
  rw [hidle, agenda_eq_nil_iff]
  constructor
  · rintro ⟨hagenda, hbusy, hscript⟩
    exact ⟨hbusy, hscript, fun hmem => nomatch hagenda _ hmem⟩
  · rintro ⟨hbusy, hscript, hreset⟩
    refine ⟨fun x hx => ?_, hbusy, hscript⟩
    cases x with
    | host => simp [enabled, hscript]
    | engine => exact hbusy
    | reset => exact absurd hx hreset

/-- A step is a next state where an agent moves, and the fault `idle` where none does. -/
theorem step_cases (s : State) :
    (mover s = none ∧ step s = .fault .idle) ∨ (mover s ≠ none ∧ ∃ t, step s = .next t) := by
  cases hmover : mover s with
  | none => exact .inl ⟨rfl, by simp [step, hmover]⟩
  | some x =>
    refine .inr ⟨nofun, ?_⟩
    cases x with
    | host => exact ⟨_, step_of_mover_host hmover⟩
    | engine =>
      rw [step_of_mover_engine hmover]
      exact performStep_next s.advance
    | reset => exact ⟨s.advance.assertReset, by simp [step, hmover]⟩

/-- Settles O7: the only stop is `idle`, where no agent moves. -/
theorem stepStopsExactlyWhenIdle : Obligations.StepStopsExactlyWhenIdle := by
  intro s
  rw [← mover_eq_none_iff]
  rcases step_cases s with ⟨hmover, hstep⟩ | ⟨hmover, t, hstep⟩
  · simp [hmover, hstep]
  · simp [hmover, hstep]

/-! ### Progress of a pending command -/

theorem agenda_sublist (s : State) : (agenda s).Sublist s.sched := List.dropWhile_sublist _

@[simp] theorem hostAccess_sched (s : State) (acc : HostAccess) : (hostAccess s acc).sched = s.sched := by
  rw [hostAccess_frame]

@[simp] theorem hostStep_sched (s : State) : (hostStep s).sched = s.sched := by
  rcases hostStep_cases s with h | ⟨rest, acc, h⟩ | ⟨rest, v, h⟩ <;> simp [h]

/-- No host step ends a pending command. -/
theorem hostStep_busy {s : State} (hbusy : s.status.busy = true) : (hostStep s).status.busy = true := by
  rcases hostStep_cases s with h | ⟨rest, acc, h⟩ | ⟨rest, v, h⟩
  · rwa [h]
  · rw [h]
    rcases hostAccess_start { s with script := rest } acc with ⟨-, -, hsame⟩ | ⟨-, w, hstart⟩
    · exact hsame.trans hbusy
    · rw [hstart]; rfl
  · rwa [h]

/-- While a command is pending and no reset is to come, the engine moves, or the host does and uses up a slot:
with none left the engine comes before the host (log 1). -/
theorem mover_of_busy {s : State} (hbusy : s.status.busy = true) (hreset : Slot.reset ∉ s.sched) :
    mover s = some .engine ∨ (mover s = some .host ∧ (agenda s).tail.length < s.sched.length) := by
  have hsub := agenda_sublist s
  unfold mover
  cases hagenda : agenda s with
  | nil => simp [hbusy]
  | cons x rest =>
    rw [hagenda] at hsub
    cases x with
    | host => exact .inr ⟨rfl, hsub.length_le⟩
    | engine => exact .inl rfl
    | reset => exact absurd (hsub.subset List.mem_cons_self) hreset

theorem run_succ_of_step {M : Host.Core} {s t : M.State} (h : M.step s = .next t) (k : Nat) :
    M.run (k + 1) s = M.run k t := by
  simp only [Host.Core.run, h]

/-- Settles O58, by induction on the length of the interleaving: a host step leaves the command pending and a shorter
interleaving, and the engine's step completes it. -/
theorem pendingCommandCompletes : Obligations.PendingCommandCompletes := by
  intro s hbusy hreset
  induction hlen : s.sched.length using Nat.strong_induction_on generalizing s with
  | h n ih =>
    subst hlen
    rcases mover_of_busy hbusy hreset with hengine | ⟨hhost, hshorter⟩
    · obtain ⟨-, t, hstep, hdone⟩ := performStepCompletes s hengine
      exact ⟨1, by omega, t, run_succ_of_step (M := Sys2Proof.core) hstep 0, hdone⟩
    · have hkept : Slot.reset ∉ (hostStep s.advance).sched := by
        rw [hostStep_sched]
        exact fun hmem => hreset ((agenda_sublist s).subset (List.mem_of_mem_tail hmem))
      obtain ⟨k, hk, t, hrun, hdone⟩ :=
        ih _ hshorter (hostStep s.advance) (hostStep_busy hbusy) hkept (by rw [hostStep_sched]; rfl)
      have hstep := run_succ_of_step (M := Sys2Proof.core) (step_of_mover_host hhost) k
      exact ⟨k + 1, by omega, t, hstep.trans hrun, hdone⟩

end Sys2Proof.Machine
end

section
/-! The checksum functions (41_checksum.md R67 to R70, R73): the sum as the words of a sequence, the folded sum by its
residue, and what writing a byte does to them. -/

namespace Sys2Proof.Machine

/-! ### The sum of the words (R67) -/

theorem byteAt_cons_cons (x y : Byte) (b : List Byte) (i : Nat) : byteAt (x :: y :: b) (i + 2) = byteAt b i := rfl

/-- Settles O32, by the recursion of `sum16`: two bytes in front add the first word and move the others by one. -/
theorem sum16IsTheWordSum : Obligations.Sum16IsTheWordSum := by
  intro b
  induction b using sum16.induct with
  | case1 => rfl
  | case2 x => simp [sum16, byteAt]
  | case3 x y rest ih =>
    have hwords : ∑ k ∈ Finset.range (rest.length / 2 + 1), be16 (x :: y :: rest) (2 * k) =
        (∑ k ∈ Finset.range (rest.length / 2), be16 rest (2 * k)) + (x.toNat * 256 + y.toNat) :=
      Finset.sum_range_succ' _ _
    have hlast (hodd : rest.length % 2 = 1) :
        byteAt (x :: y :: rest) (rest.length + 1) = byteAt rest (rest.length - 1) := by
      obtain ⟨n, hn⟩ : ∃ n, rest.length = n + 1 := ⟨rest.length - 1, by omega⟩
      rw [hn]
      exact byteAt_cons_cons x y rest n
    rw [List.length_cons, List.length_cons, Nat.add_assoc, Nat.add_div_right _ (by decide), Nat.add_mod_right,
      Nat.add_sub_assoc (by decide), hwords, sum16, ih]
    split_ifs with hodd
    · rw [hlast hodd]; omega
    · omega

/-- Every word of a sequence is at most 0xFFFF. -/
theorem sum16_le (b : List Byte) : sum16 b ≤ (b.length + 1) / 2 * 0xFFFF := by
  induction b using sum16.induct with
  | case1 => simp [sum16]
  | case2 x =>
    have := x.isLt
    simp only [sum16, List.length_singleton]
    omega
  | case3 x y rest ih =>
    have := x.isLt
    have := y.isLt
    simp only [sum16, List.length_cons]
    omega

/-! ### The folded sum (R68) -/

theorem fold_facts (s : Nat) : fold s ≤ 0xFFFF ∧ (fold s = 0 ↔ s = 0) ∧ fold s % 0xFFFF = s % 0xFFFF :=
  foldLoop_facts (Nat.le_add_right s 0xFFFF)

theorem fold_eq_loop (s : Nat) : fold s = if 0xFFFF < s then fold (s % 0x10000 + s / 0x10000) else s := by
  calc fold s = foldLoop (s + 1) s := foldLoop_unique (by omega) (by omega)
    _ = if 0xFFFF < s then foldLoop s (s % 0x10000 + s / 0x10000) else s := rfl
    _ = if 0xFFFF < s then fold (s % 0x10000 + s / 0x10000) else s := by
      rw [fold, foldLoop_unique (f := s) (g := s % 0x10000 + s / 0x10000) (by omega) (by omega)]

/-- The first iteration leaves less than 0x20000, so the second leaves 16 bits. -/
theorem foldLoop_two {s : Nat} (h : s ≤ 32774 * 0xFFFF) : foldLoop 2 s = fold s := by
  have := fold_facts s
  simp only [foldLoop]
  split_ifs <;> omega

/-- Settles O33: the facts of the loop at a sufficient bound; 65536 + 12 bytes are at most 32774 words. -/
theorem foldRule : Obligations.FoldRule := by
  refine ⟨fun s => ⟨fold_eq_loop s, fold_facts s⟩, fun b hlength => foldLoop_two ?_⟩
  calc sum16 b ≤ (b.length + 1) / 2 * 0xFFFF := sum16_le b
    _ ≤ 32774 * 0xFFFF := Nat.mul_le_mul_right _ (by omega)

theorem fold_eq_0xFFFF_iff (s : Nat) : fold s = 0xFFFF ↔ s ≠ 0 ∧ s % 0xFFFF = 0 := by
  have := fold_facts s
  omega

/-! ### The Internet checksum and its verification (R69, R70) -/

theorem internetChecksum_eq_zero_iff (b : List Byte) : internetChecksum b = 0 ↔ fold (sum16 b) = 0xFFFF := by
  have := fold_facts (sum16 b)
  rw [internetChecksum]
  omega

theorem internetChecksum_eq_0xFFFF_iff (b : List Byte) : internetChecksum b = 0xFFFF ↔ sum16 b = 0 := by
  have := fold_facts (sum16 b)
  rw [internetChecksum]
  omega

theorem verifyChecksum_iff (b : List Byte) : verifyChecksum b = true ↔ sum16 b ≠ 0 ∧ sum16 b % 0xFFFF = 0 := by
  rw [verifyChecksum, decide_eq_true_iff, fold_eq_0xFFFF_iff]

theorem verifyChecksum_zeros (n : Nat) : verifyChecksum (List.replicate n 0) = false := by
  rw [verifyChecksum, sum16_zeros]
  rfl

/-- Settles O34: each clause is the matching fact about the folded sum. -/
theorem checksumAndVerification : Obligations.ChecksumAndVerification := by
  intro b
  refine ⟨rfl, Nat.sub_le _ _, internetChecksum_eq_zero_iff b, internetChecksum_eq_0xFFFF_iff b, ?_,
    verifyChecksum_zeros 0, verifyChecksum_zeros⟩
  rw [internetChecksum_eq_zero_iff, verifyChecksum, decide_eq_true_iff]

/-! ### Writing a byte (R73) -/

/-- What a byte at index `j` counts in the sum for each unit: a byte at an even index is a high byte. -/
def byteWeight (j : Nat) : Nat := if j % 2 = 0 then 256 else 1

@[simp] theorem byteWeight_zero : byteWeight 0 = 256 := rfl

@[simp] theorem byteWeight_one : byteWeight 1 = 1 := rfl

@[simp] theorem byteWeight_add_two (j : Nat) : byteWeight (j + 2) = byteWeight j := by simp [byteWeight]

theorem byteWeight_even (k : Nat) : byteWeight (2 * k) = 256 := by simp [byteWeight]

theorem byteWeight_odd (k : Nat) : byteWeight (2 * k + 1) = 1 := by simp [byteWeight]

/-- Writing a byte replaces its part of the sum. -/
theorem sum16_set {b : List Byte} {j : Nat} (hj : j < b.length) (v : Byte) :
    sum16 (b.set j v) + byteWeight j * byteAt b j = sum16 b + byteWeight j * v.toNat := by
  induction b using sum16.induct generalizing j with
  | case1 => simp at hj
  | case2 x =>
    obtain rfl : j = 0 := by simpa using hj
    simp only [List.set_cons_zero, sum16, byteWeight_zero, byteAt, List.getD_cons_zero]
    omega
  | case3 x y rest ih =>
    match j with
    | 0 =>
      simp only [List.set_cons_zero, sum16, byteWeight_zero, byteAt, List.getD_cons_zero]
      omega
    | 1 =>
      simp only [List.set_cons_zero, List.set_cons_succ, sum16, byteWeight_one, byteAt, List.getD_cons_zero,
        List.getD_cons_succ]
      omega
    | j + 2 =>
      have hrest := ih (j := j) (by simpa using hj)
      simp only [List.set_cons_succ, sum16, byteWeight_add_two, byteAt_cons_cons]
      omega

/-- A 16-bit value written into a zeroed field at an even index is added to the sum. -/
theorem sum16_set_half {b : List Byte} {k : Nat} (hk : 2 * k + 1 < b.length) (hhigh : byteAt b (2 * k) = 0)
    (hlow : byteAt b (2 * k + 1) = 0) {v : Nat} (hv : v ≤ 0xFFFF) :
    sum16 ((b.set (2 * k) (BitVec.ofNat 8 (v / 256))).set (2 * k + 1) (BitVec.ofNat 8 v)) = sum16 b + v := by
  have hset := sum16_set (b := b) (j := 2 * k) (by omega) (BitVec.ofNat 8 (v / 256))
  have hset' := sum16_set (b := b.set (2 * k) (BitVec.ofNat 8 (v / 256))) (j := 2 * k + 1) (by simpa using hk)
    (BitVec.ofNat 8 v)
  have hkept : byteAt (b.set (2 * k) (BitVec.ofNat 8 (v / 256))) (2 * k + 1) = 0 := by
    rw [byteAt, List.getD_eq_getElem?_getD, List.getElem?_set_ne (by omega), ← List.getD_eq_getElem?_getD]
    exact hlow
  rw [byteWeight_even, hhigh, BitVec.toNat_ofNat] at hset
  rw [byteWeight_odd, hkept, BitVec.toNat_ofNat] at hset'
  omega

/-! ### Flipping a bit (R73) -/

theorem toNat_xor_twoPow_of_clear {w m : Nat} {v : BitVec w} (hm : m < w) (hclear : v.getLsbD m = false) :
    (v ^^^ BitVec.twoPow w m).toNat = v.toNat + 2 ^ m := by
  have hdisjoint : v &&& BitVec.twoPow w m = 0#w := by simp [BitVec.and_twoPow, hclear]
  have hxor : v ^^^ BitVec.twoPow w m = v ||| BitVec.twoPow w m := by
    ext i hi
    by_cases him : i = m
    · subst him
      simp [← BitVec.getLsbD_eq_getElem, hclear]
    · simp [him]
  rw [hxor, ← BitVec.add_eq_or_of_and_eq_zero _ _ hdisjoint, BitVec.toNat_add_of_and_eq_zero hdisjoint,
    BitVec.toNat_twoPow_of_lt hm]

/-- Flipping bit `m` adds or takes away `2 ^ m`. -/
theorem toNat_xor_twoPow {w m : Nat} (v : BitVec w) (hm : m < w) :
    (v ^^^ BitVec.twoPow w m).toNat = v.toNat + 2 ^ m ∨ v.toNat = (v ^^^ BitVec.twoPow w m).toNat + 2 ^ m := by
  cases hbit : v.getLsbD m with
  | false => exact .inl (toNat_xor_twoPow_of_clear hm hbit)
  | true =>
    have hclear : (v ^^^ BitVec.twoPow w m).getLsbD m = false := by simp [hbit, hm]
    have hback := toNat_xor_twoPow_of_clear hm hclear
    rw [BitVec.xor_assoc, BitVec.xor_self, BitVec.xor_zero] at hback
    exact .inr hback

/-- Flipping one bit moves the sum by less than 0xFFFF, and not by 0. -/
theorem sum16_flip {b : List Byte} {j m : Nat} (hj : j < b.length) (hm : m < 8) :
    ∃ d, 0 < d ∧ d < 0xFFFF ∧
      (sum16 (b.set j (b.getD j 0 ^^^ BitVec.twoPow 8 m)) = sum16 b + d ∨
        sum16 b = sum16 (b.set j (b.getD j 0 ^^^ BitVec.twoPow 8 m)) + d) := by
  have hset := sum16_set hj (b.getD j 0 ^^^ BitVec.twoPow 8 m)
  have hflip := toNat_xor_twoPow (b.getD j 0) hm
  have hpos : 0 < 2 ^ m := Nat.two_pow_pos m
  have hle : 2 ^ m ≤ 2 ^ 7 := Nat.pow_le_pow_right (by decide) (by omega)
  refine ⟨byteWeight j * 2 ^ m, ?_⟩
  rw [byteAt] at hset
  obtain ⟨n, rfl | rfl⟩ := Nat.even_or_odd' j
  · rw [byteWeight_even] at hset ⊢
    omega
  · rw [byteWeight_odd] at hset ⊢
    omega

/-- Two sums closer than 0xFFFF do not both fold to 0xFFFF. -/
theorem fold_ne_0xFFFF_of_near {s t d : Nat} (hs : fold s = 0xFFFF) (hpos : 0 < d) (hlt : d < 0xFFFF)
    (hnear : t = s + d ∨ s = t + d) : fold t ≠ 0xFFFF := by
  rw [fold_eq_0xFFFF_iff] at hs
  rw [ne_eq, fold_eq_0xFFFF_iff]
  omega

theorem verifyChecksum_flip {b : List Byte} {j m : Nat} (h : verifyChecksum b = true) (hj : j < b.length)
    (hm : m < 8) : verifyChecksum (b.set j (b.getD j 0 ^^^ BitVec.twoPow 8 m)) = false := by
  obtain ⟨d, hpos, hlt, hnear⟩ := sum16_flip hj hm
  exact decide_eq_false (fold_ne_0xFFFF_of_near (of_decide_eq_true h) hpos hlt hnear)

/-- The Internet checksum fills the sum up to a multiple of 0xFFFF other than 0. -/
theorem verifyChecksum_of_sum16_eq {b c : List Byte} (h : sum16 c = sum16 b + internetChecksum b) :
    verifyChecksum c = true := by
  have := fold_facts (sum16 b)
  rw [verifyChecksum_iff, h, internetChecksum]
  omega

/-- Settles O35: the field adds the checksum to the sum, and a flip leaves the multiples of 0xFFFF. -/
theorem checksumRoundTrip : Obligations.ChecksumRoundTrip := by
  intro b c k hk hhigh hlow hc
  have hsum : sum16 c = sum16 b + internetChecksum b := by
    rw [hc]
    exact sum16_set_half hk (congrArg BitVec.toNat hhigh) (congrArg BitVec.toNat hlow) (Nat.sub_le _ _)
  have hverifies := verifyChecksum_of_sum16_eq hsum
  exact ⟨hverifies, fun _ _ hj hm => verifyChecksum_flip hverifies hj hm⟩

end Sys2Proof.Machine
end

section
/-! The commands CSUM, CSUM_VERIFY and CSUM_UDP (41_checksum.md R74 to R76). -/

namespace Sys2Proof.Machine

/-! ### The completion of an outcome (R61) -/

/-- A command that goes through without a write changes the result registers and `STATUS` alone. -/
theorem exec_of_ok_of_no_writes {i : Instr} {s : State} {res : ResFile}
    (h : commandOutcome i s = .ok { res := res, writes := [] }) : exec i s = .next (s.afterSuccess res s.mem) := by
  rw [exec_eq_finish, h, finish_ok, succeed_eq_afterSuccess, Memory.storeAll_nil]

theorem exec_of_error {i : Instr} {s : State} {c : ErrCode} (h : commandOutcome i s = .error c) :
    exec i s = .next (s.afterError c) := by
  rw [exec_eq_finish, h, finish_error, fail_eq_afterError]

/-! ### The commands -/

/-- Settles O17: the range check decides between the two ends. -/
theorem csumResult : Obligations.CsumResult := by
  refine ⟨decode_encode .csum, ?_⟩
  rintro s _ _ rfl rfl
  exact ⟨fun hin => exec_of_ok_of_no_writes (rangeCheck_pass _ hin),
    fun hout => exec_of_error (rangeCheck_fail _ hout)⟩

/-- Settles O18: the range check decides between the two ends; a region that does not verify passes it too. -/
theorem csumVerifyResult : Obligations.CsumVerifyResult := by
  refine ⟨decode_encode .csumVerify, ?_⟩
  rintro s _ _ rfl rfl
  exact ⟨fun hin => exec_of_ok_of_no_writes (rangeCheck_pass _ hin),
    fun hout => exec_of_error (rangeCheck_fail _ hout)⟩

/-- Settles O19: the range check, then the length check; the sum with the pseudo-header is `udpSum_eq`. -/
theorem csumUdpResult : Obligations.CsumUdpResult := by
  refine ⟨decode_encode .csumUdp, ?_⟩
  rintro s _ _ rfl rfl
  refine ⟨fun hin hshort => ?_, fun hout => exec_of_error (rangeCheck_fail _ hout), fun hin hlong => ?_⟩
  · rw [← udpSum_eq]
    exact exec_of_ok_of_no_writes
      (rangeCheck_eq_ok.mpr ⟨hin, raiseIf_eq_ok.mpr ⟨decide_eq_false (Nat.not_lt.mpr hshort), rfl⟩⟩)
  · exact exec_of_error
      (rangeCheck_eq_error.mpr (.inr ⟨hin, raiseIf_eq_error.mpr (.inl ⟨decide_eq_true hlong, rfl⟩)⟩))

end Sys2Proof.Machine
end

section
/-! The builders IP_BUILD, UDP_BUILD and UDPIP_BUILD (42_framer.md R77, R78, R81 to R83): their common form, a datagram
written behind three checks. -/

namespace Sys2Proof.Machine

/-! ### The completion of an outcome with one write (R28, R61) -/

/-- A command that goes through with one write changes the result registers, `STATUS` and the written region alone. -/
theorem exec_of_ok_of_write {i : Instr} {s : State} {res : ResFile} {dst : Nat} {out : List Byte}
    (h : commandOutcome i s = .ok { res := res, writes := [(dst, out)] }) :
    ∃ t, exec i s = .next t ∧ t = s.afterSuccess res t.mem ∧ Stored s t dst out :=
  ⟨s.succeed { res := res, writes := [(dst, out)] }, by rw [exec_eq_finish, h, finish_ok], rfl,
    succeed_stored s res dst out⟩

/-- A command that answers a state without ERR went through. -/
theorem commandOutcome_ok_of_exec {i : Instr} {s t : State} (h : exec i s = .next t) (herr : t.status.err = false) :
    ∃ e, commandOutcome i s = .ok e ∧ t = s.succeed e := by
  rcases exec_eq_next h with ⟨e, he, rfl, -⟩ | ⟨c, -, rfl, -⟩
  · exact ⟨e, he, rfl⟩
  · exact absurd herr (by simp)

/-! ### The common form of the builders -/

/-- On `s` the command `i` is a builder: it checks the input region, the length `len` of what it makes, and the output
region, in that order, and then writes `out` at `L2` and leaves the result registers `res`. -/
def Builds (i : Instr) (s : State) (len : Nat) (res : ResFile) (out : List Byte) : Prop :=
  commandOutcome i s =
    rangeCheck s s.latch.a0.toNat s.latch.a1.toNat (raiseIf (decide (0xFFFF < len)) .tooLong
      (rangeCheck s s.latch.a2.toNat len (.ok { res := res, writes := [(s.latch.a2.toNat, out)] })))

section
variable {i : Instr} {s : State} {len : Nat} {res : ResFile} {out : List Byte}

theorem Builds.success (h : Builds i s len res out)
    (hin : s.latch.a0.toNat + s.latch.a1.toNat ≤ s.params.memBytes) (hlen : len ≤ 0xFFFF)
    (hout : s.latch.a2.toNat + len ≤ s.params.memBytes) :
    ∃ t, exec i s = .next t ∧ t = s.afterSuccess res t.mem ∧ Stored s t s.latch.a2.toNat out := by
  refine exec_of_ok_of_write ?_
  rw [h, rangeCheck_pass _ hin, decide_eq_false (Nat.not_lt.mpr hlen), raiseIf_false, rangeCheck_pass _ hout]

theorem Builds.inputOutside (h : Builds i s len res out)
    (hin : s.params.memBytes < s.latch.a0.toNat + s.latch.a1.toNat) : exec i s = .next (s.afterError .range) :=
  exec_of_error (h.trans (rangeCheck_fail _ hin))

theorem Builds.tooLong (h : Builds i s len res out)
    (hin : s.latch.a0.toNat + s.latch.a1.toNat ≤ s.params.memBytes) (hlen : 0xFFFF < len) :
    exec i s = .next (s.afterError .tooLong) := by
  refine exec_of_error ?_
  rw [h, rangeCheck_pass _ hin, decide_eq_true hlen, raiseIf_true]

theorem Builds.outputOutside (h : Builds i s len res out)
    (hin : s.latch.a0.toNat + s.latch.a1.toNat ≤ s.params.memBytes) (hlen : len ≤ 0xFFFF)
    (hout : s.params.memBytes < s.latch.a2.toNat + len) : exec i s = .next (s.afterError .range) := by
  refine exec_of_error ?_
  rw [h, rangeCheck_pass _ hin, decide_eq_false (Nat.not_lt.mpr hlen), raiseIf_false, rangeCheck_fail _ hout]

/-- What a builder did that ended without error: its length and output region passed, and it wrote `out`. -/
theorem Builds.of_exec (h : Builds i s len res out) {t : State} (hexec : exec i s = .next t)
    (herr : t.status.err = false) :
    len ≤ 0xFFFF ∧ s.latch.a2.toNat + len ≤ s.params.memBytes ∧ t.params = s.params ∧ t.res = res ∧
      Stored s t s.latch.a2.toNat out := by
  obtain ⟨e, he, rfl⟩ := commandOutcome_ok_of_exec hexec herr
  obtain ⟨-, hrest⟩ := rangeCheck_eq_ok.mp (h.symm.trans he)
  obtain ⟨hlen, hrest⟩ := raiseIf_eq_ok.mp hrest
  obtain ⟨hout, heffect⟩ := rangeCheck_eq_ok.mp hrest
  cases heffect
  exact ⟨Nat.not_lt.mp (of_decide_eq_false hlen), hout, rfl, rfl, succeed_stored s res _ out⟩

end

/-! ### The commands -/

theorem ipBuild_builds (s : State) :
    Builds .ipBuild s (20 + s.latch.a1.toNat)
      { s.res with
        r0 := BitVec.ofNat 32 (20 + s.latch.a1.toNat)
        r1 := BitVec.ofNat 32 (ipChecksumOf (20 + s.latch.a1.toNat) (s.latch.a5.extractLsb' 0 8)
          (s.latch.a5.extractLsb' 8 8) s.latch.a3 s.latch.a4) }
      (ipDatagram (s.memRead s.latch.a0.toNat s.latch.a1.toNat) (s.latch.a5.extractLsb' 0 8)
        (s.latch.a5.extractLsb' 8 8) s.latch.a3 s.latch.a4) := by
  simp only [Builds, commandOutcome, ipBuildOutcome, field_byte0, field_byte1, buildIPv4_eq, State.memRead_length, word]

/-- The UDP datagram that UDP_BUILD and UDPIP_BUILD make of their arguments (R78). -/
def State.builtUdp (s : State) : List Byte :=
  udpDatagramOf s.params.udpTxZeroSubst (s.memRead s.latch.a0.toNat s.latch.a1.toNat) (s.latch.a6.extractLsb' 0 16)
    (s.latch.a6.extractLsb' 16 16) s.latch.a3 s.latch.a4

/-- The checksum field of that datagram. -/
def State.builtUdpChecksum (s : State) : Nat :=
  udpChecksumOf s.params.udpTxZeroSubst (s.memRead s.latch.a0.toNat s.latch.a1.toNat) (s.latch.a6.extractLsb' 0 16)
    (s.latch.a6.extractLsb' 16 16) s.latch.a3 s.latch.a4

@[simp] theorem State.builtUdp_length (s : State) : s.builtUdp.length = 8 + s.latch.a1.toNat := by
  rw [State.builtUdp, udpDatagramOf_length, State.memRead_length]

theorem State.buildUDP_eq_built (s : State) :
    buildUDP s.params.udpTxZeroSubst (s.memRead s.latch.a0.toNat s.latch.a1.toNat) (field s.latch.a6 15 0)
      (field s.latch.a6 31 16) s.latch.a3.toNat s.latch.a4.toNat = (s.builtUdp, s.builtUdpChecksum) := by
  rw [field_half0, field_half1, buildUDP_eq, State.builtUdp, State.builtUdpChecksum]

theorem udpBuild_builds (s : State) :
    Builds .udpBuild s (8 + s.latch.a1.toNat)
      { s.res with
        r0 := BitVec.ofNat 32 (8 + s.latch.a1.toNat)
        r1 := BitVec.ofNat 32 s.builtUdpChecksum }
      s.builtUdp := by
  simp only [Builds, commandOutcome, udpBuildOutcome, State.buildUDP_eq_built, word]

/-- `buildIPv4_eq` for the protocol 17 of UDPIP_BUILD. -/
theorem buildIPv4_udp (u : List Byte) (ttl : Byte) (srcIP dstIP : Word) :
    buildIPv4 u 17 ttl.toNat srcIP.toNat dstIP.toNat =
      (ipDatagram u 17 ttl srcIP dstIP, ipChecksumOf (20 + u.length) 17 ttl srcIP dstIP) :=
  buildIPv4_eq u 17 ttl srcIP dstIP

theorem udpipBuild_builds (s : State) :
    Builds .udpipBuild s (28 + s.latch.a1.toNat)
      { s.res with
        r0 := BitVec.ofNat 32 (28 + s.latch.a1.toNat)
        r1 := BitVec.ofNat 32 (ipChecksumOf (28 + s.latch.a1.toNat) 17 (s.latch.a5.extractLsb' 8 8) s.latch.a3
          s.latch.a4)
        r2 := BitVec.ofNat 32 s.builtUdpChecksum }
      (ipDatagram s.builtUdp 17 (s.latch.a5.extractLsb' 8 8) s.latch.a3 s.latch.a4) := by
  have htotal : 20 + s.builtUdp.length = 28 + s.latch.a1.toNat := by rw [s.builtUdp_length]; omega
  simp only [Builds, commandOutcome, udpipBuildOutcome, State.buildUDP_eq_built, field_byte1,
    buildIPv4_udp, htotal, word]

/-- Settles O20: IP_BUILD is a builder of `20 + n` bytes. -/
theorem ipBuildResult : Obligations.IpBuildResult := by
  refine ⟨decode_encode .ipBuild, ?_⟩
  rintro s _ _ _ _ _ rfl rfl rfl rfl rfl
  have h := ipBuild_builds s
  exact ⟨h.success, h.inputOutside, h.tooLong, h.outputOutside⟩

/-- Settles O21: UDP_BUILD is a builder of `8 + n` bytes. -/
theorem udpBuildResult : Obligations.UdpBuildResult := by
  refine ⟨decode_encode .udpBuild, ?_⟩
  rintro s _ _ _ _ _ rfl rfl rfl rfl rfl
  have h := udpBuild_builds s
  exact ⟨h.success, h.inputOutside, h.tooLong, h.outputOutside⟩

/-- Settles O22: UDPIP_BUILD is a builder of `28 + n` bytes. -/
theorem udpipBuildResult : Obligations.UdpipBuildResult := by
  refine ⟨decode_encode .udpipBuild, ?_⟩
  rintro s _ _ _ _ _ _ _ rfl rfl rfl rfl rfl rfl rfl
  have h := udpipBuild_builds s
  exact ⟨h.success, h.inputOutside, h.tooLong, h.outputOutside⟩

end Sys2Proof.Machine
end

section
/-! The decoders IP_DECODE, UDP_DECODE and UDPIP_DECODE (42_framer.md R79, R80, R84 to R86): the functions `decodeIPv4`
and `decodeUDP` check by check, and the completions they lead to. -/

namespace Sys2Proof.Machine

theorem raiseIf_pass {α : Type} {p : Prop} [Decidable p] (h : ¬ p) (c : ErrCode) (k : Except ErrCode α) :
    raiseIf (decide p) c k = k := by
  rw [decide_eq_false h, raiseIf_false]

theorem raiseIf_stop {α : Type} {p : Prop} [Decidable p] (h : p) (c : ErrCode) (k : Except ErrCode α) :
    raiseIf (decide p) c k = .error c := by
  rw [decide_eq_true h, raiseIf_true]

theorem slice_zero (b : List Byte) (j : Nat) : slice b 0 j = b.take j := rfl

theorem slice_eq_drop_take (b : List Byte) (i j : Nat) : slice b i j = (b.take j).drop i := List.drop_take.symm

/-! ### `DecodeIPv4` (R79) -/

/-- The fields that R79 reads from a datagram. -/
def ipFields (d : List Byte) : Ipv4Fields :=
  { hl := 4 * (byteAt d 0 % 16), ihl := byteAt d 0 % 16, tl := be16 d 2, tos := byteAt d 1, ident := be16 d 4,
    ff := be16 d 6, ttl := byteAt d 8, proto := byteAt d 9, cs := be16 d 10, src := be32 d 12, dst := be32 d 16,
    payload := (d.take (be16 d 2)).drop (4 * (byteAt d 0 % 16)) }

/-- The checks of R79 in order, the last one in the terms of the statements. -/
theorem decodeIPv4_eq (d : List Byte) :
    decodeIPv4 d =
      (raiseIf (decide (d.length < 20)) .short <|
      raiseIf (decide (byteAt d 0 / 16 ≠ 4 ∨ byteAt d 0 % 16 < 5)) .badHdr <|
      raiseIf (decide (d.length < 4 * (byteAt d 0 % 16))) .short <|
      raiseIf (decide (be16 d 2 < 4 * (byteAt d 0 % 16))) .badHdr <|
      raiseIf (decide (d.length < be16 d 2)) .short <|
      raiseIf (decide (fold (sum16 (d.take (4 * (byteAt d 0 % 16)))) ≠ 0xFFFF)) .csum <|
      .ok (ipFields d)) := by
  simp only [decodeIPv4, verifyChecksum, slice_eq_drop_take, List.drop_zero, ipFields, ne_eq, decide_not]

theorem decodeIPv4_of_accepts {d : List Byte} (h : IpAccepts d) : decodeIPv4 d = .ok (ipFields d) := by
  obtain ⟨hfixed, hversion, hihl, hheader, htotal, htotal', hsum⟩ := h
  rw [decodeIPv4_eq, raiseIf_pass (by omega), raiseIf_pass (by omega), raiseIf_pass (by omega),
    raiseIf_pass (by omega), raiseIf_pass (by omega), raiseIf_pass (not_not.mpr hsum)]

theorem decodeIPv4_fixedPart_short {d : List Byte} (h : d.length < 20) : decodeIPv4 d = .error .short := by
  rw [decodeIPv4_eq, raiseIf_stop h]

section
variable {d : List Byte} (hfixed : 20 ≤ d.length)
include hfixed

theorem decodeIPv4_version_ihl_badHdr (h : byteAt d 0 / 16 ≠ 4 ∨ byteAt d 0 % 16 < 5) :
    decodeIPv4 d = .error .badHdr := by
  rw [decodeIPv4_eq, raiseIf_pass (by omega), raiseIf_stop h]

variable (hversion : byteAt d 0 / 16 = 4) (hihl : 5 ≤ byteAt d 0 % 16)
include hversion hihl

theorem decodeIPv4_header_short (h : d.length < 4 * (byteAt d 0 % 16)) : decodeIPv4 d = .error .short := by
  rw [decodeIPv4_eq, raiseIf_pass (by omega), raiseIf_pass (by omega), raiseIf_stop h]

variable (hheader : 4 * (byteAt d 0 % 16) ≤ d.length)
include hheader

theorem decodeIPv4_total_badHdr (h : be16 d 2 < 4 * (byteAt d 0 % 16)) : decodeIPv4 d = .error .badHdr := by
  rw [decodeIPv4_eq, raiseIf_pass (by omega), raiseIf_pass (by omega), raiseIf_pass (by omega), raiseIf_stop h]

variable (htotal : 4 * (byteAt d 0 % 16) ≤ be16 d 2)
include htotal

theorem decodeIPv4_total_short (h : d.length < be16 d 2) : decodeIPv4 d = .error .short := by
  rw [decodeIPv4_eq, raiseIf_pass (by omega), raiseIf_pass (by omega), raiseIf_pass (by omega),
    raiseIf_pass (by omega), raiseIf_stop h]

theorem decodeIPv4_csum (htotal' : be16 d 2 ≤ d.length)
    (h : fold (sum16 (d.take (4 * (byteAt d 0 % 16)))) ≠ 0xFFFF) : decodeIPv4 d = .error .csum := by
  rw [decodeIPv4_eq, raiseIf_pass (by omega), raiseIf_pass (by omega), raiseIf_pass (by omega),
    raiseIf_pass (by omega), raiseIf_pass (by omega), raiseIf_stop h]

end

/-! ### `DecodeUDP` (R80) -/

/-- The fields that R80 reads from a datagram. -/
def udpFields (d : List Byte) : UdpFields :=
  { ulen := be16 d 4, sp := be16 d 0, dp := be16 d 2, cs := be16 d 6, payload := (d.take (be16 d 4)).drop 8 }

theorem not_udpVerifies_iff (z : Bool) (d : List Byte) (srcIP dstIP : Word) :
    ¬ UdpVerifies z d srcIP dstIP ↔
      (!(z && be16 d 6 == 0) && udpSum srcIP.toNat dstIP.toNat (slice d 0 (be16 d 4)) != 0xFFFF) = true := by
  rw [slice_zero, udpSum_eq]
  cases z with
  | false => simp [UdpVerifies]
  | true => simp [UdpVerifies]

section
variable {z : Bool} {d : List Byte} {srcIP dstIP : Word}

theorem decodeUDP_of_accepts (h : UdpAccepts z d srcIP dstIP) :
    decodeUDP z d srcIP.toNat dstIP.toNat = .ok (udpFields d) := by
  obtain ⟨hfixed, hlength, hlength', hsum⟩ := h
  have hcheck := eq_false_of_ne_true (mt (not_udpVerifies_iff z d srcIP dstIP).mpr (not_not.mpr hsum))
  simp only [decodeUDP]
  rw [raiseIf_pass (by omega), raiseIf_pass (by omega), raiseIf_pass (by omega), hcheck, raiseIf_false,
    slice_eq_drop_take, udpFields]

theorem decodeUDP_fixedPart_short {a b : Nat} (h : d.length < 8) : decodeUDP z d a b = .error .short :=
  raiseIf_stop h _ _

theorem decodeUDP_length_badHdr {a b : Nat} (hfixed : 8 ≤ d.length) (h : be16 d 4 < 8) :
    decodeUDP z d a b = .error .badHdr := by
  simp only [decodeUDP]
  rw [raiseIf_pass (by omega), raiseIf_stop h]

theorem decodeUDP_length_short {a b : Nat} (hfixed : 8 ≤ d.length) (hlength : 8 ≤ be16 d 4)
    (h : d.length < be16 d 4) : decodeUDP z d a b = .error .short := by
  simp only [decodeUDP]
  rw [raiseIf_pass (by omega), raiseIf_pass (by omega), raiseIf_stop h]

theorem decodeUDP_csum (hlength : 8 ≤ be16 d 4) (hlength' : be16 d 4 ≤ d.length)
    (h : ¬ UdpVerifies z d srcIP dstIP) : decodeUDP z d srcIP.toNat dstIP.toNat = .error .csum := by
  simp only [decodeUDP]
  rw [raiseIf_pass (by omega), raiseIf_pass (by omega), raiseIf_pass (by omega),
    (not_udpVerifies_iff z d srcIP dstIP).mp h, raiseIf_true]

end

/-! ### The commands -/

section
variable {s : State} {n : Nat} {d : List Byte} {c : ErrCode} (hn : n = s.latch.a1.toNat)
  (hd : d = s.memRead s.latch.a0.toNat n) (hin : s.latch.a0.toNat + n ≤ s.params.memBytes)
include hn hd hin

theorem exec_ipDecode_of_error (h : decodeIPv4 d = .error c) : exec .ipDecode s = .next (s.afterError c) := by
  subst hn hd
  exact exec_of_error (rangeCheck_eq_error.mpr (.inr ⟨hin, bind_eq_error.mpr (.inl h)⟩))

theorem exec_udpDecode_of_error
    (h : decodeUDP s.params.udpRxZeroAccept d s.latch.a3.toNat s.latch.a4.toNat = .error c) :
    exec .udpDecode s = .next (s.afterError c) := by
  subst hn hd
  exact exec_of_error (rangeCheck_eq_error.mpr (.inr ⟨hin, bind_eq_error.mpr (.inl h)⟩))

theorem exec_udpipDecode_of_ip_error (h : decodeIPv4 d = .error c) : exec .udpipDecode s = .next (s.afterError c) := by
  subst hn hd
  exact exec_of_error (rangeCheck_eq_error.mpr (.inr ⟨hin, bind_eq_error.mpr (.inl h)⟩))

/-- An error of the checks on the IPv4 payload is an error of UDPIP_DECODE. -/
theorem exec_udpipDecode_of_udp_error (haccepts : IpAccepts d) (hproto : byteAt d 9 = 17)
    (h : decodeUDP s.params.udpRxZeroAccept (ipFields d).payload (be32 d 12) (be32 d 16) = .error c) :
    exec .udpipDecode s = .next (s.afterError c) := by
  subst hn hd
  exact exec_of_error (rangeCheck_eq_error.mpr (.inr ⟨hin, bind_eq_error.mpr (.inr ⟨_, decodeIPv4_of_accepts haccepts,
    raiseIf_eq_error.mpr (.inr ⟨decide_eq_false (not_not.mpr hproto), bind_eq_error.mpr (.inl h)⟩)⟩)⟩))

end

/-- Settles O23: each clause is the matching check of `decodeIPv4`. -/
theorem ipDecodeResult : Obligations.IpDecodeResult := by
  refine ⟨decode_encode .ipDecode, ?_⟩
  rintro s _ n _ _ d rfl hn hd rfl rfl
  have hlen : n = d.length := by rw [hd, State.memRead_length]
  refine ⟨fun hin haccepts => exec_of_ok_of_no_writes ?_, fun hout => ?_, fun hin => ?_⟩
  · subst hn hd
    refine rangeCheck_eq_ok.mpr ⟨hin, bind_eq_ok.mpr ⟨_, decodeIPv4_of_accepts haccepts, ?_⟩⟩
    simp only [ipFields, word]
    rw [pack4 (byteAt_lt _ _) (byteAt_lt _ _) (by omega), pack2 (be16_lt _ _), word, word]
  · exact exec_of_error (rangeCheck_fail _ (hn ▸ hout))
  · have herror {c : ErrCode} := exec_ipDecode_of_error (c := c) hn hd hin
    subst hlen
    exact ⟨fun h => herror (decodeIPv4_fixedPart_short h),
      fun hfixed h => herror (decodeIPv4_version_ihl_badHdr hfixed h),
      fun hfixed hversion hihl =>
        ⟨fun h => herror (decodeIPv4_header_short hfixed hversion hihl h),
          fun hheader h => herror (decodeIPv4_total_badHdr hfixed hversion hihl hheader h),
          fun hheader htotal h => herror (decodeIPv4_total_short hfixed hversion hihl hheader htotal h),
          fun hheader htotal htotal' h =>
            herror (decodeIPv4_csum hfixed hversion hihl hheader htotal htotal' h)⟩⟩

/-- Settles O24: each clause is the matching check of `decodeUDP`. -/
theorem udpDecodeResult : Obligations.UdpDecodeResult := by
  refine ⟨decode_encode .udpDecode, ?_⟩
  rintro s _ n d rfl hn hd
  have hlen : n = d.length := by rw [hd, State.memRead_length]
  refine ⟨fun hin haccepts => exec_of_ok_of_no_writes ?_, fun hout => ?_, fun hin => ?_⟩
  · subst hn hd
    refine rangeCheck_eq_ok.mpr ⟨hin, bind_eq_ok.mpr ⟨_, decodeUDP_of_accepts haccepts, ?_⟩⟩
    simp only [udpFields, word]
    rw [pack2 (be16_lt _ _), word]
  · exact exec_of_error (rangeCheck_fail _ (hn ▸ hout))
  · have herror {c : ErrCode} := exec_udpDecode_of_error (c := c) hn hd hin
    subst hlen
    exact ⟨fun h => herror (decodeUDP_fixedPart_short h),
      fun hfixed h => herror (decodeUDP_length_badHdr hfixed h),
      fun hlength hfixed h => herror (decodeUDP_length_short hfixed hlength h),
      fun hlength hlength' h => herror (decodeUDP_csum hlength hlength' h)⟩

/-- A command that ended with the error `c` had that outcome. -/
theorem commandOutcome_error_of_exec {i : Instr} {s : State} {c : ErrCode} (h : exec i s = .next (s.afterError c)) :
    commandOutcome i s = .error c := by
  rcases exec_eq_next h with ⟨e, -, hend, -⟩ | ⟨c', hc, hend, -⟩
  · exact absurd (congrArg (fun t => t.status.err) hend) (by simp [State.afterError])
  · rw [hc]
    exact congrArg Except.error (congrArg (fun t => t.status.errCode) hend).symm

/-- UDPIP_DECODE starts with the checks of IP_DECODE, and IP_DECODE raises no error after them (R84, R86). -/
theorem udpipDecode_error_of_ipDecode_error {s : State} {c : ErrCode} (h : commandOutcome .ipDecode s = .error c) :
    commandOutcome .udpipDecode s = .error c := by
  rcases rangeCheck_eq_error.mp h with ⟨hout, rfl⟩ | ⟨hin, h⟩
  · exact rangeCheck_fail _ hout
  · rcases bind_eq_error.mp h with h | ⟨r, -, h⟩
    · exact rangeCheck_eq_error.mpr (.inr ⟨hin, bind_eq_error.mpr (.inl h)⟩)
    · exact absurd h (by simp)

theorem toNat_be32 (b : List Byte) (i : Nat) : (BitVec.ofNat 32 (be32 b i)).toNat = be32 b i :=
  (BitVec.toNat_ofNat _ _).trans (Nat.mod_eq_of_lt (be32_lt b i))

/-- Settles O25: the checks of IP_DECODE, then the protocol, then each check of `decodeUDP` on the payload. -/
theorem udpipDecodeResult : Obligations.UdpipDecodeResult := by
  refine ⟨decode_encode .udpipDecode, ?_⟩
  rintro s _ n _ _ d u _ _ rfl hn hd rfl rfl hu rfl rfl
  refine ⟨fun hin haccepts hproto hudp => exec_of_ok_of_no_writes ?_,
    fun c h => exec_of_error (udpipDecode_error_of_ipDecode_error (commandOutcome_error_of_exec h)),
    fun hin haccepts => ⟨fun hproto => ?_, fun hproto => ?_⟩⟩
  · subst hn hd
    have hvalid := decodeUDP_of_accepts hudp
    rw [toNat_be32, toNat_be32, hu] at hvalid
    refine rangeCheck_eq_ok.mpr ⟨hin, bind_eq_ok.mpr ⟨_, decodeIPv4_of_accepts haccepts, raiseIf_eq_ok.mpr
      ⟨decide_eq_false (not_not.mpr hproto), bind_eq_ok.mpr ⟨_, hvalid, ?_⟩⟩⟩⟩
    rw [← hu]
    simp only [ipFields, udpFields, word]
    rw [pack2 (be16_lt _ _), pack2 (be16_lt _ _), pack2 (be16_lt _ _), pack2_8 (byteAt_lt _ _), word, word, word, word]
  · subst hn hd
    exact exec_of_error (rangeCheck_eq_error.mpr (.inr ⟨hin, bind_eq_error.mpr (.inr
      ⟨_, decodeIPv4_of_accepts haccepts, raiseIf_stop hproto _ _⟩)⟩))
  · have herror {c : ErrCode} := exec_udpipDecode_of_udp_error (c := c) hn hd hin haccepts hproto
    rw [← toNat_be32 d 12, ← toNat_be32 d 16, ipFields, ← hu] at herror
    exact ⟨fun h => herror (decodeUDP_fixedPart_short h),
      fun hfixed h => herror (decodeUDP_length_badHdr hfixed h),
      fun hfixed hlength h => herror (decodeUDP_length_short hfixed hlength h),
      fun hlength hlength' h => herror (decodeUDP_csum hlength hlength' h)⟩

end Sys2Proof.Machine
end

section
/-! Built frames decoded again (42_framer.md R87): what the datagrams of R77 and R78 read as, that they pass the checks of
R79 and R80, and that a flipped bit makes a check fail. -/

namespace Sys2Proof.Machine

/-! ### Reading what was stored (R27, R28) -/

theorem Stored.memRead {s t : State} {dst : Nat} {out : List Byte} (h : Stored s t dst out) {n : Nat}
    (hn : n = out.length) : t.memRead dst n = out := by
  subst hn
  refine State.memRead_of_stored fun k hk => ?_
  rw [h, if_pos (by omega), Nat.add_sub_cancel_left]

/-- A read of fewer bytes gives the first ones. -/
theorem State.memRead_take (s : State) (a : Nat) {k n : Nat} (h : k ≤ n) :
    s.memRead a k = (s.memRead a n).take k := by
  rw [State.memRead, State.memRead, ← List.map_take, List.take_range, Nat.min_eq_left h]

/-- One byte stored in a region sets that byte of what the region reads as. -/
theorem Stored.memRead_set {s t : State} {a j : Nat} {b : Byte} (h : Stored s t (a + j) [b]) (n : Nat) :
    t.memRead a n = (s.memRead a n).set j b := by
  refine List.ext_getElem (by simp) fun k hk _ => ?_
  simp only [State.memRead, List.getElem_map, List.getElem_range, List.getElem_set, h (a + k), List.length_singleton]
  by_cases hjk : j = k
  · subst hjk
    simp
  · rw [if_neg (by omega), if_neg hjk]

/-! ### The IPv4 datagram (R77, R79) -/

section
variable (p : List Byte) (proto ttl : Byte) (srcIP dstIP : Word)

theorem byteAt_ipDatagram_version : byteAt (ipDatagram p proto ttl srcIP dstIP) 0 = 0x45 := rfl

theorem be16_ipDatagram_total :
    be16 (ipDatagram p proto ttl srcIP dstIP) 2 = (BitVec.ofNat 16 (20 + p.length)).toNat := halfBytes_value _

theorem be16_ipDatagram_ident : be16 (ipDatagram p proto ttl srcIP dstIP) 4 = 0 := by
  simp [be16, byteAt, ipDatagram, ipHeaderWith, halfBytes]

theorem be16_ipDatagram_fragment : be16 (ipDatagram p proto ttl srcIP dstIP) 6 = 0 := by
  simp [be16, byteAt, ipDatagram, ipHeaderWith, halfBytes]

theorem be16_ipDatagram_checksum :
    be16 (ipDatagram p proto ttl srcIP dstIP) 10 =
      (BitVec.ofNat 16 (ipChecksumOf (20 + p.length) proto ttl srcIP dstIP)).toNat := halfBytes_value _

theorem be32_ipDatagram_src : be32 (ipDatagram p proto ttl srcIP dstIP) 12 = srcIP.toNat := wordBytes_value _

theorem be32_ipDatagram_dst : be32 (ipDatagram p proto ttl srcIP dstIP) 16 = dstIP.toNat := wordBytes_value _

theorem drop_ipDatagram : (ipDatagram p proto ttl srcIP dstIP).drop 20 = p := rfl

end

/-- A 16-bit field at an even offset adds its value to the sum. -/
theorem sum16_field {b : List Byte} (h : b.length % 2 = 0) (c : BitVec 16) (e : List Byte) :
    sum16 (b ++ halfBytes c ++ e) = sum16 (b ++ halfBytes 0 ++ e) + c.toNat := by
  have heven (v : BitVec 16) : (b ++ halfBytes v).length % 2 = 0 := by
    rw [List.length_append, halfBytes_length]
    omega
  have hzero : (0 : BitVec 16).toNat = 0 := rfl
  rw [sum16_append (heven c), sum16_append (heven 0), sum16_append h, sum16_append h, sum16_halfBytes, sum16_halfBytes]
  omega

theorem sum16_ipHeaderWith (c : BitVec 16) (total : Nat) (proto ttl : Byte) (srcIP dstIP : Word) :
    sum16 (ipHeaderWith c total proto ttl srcIP dstIP) =
      sum16 (ipHeaderWith 0 total proto ttl srcIP dstIP) + c.toNat := by
  have hfield := sum16_field
    (b := [0x45, 0x00] ++ halfBytes (BitVec.ofNat 16 total) ++ [0x00, 0x00, 0x00, 0x00] ++ [ttl, proto]) (by simp) c
    (wordBytes srcIP ++ wordBytes dstIP)
  simpa only [ipHeaderWith, List.append_assoc] using hfield

theorem ipChecksumOf_lt (total : Nat) (proto ttl : Byte) (srcIP dstIP : Word) :
    ipChecksumOf total proto ttl srcIP dstIP < 2 ^ 16 := Nat.lt_succ_of_le (Nat.sub_le _ _)

/-- The header of a built datagram verifies (R71, R77). -/
theorem verifyChecksum_ipDatagram_header (p : List Byte) (proto ttl : Byte) (srcIP dstIP : Word) :
    verifyChecksum ((ipDatagram p proto ttl srcIP dstIP).take 20) = true := by
  have hsum := sum16_ipHeaderWith (BitVec.ofNat 16 (ipChecksumOf (20 + p.length) proto ttl srcIP dstIP))
    (20 + p.length) proto ttl srcIP dstIP
  rw [BitVec.toNat_ofNat, Nat.mod_eq_of_lt (ipChecksumOf_lt ..)] at hsum
  exact verifyChecksum_of_sum16_eq hsum

theorem fold_ipDatagram_header (p : List Byte) (proto ttl : Byte) (srcIP dstIP : Word) :
    fold (sum16 ((ipDatagram p proto ttl srcIP dstIP).take 20)) = 0xFFFF :=
  of_decide_eq_true (verifyChecksum_ipDatagram_header p proto ttl srcIP dstIP)

section
variable {p : List Byte} (hlen : 20 + p.length ≤ 0xFFFF) (proto ttl : Byte) (srcIP dstIP : Word)
include hlen

theorem be16_ipDatagram_total_eq_length :
    be16 (ipDatagram p proto ttl srcIP dstIP) 2 = (ipDatagram p proto ttl srcIP dstIP).length := by
  rw [be16_ipDatagram_total, ipDatagram_length, BitVec.toNat_ofNat, Nat.mod_eq_of_lt (by omega)]

theorem ipAccepts_ipDatagram : IpAccepts (ipDatagram p proto ttl srcIP dstIP) := by
  have htotal := be16_ipDatagram_total_eq_length hlen proto ttl srcIP dstIP
  have hlength := ipDatagram_length p proto ttl srcIP dstIP
  have hversion := byteAt_ipDatagram_version p proto ttl srcIP dstIP
  exact ⟨by omega, by omega, by omega, by omega, by omega, by omega,
    by rw [hversion]; exact fold_ipDatagram_header p proto ttl srcIP dstIP⟩

/-- The IPv4 payload is what the datagram was built around. -/
theorem drop_take_ipDatagram :
    ((ipDatagram p proto ttl srcIP dstIP).take (be16 (ipDatagram p proto ttl srcIP dstIP) 2)).drop 20 = p := by
  rw [be16_ipDatagram_total_eq_length hlen, List.take_length, drop_ipDatagram]

end

/-! ### The UDP datagram (R78, R80) -/

/-- `udpSumOf` in terms of R70, the pseudo-header in front (R72). -/
theorem udpSumOf_eq_0xFFFF_iff (srcIP dstIP : Word) (d : List Byte) :
    udpSumOf srcIP dstIP d = 0xFFFF ↔
      verifyChecksum (pseudo srcIP.toNat dstIP.toNat d.length ++ d) = true := by
  rw [← udpSum_eq, verifyChecksum, decide_eq_true_iff, udpSum]

theorem sum16_udpWith (a b n : Nat) (c : BitVec 16) (p : List Byte) (sp dp : BitVec 16) :
    sum16 (pseudo a b n ++ udpWith c p sp dp) = sum16 (pseudo a b n ++ udpWith 0 p sp dp) + c.toNat := by
  have hfield := sum16_field
    (b := pseudo a b n ++ halfBytes sp ++ halfBytes dp ++ halfBytes (BitVec.ofNat 16 (8 + p.length))) (by simp) c p
  simpa only [udpWith, List.append_assoc] using hfield

theorem udpChecksumOf_le (z : Bool) (p : List Byte) (sp dp : BitVec 16) (srcIP dstIP : Word) :
    udpChecksumOf z p sp dp srcIP dstIP ≤ 0xFFFF := by
  rw [udpChecksumOf]
  split_ifs
  · exact Nat.le_refl _
  · exact Nat.sub_le _ _

/-- A built UDP datagram verifies, whether or not a computed 0 was replaced by 0xFFFF (R78). -/
theorem udpSumOf_udpDatagramOf (z : Bool) (p : List Byte) (sp dp : BitVec 16) (srcIP dstIP : Word) :
    udpSumOf srcIP dstIP (udpDatagramOf z p sp dp srcIP dstIP) = 0xFFFF := by
  have hlt : udpChecksumOf z p sp dp srcIP dstIP < 2 ^ 16 := Nat.lt_succ_of_le (udpChecksumOf_le z p sp dp srcIP dstIP)
  have hsum0 : udpSumOf srcIP dstIP (udpWith 0 p sp dp) =
      fold (sum16 (pseudo srcIP.toNat dstIP.toNat (8 + p.length) ++ udpWith 0 p sp dp)) := by
    rw [← udpSum_eq, udpSum, udpWith_length]
  rw [udpSumOf_eq_0xFFFF_iff, udpDatagramOf_length, verifyChecksum_iff, udpDatagramOf, sum16_udpWith,
    BitVec.toNat_ofNat, Nat.mod_eq_of_lt hlt, udpChecksumOf, hsum0]
  have := fold_facts (sum16 (pseudo srcIP.toNat dstIP.toNat (8 + p.length) ++ udpWith 0 p sp dp))
  split_ifs <;> omega

section
variable {z : Bool} {d : List Byte} {srcIP dstIP : Word} (hfixed : 8 ≤ d.length) (hlength : be16 d 4 = d.length)
include hfixed hlength

/-- A datagram that states its own length and verifies is accepted, whatever `UDP_RX_ZERO_ACCEPT` is. -/
theorem udpAccepts_of_length_eq (h : udpSumOf srcIP dstIP d = 0xFFFF) : UdpAccepts z d srcIP dstIP :=
  ⟨hfixed, by omega, by omega, .inr (by rwa [hlength, List.take_length])⟩

theorem decodeUDP_csum_of_length_eq (hz : z = false) (h : udpSumOf srcIP dstIP d ≠ 0xFFFF) :
    decodeUDP z d srcIP.toNat dstIP.toNat = .error .csum := by
  refine decodeUDP_csum (by omega) (by omega) ?_
  rw [UdpVerifies, hlength, List.take_length]
  simp [hz, h]

end

section
variable (z : Bool) (p : List Byte) (sp dp : BitVec 16) (srcIP dstIP : Word)

theorem be16_udpDatagramOf_sp : be16 (udpDatagramOf z p sp dp srcIP dstIP) 0 = sp.toNat := halfBytes_value _

theorem be16_udpDatagramOf_dp : be16 (udpDatagramOf z p sp dp srcIP dstIP) 2 = dp.toNat := halfBytes_value _

theorem be16_udpDatagramOf_ulen :
    be16 (udpDatagramOf z p sp dp srcIP dstIP) 4 = (BitVec.ofNat 16 (8 + p.length)).toNat := halfBytes_value _

theorem be16_udpDatagramOf_checksum :
    be16 (udpDatagramOf z p sp dp srcIP dstIP) 6 =
      (BitVec.ofNat 16 (udpChecksumOf z p sp dp srcIP dstIP)).toNat := halfBytes_value _

theorem be16_udpDatagramOf_ulen_eq_length (hlen : 8 + p.length ≤ 0xFFFF) :
    be16 (udpDatagramOf z p sp dp srcIP dstIP) 4 = (udpDatagramOf z p sp dp srcIP dstIP).length := by
  rw [be16_udpDatagramOf_ulen, udpDatagramOf_length, BitVec.toNat_ofNat, Nat.mod_eq_of_lt (by omega)]

end

/-! ### Result registers as concatenations (R48) -/

theorem toNat_append_eq_add {m n : Nat} (x : BitVec m) (y : BitVec n) :
    (x ++ y).toNat = y.toNat + x.toNat * 2 ^ n := by
  rw [BitVec.toNat_append, ← Nat.shiftLeft_add_eq_or_of_lt y.isLt, Nat.shiftLeft_eq, Nat.add_comm]

/-- Packing two fields side by side is concatenating them. -/
theorem ofNat_add_mul_eq_append {m n : Nat} (x : BitVec m) (y : BitVec n) :
    BitVec.ofNat (m + n) (y.toNat + x.toNat * 2 ^ n) = x ++ y := by
  rw [← toNat_append_eq_add, BitVec.ofNat_toNat, BitVec.setWidth_eq]

theorem ofNat_toNat_add (v : Word) (k : Nat) : BitVec.ofNat 32 (v.toNat + k) = v + BitVec.ofNat 32 k := by
  rw [BitVec.ofNat_add, BitVec.ofNat_toNat, BitVec.setWidth_eq]

theorem low16_eq_append (v : Word) : v.extractLsb' 0 16 = v.extractLsb' 8 8 ++ v.extractLsb' 0 8 := by
  apply BitVec.eq_of_toNat_eq
  simp only [toNat_append_eq_add, BitVec.extractLsb'_toNat, Nat.shiftRight_eq_div_pow]
  omega

theorem low16_ofNat (k : Nat) : (BitVec.ofNat 32 k).extractLsb' 0 16 = BitVec.ofNat 16 k := by
  apply BitVec.eq_of_toNat_eq
  rw [BitVec.extractLsb'_toNat, BitVec.toNat_ofNat, BitVec.toNat_ofNat, Nat.shiftRight_zero]
  omega

/-! ### The round trips -/

theorem exec_success_congr {i : Instr} {s : State} {res res' : ResFile} {mem : List Host.Cell}
    (h : exec i s = .next (s.afterSuccess res mem)) (hres : res = res') :
    exec i s = .next (s.afterSuccess res' mem) := hres ▸ h

/-- IP_DECODE of a built datagram returns what it was built of. -/
theorem exec_ipDecode_of_ipDatagram {s : State} {p : List Byte} {proto ttl : Byte} {srcIP dstIP : Word}
    (hread : s.memRead s.latch.a0.toNat s.latch.a1.toNat = ipDatagram p proto ttl srcIP dstIP)
    (hlen : 20 + p.length ≤ 0xFFFF) (hin : s.latch.a0.toNat + s.latch.a1.toNat ≤ s.params.memBytes) :
    exec .ipDecode s = .next (s.afterSuccess
      { r0 := s.latch.a0 + 20
        r1 := BitVec.ofNat 32 p.length
        r2 := (0x00 : BitVec 8) ++ (0x05 : BitVec 8) ++ (ttl ++ proto)
        r3 := srcIP
        r4 := dstIP
        r5 := 0
        r6 := BitVec.ofNat 32 (ipChecksumOf (20 + p.length) proto ttl srcIP dstIP)
        r7 := BitVec.ofNat 32 (20 + p.length) } s.mem) := by
  have hdecode := (ipDecodeResult.2 s _ _ 20 (20 + p.length) _ rfl rfl hread.symm
    (by rw [byteAt_ipDatagram_version])
    ((ipDatagram_length p proto ttl srcIP dstIP).symm.trans
      (be16_ipDatagram_total_eq_length hlen proto ttl srcIP dstIP).symm)).1 hin
    (ipAccepts_ipDatagram hlen proto ttl srcIP dstIP)
  refine exec_success_congr hdecode ?_
  rw [ResFile.mk.injEq]
  refine ⟨ofNat_toNat_add _ _, ?_, ?_, ?_, ?_, ?_, ?_, rfl⟩
  · rw [Nat.add_sub_cancel_left]
  · have hfields : byteAt (ipDatagram p proto ttl srcIP dstIP) 9 + byteAt (ipDatagram p proto ttl srcIP dstIP) 8 * 2 ^ 8 =
        (ttl ++ proto).toNat := (toNat_append_eq_add ttl proto).symm
    have htos : byteAt (ipDatagram p proto ttl srcIP dstIP) 1 = 0 := rfl
    rw [hfields, htos, byteAt_ipDatagram_version, Nat.zero_mul, Nat.add_zero]
    exact ofNat_add_mul_eq_append ((0x00 : BitVec 8) ++ (0x05 : BitVec 8)) (ttl ++ proto)
  · rw [be32_ipDatagram_src, BitVec.ofNat_toNat, BitVec.setWidth_eq]
  · rw [be32_ipDatagram_dst, BitVec.ofNat_toNat, BitVec.setWidth_eq]
  · rw [be16_ipDatagram_ident, be16_ipDatagram_fragment]
    rfl
  · rw [be16_ipDatagram_checksum, BitVec.toNat_ofNat, Nat.mod_eq_of_lt (ipChecksumOf_lt ..)]

/-- UDPIP_DECODE of a built frame returns what it was built of. -/
theorem exec_udpipDecode_of_udpDatagram {s : State} {z : Bool} {p : List Byte} {sp dp : BitVec 16} {ttl : Byte}
    {srcIP dstIP : Word}
    (hread : s.memRead s.latch.a0.toNat s.latch.a1.toNat =
      ipDatagram (udpDatagramOf z p sp dp srcIP dstIP) 17 ttl srcIP dstIP)
    (hlen : 28 + p.length ≤ 0xFFFF) (hin : s.latch.a0.toNat + s.latch.a1.toNat ≤ s.params.memBytes) :
    exec .udpipDecode s = .next (s.afterSuccess
      { r0 := s.latch.a0 + 28
        r1 := BitVec.ofNat 32 p.length
        r2 := dp ++ sp
        r3 := srcIP
        r4 := dstIP
        r5 := (0 : BitVec 16) ++ ttl ++ (17 : BitVec 8)
        r6 := BitVec.ofNat 16 (udpChecksumOf z p sp dp srcIP dstIP) ++
          BitVec.ofNat 16 (ipChecksumOf (28 + p.length) 17 ttl srcIP dstIP)
        r7 := BitVec.ofNat 16 (8 + p.length) ++ BitVec.ofNat 16 (28 + p.length) } s.mem) := by
  have hudp := udpDatagramOf_length z p sp dp srcIP dstIP
  have htotal : 20 + (udpDatagramOf z p sp dp srcIP dstIP).length = 28 + p.length := by omega
  have hlen' : 20 + (udpDatagramOf z p sp dp srcIP dstIP).length ≤ 0xFFFF := by omega
  have hlength := be16_udpDatagramOf_ulen_eq_length z p sp dp srcIP dstIP (by omega)
  have hdecode := (udpipDecodeResult.2 s _ _ 20 _ _ (udpDatagramOf z p sp dp srcIP dstIP) srcIP dstIP rfl rfl hread.symm
    (by rw [byteAt_ipDatagram_version]) rfl (drop_take_ipDatagram hlen' 17 ttl srcIP dstIP).symm
    (by rw [be32_ipDatagram_src, BitVec.ofNat_toNat, BitVec.setWidth_eq])
    (by rw [be32_ipDatagram_dst, BitVec.ofNat_toNat, BitVec.setWidth_eq])).1 hin
    (ipAccepts_ipDatagram hlen' 17 ttl srcIP dstIP) rfl
    (udpAccepts_of_length_eq (by omega) hlength (udpSumOf_udpDatagramOf z p sp dp srcIP dstIP))
  refine exec_success_congr hdecode ?_
  rw [ResFile.mk.injEq]
  refine ⟨?_, ?_, ?_, rfl, rfl, ?_, ?_, ?_⟩
  · exact ofNat_toNat_add s.latch.a0 28
  · rw [hlength, hudp, Nat.add_sub_cancel_left]
  · rw [be16_udpDatagramOf_sp, be16_udpDatagramOf_dp]
    exact ofNat_add_mul_eq_append dp sp
  · have hzero : ((0 : BitVec 16) ++ ttl).toNat = ttl.toNat := by
      rw [toNat_append_eq_add, BitVec.ofNat_eq_ofNat, BitVec.toNat_ofNat, Nat.zero_mod, Nat.zero_mul, Nat.add_zero]
    have hpack := ofNat_add_mul_eq_append ((0 : BitVec 16) ++ ttl) (17 : BitVec 8)
    rw [hzero] at hpack
    exact hpack
  · rw [be16_ipDatagram_checksum, be16_udpDatagramOf_checksum, htotal]
    exact ofNat_add_mul_eq_append _ _
  · rw [be16_ipDatagram_total, be16_udpDatagramOf_ulen, htotal]
    exact ofNat_add_mul_eq_append _ _

/-- Settles O36: IP_BUILD's output reads back as the datagram of R77, which is accepted. -/
theorem ipFrameRoundTrip : Obligations.IpFrameRoundTrip := by
  intro s t l hexec herr hdst
  obtain ⟨hlen, hout, hparams, hres, hstored⟩ := (ipBuild_builds s).of_exec hexec herr
  have hread := hstored.memRead (n := 20 + s.latch.a1.toNat) (by rw [ipDatagram_length, State.memRead_length])
  rw [← hdst] at hread
  rw [← hdst, ← hparams] at hout
  refine ⟨fun hn => ?_, fun hn => ?_⟩
  · have hheader : State.memRead { t with latch := l } l.a0.toNat 20 = _ :=
      (t.memRead_take _ (Nat.le_add_right 20 s.latch.a1.toNat)).trans (congrArg (List.take 20) hread)
    have hverify := (csumVerifyResult.2 { t with latch := l } _ 20 rfl (congrArg BitVec.toNat hn).symm).1
      (show l.a0.toNat + 20 ≤ t.params.memBytes by omega)
    rw [hheader, if_pos (fold_ipDatagram_header ..)] at hverify
    exact ⟨_, hverify, rfl, rfl⟩
  · have hr0 : t.res.r0 = BitVec.ofNat 32 (20 + s.latch.a1.toNat) := congrArg ResFile.r0 hres
    have hn' : l.a1.toNat = 20 + s.latch.a1.toNat := by
      rw [hn, hr0, BitVec.toNat_ofNat, Nat.mod_eq_of_lt (by omega)]
    rw [← hn'] at hread hout
    refine exec_success_congr (exec_ipDecode_of_ipDatagram (s := { t with latch := l }) hread
      (by rwa [State.memRead_length]) hout) ?_
    rw [State.memRead_length, ResFile.mk.injEq]
    exact ⟨by rw [← hdst], by rw [BitVec.ofNat_toNat, BitVec.setWidth_eq],
      congrArg _ (low16_eq_append s.latch.a5).symm, rfl, rfl, rfl, (congrArg ResFile.r1 hres).symm, hr0.symm⟩

/-- Settles O37: UDPIP_BUILD's output reads back as the frame of R83, which both decoders accept. -/
theorem udpipFrameRoundTrip : Obligations.UdpipFrameRoundTrip := by
  intro s t l hexec herr hdst hn
  obtain ⟨hlen, hout, hparams, hres, hstored⟩ := (udpipBuild_builds s).of_exec hexec herr
  have hr0 : t.res.r0 = BitVec.ofNat 32 (28 + s.latch.a1.toNat) := congrArg ResFile.r0 hres
  have hr1 : t.res.r1 = _ := congrArg ResFile.r1 hres
  have hr2 : t.res.r2 = _ := congrArg ResFile.r2 hres
  have hn' : l.a1.toNat = 28 + s.latch.a1.toNat := by
    rw [hn, hr0, BitVec.toNat_ofNat, Nat.mod_eq_of_lt (by omega)]
  have hread := hstored.memRead (n := 28 + s.latch.a1.toNat) (by rw [ipDatagram_length, State.builtUdp_length]; omega)
  rw [← hdst, ← hn'] at hread
  rw [← hdst, ← hparams, ← hn'] at hout
  refine exec_success_congr (exec_udpipDecode_of_udpDatagram (s := { t with latch := l }) hread
    (by rwa [State.memRead_length]) hout) ?_
  rw [State.memRead_length, ResFile.mk.injEq, hr0, hr1, hr2, low16_ofNat, low16_ofNat, low16_ofNat]
  have h8 : 8 + s.latch.a1 = BitVec.ofNat 32 (8 + s.latch.a1.toNat) := by
    rw [Nat.add_comm, ofNat_toNat_add, BitVec.add_comm]
    rfl
  exact ⟨by rw [← hdst], by rw [BitVec.ofNat_toNat, BitVec.setWidth_eq], BitVec.extractLsb'_append_extractLsb', rfl, rfl,
    rfl, rfl, by rw [h8, low16_ofNat]⟩

end Sys2Proof.Machine
end

section
/-! One flipped bit of a built frame (42_framer.md R87 (c)): in the header it is caught by a check of R79, in the UDP
datagram by the checksum of R80. -/

namespace Sys2Proof.Machine

/-- The bytes `d` with bit `m` of byte `j` flipped. -/
def flipBit (d : List Byte) (j m : Nat) : List Byte := d.set j (d.getD j 0 ^^^ BitVec.twoPow 8 m)

@[simp] theorem flipBit_length (d : List Byte) (j m : Nat) : (flipBit d j m).length = d.length := List.length_set

theorem byteAt_flipBit_ne (d : List Byte) {i j : Nat} (h : j ≠ i) (m : Nat) : byteAt (flipBit d j m) i = byteAt d i := by
  simp [byteAt, flipBit, List.getD_eq_getElem?_getD, List.getElem?_set_ne h]

theorem byteAt_flipBit_self {d : List Byte} {j : Nat} (h : j < d.length) (m : Nat) :
    byteAt (flipBit d j m) j = (d.getD j 0 ^^^ BitVec.twoPow 8 m).toNat := by
  simp [byteAt, flipBit, List.getD_eq_getElem?_getD, h]

theorem be16_flipBit_ne (d : List Byte) {i j : Nat} (h : j ≠ i) (h' : j ≠ i + 1) (m : Nat) :
    be16 (flipBit d j m) i = be16 d i := by
  rw [be16, be16, byteAt_flipBit_ne d h, byteAt_flipBit_ne d h']

theorem take_flipBit (d : List Byte) {j k : Nat} (h : j < k) (m : Nat) :
    (flipBit d j m).take k = flipBit (d.take k) j m := by
  rw [flipBit, flipBit, List.take_set, List.getD_eq_getElem?_getD, List.getD_eq_getElem?_getD,
    List.getElem?_take_of_lt h]

theorem flipBit_append_right (b : List Byte) (c : List Byte) (k m : Nat) :
    flipBit (b ++ c) (b.length + k) m = b ++ flipBit c k m := by
  rw [flipBit, flipBit, List.getD_append_right _ _ _ _ (Nat.le_add_right _ _),
    List.set_append_right _ _ (Nat.le_add_right _ _), Nat.add_sub_cancel_left]

/-- A flipped bit of one stored byte is the flipped bit of what the region reads as. -/
theorem Stored.memRead_flipBit {s t : State} {a j m n : Nat}
    (h : Stored s t (a + j) [s.readByte (a + j) ^^^ BitVec.twoPow 8 m]) (hj : j < n) :
    t.memRead a n = flipBit (s.memRead a n) j m := by
  rw [h.memRead_set, flipBit, State.memRead_getD s a hj]

theorem udpSumOf_flipBit {srcIP dstIP : Word} {d : List Byte} {k m : Nat} (h : udpSumOf srcIP dstIP d = 0xFFFF)
    (hk : k < d.length) (hm : m < 8) : udpSumOf srcIP dstIP (flipBit d k m) ≠ 0xFFFF := by
  rw [udpSumOf_eq_0xFFFF_iff] at h
  have hflip := verifyChecksum_flip (j := 12 + k) h (by rw [List.length_append, pseudo_length]; omega) hm
  rw [ne_eq, udpSumOf_eq_0xFFFF_iff, flipBit_length, ← flipBit_append_right, pseudo_length]
  exact ne_true_of_eq_false hflip

/-! ### A flip in the header (R79) -/

/-- A flip of the first byte, other than of bits 1 and 3, gives another version or a header length below 5. -/
theorem version_ihl_of_flip : ∀ m < 8, m ≠ 1 → m ≠ 3 →
    ((0x45 : Byte) ^^^ BitVec.twoPow 8 m).toNat / 16 ≠ 4 ∨ ((0x45 : Byte) ^^^ BitVec.twoPow 8 m).toNat % 16 < 5 := by
  decide

theorem decodeIPv4_flipBit_first (p : List Byte) (proto ttl : Byte) (srcIP dstIP : Word) {m : Nat} (hm : m < 8)
    (hm1 : m ≠ 1) (hm3 : m ≠ 3) :
    decodeIPv4 (flipBit (ipDatagram p proto ttl srcIP dstIP) 0 m) = .error .badHdr := by
  have hlength := ipDatagram_length p proto ttl srcIP dstIP
  refine decodeIPv4_version_ihl_badHdr (by rw [flipBit_length]; omega) ?_
  rw [byteAt_flipBit_self (by omega)]
  exact version_ihl_of_flip m hm hm1 hm3

/-- Where the first byte asks for a header of 20 bytes and these do not verify, the decoder stops at the checksum or at
one of the two checks of the total length before it. -/
theorem decodeIPv4_of_header_not_verified {d : List Byte} (hfirst : byteAt d 0 = 0x45) (hlength : 20 ≤ d.length)
    (h : verifyChecksum (d.take 20) = false) :
    (decodeIPv4 d = .error .badHdr ∧ be16 d 2 < 20) ∨ (decodeIPv4 d = .error .short ∧ d.length < be16 d 2) ∨
      decodeIPv4 d = .error .csum := by
  have hheader : 4 * (byteAt d 0 % 16) = 20 := by rw [hfirst]
  have hversion : byteAt d 0 / 16 = 4 := by rw [hfirst]
  have hihl : 5 ≤ byteAt d 0 % 16 := by omega
  rcases Nat.lt_or_ge (be16 d 2) 20 with hsmall | hsmall
  · exact .inl ⟨decodeIPv4_total_badHdr hlength hversion hihl (by omega) (by omega), hsmall⟩
  · rcases Nat.lt_or_ge d.length (be16 d 2) with hbig | hbig
    · exact .inr (.inl ⟨decodeIPv4_total_short hlength hversion hihl (by omega) (by omega) hbig, hbig⟩)
    · refine .inr (.inr (decodeIPv4_csum hlength hversion hihl (by omega) (by omega) hbig ?_))
      rw [hheader]
      exact of_decide_eq_false h

section
variable {p : List Byte} (hlen : 20 + p.length ≤ 0xFFFF) (proto ttl : Byte) (srcIP dstIP : Word) {j m : Nat}
include hlen

/-- A flip of a later byte of the header: the checksum fails, and a total length that was not hit passes its checks. -/
theorem decodeIPv4_flipBit_header (hm : m < 8) (hj : 0 < j) (hj' : j < 20) :
    ∃ c, decodeIPv4 (flipBit (ipDatagram p proto ttl srcIP dstIP) j m) = .error c ∧
      (c = .badHdr ∨ c = .short ∨ c = .csum) ∧ (j ≠ 2 → j ≠ 3 → c = .csum) := by
  have hlength := ipDatagram_length p proto ttl srcIP dstIP
  have hflip := flipBit_length (ipDatagram p proto ttl srcIP dstIP) j m
  have htotal (h2 : j ≠ 2) (h3 : j ≠ 3) :
      be16 (flipBit (ipDatagram p proto ttl srcIP dstIP) j m) 2 = (ipDatagram p proto ttl srcIP dstIP).length :=
    (be16_flipBit_ne _ h2 h3 m).trans (be16_ipDatagram_total_eq_length hlen proto ttl srcIP dstIP)
  have hfails : verifyChecksum ((flipBit (ipDatagram p proto ttl srcIP dstIP) j m).take 20) = false := by
    rw [take_flipBit _ hj']
    exact verifyChecksum_flip (verifyChecksum_ipDatagram_header p proto ttl srcIP dstIP)
      (by rw [List.length_take]; omega) hm
  have hfirst := (byteAt_flipBit_ne _ hj.ne' m).trans (byteAt_ipDatagram_version p proto ttl srcIP dstIP)
  rcases decodeIPv4_of_header_not_verified hfirst (by omega) hfails with ⟨h, hsmall⟩ | ⟨h, hbig⟩ | h
  · exact ⟨_, h, .inl rfl, fun h2 h3 => absurd (htotal h2 h3) (by omega)⟩
  · exact ⟨_, h, .inr (.inl rfl), fun h2 h3 => absurd (htotal h2 h3) (by omega)⟩
  · exact ⟨_, h, .inr (.inr rfl), fun _ _ => rfl⟩

/-! ### A flip in the payload -/

theorem payload_ipDatagram : (ipFields (ipDatagram p proto ttl srcIP dstIP)).payload = p := by
  rw [ipFields, byteAt_ipDatagram_version]
  exact drop_take_ipDatagram hlen proto ttl srcIP dstIP

end

/-- The header depends on the length of the payload alone. -/
theorem flipBit_ipDatagram_payload (p : List Byte) (proto ttl : Byte) (srcIP dstIP : Word) (k m : Nat) :
    flipBit (ipDatagram p proto ttl srcIP dstIP) (20 + k) m = ipDatagram (flipBit p k m) proto ttl srcIP dstIP := by
  rw [ipDatagram, ipDatagram, flipBit_length]
  exact flipBit_append_right _ p k m

/-- UDPIP_DECODE of a frame whose UDP datagram states its own length and does not verify. -/
theorem exec_udpipDecode_of_udp_not_verified {s : State} {u : List Byte} {ttl : Byte} {srcIP dstIP : Word}
    (hread : ipDatagram u 17 ttl srcIP dstIP = s.memRead s.latch.a0.toNat s.latch.a1.toNat)
    (hin : s.latch.a0.toNat + s.latch.a1.toNat ≤ s.params.memBytes) (hlen : 20 + u.length ≤ 0xFFFF)
    (hfixed : 8 ≤ u.length) (hlength : be16 u 4 = u.length) (hzero : s.params.udpRxZeroAccept = false)
    (h : udpSumOf srcIP dstIP u ≠ 0xFFFF) : exec .udpipDecode s = .next (s.afterError .csum) := by
  refine exec_udpipDecode_of_udp_error rfl hread hin (ipAccepts_ipDatagram hlen 17 ttl srcIP dstIP) rfl ?_
  rw [payload_ipDatagram hlen, be32_ipDatagram_src, be32_ipDatagram_dst]
  exact decodeUDP_csum_of_length_eq hfixed hlength hzero h

/-! ### The statement -/

/-- Settles O38: the flip lies in the first byte, in the rest of the header, or in the UDP datagram. -/
theorem udpipFrameFlipIsDetected : Obligations.UdpipFrameFlipIsDetected := by
  intro s t f j m hexec herr hparams ha0 ha1 hj hm hihl hj4 hj5 hzero hflipped
  obtain ⟨hlen, hout, -, hres, hstored⟩ := (udpipBuild_builds s).of_exec hexec herr
  have hudp := s.builtUdp_length
  have hlen' : 20 + s.builtUdp.length ≤ 0xFFFF := by omega
  have ha1' : f.latch.a1.toNat = 28 + s.latch.a1.toNat := by
    rw [ha1, show t.res.r0 = _ from congrArg ResFile.r0 hres, BitVec.toNat_ofNat, Nat.mod_eq_of_lt (by omega)]
  have hread := hflipped.memRead_flipBit hj
  rw [hstored.memRead (by rw [ipDatagram_length]; omega), ← ha0, ← ha1'] at hread
  rw [← ha0, ← ha1', ← hparams] at hout
  rcases Nat.lt_or_ge j 20 with hheader | hpayload
  · rcases Nat.eq_zero_or_pos j with rfl | hpos
    · have hdecode := decodeIPv4_flipBit_first s.builtUdp 17 (s.latch.a5.extractLsb' 8 8) s.latch.a3 s.latch.a4 hm
        (by omega) (by omega)
      exact ⟨.badHdr, exec_udpipDecode_of_ip_error rfl hread.symm hout hdecode, .inl rfl, fun _ => rfl, by omega⟩
    · obtain ⟨c, hdecode, hc, hcsum⟩ :=
        decodeIPv4_flipBit_header hlen' 17 (s.latch.a5.extractLsb' 8 8) s.latch.a3 s.latch.a4 hm hpos hheader
      exact ⟨c, exec_udpipDecode_of_ip_error rfl hread.symm hout hdecode, hc, by omega,
        fun hpart => hcsum (by omega) (by omega)⟩
  · obtain ⟨k, rfl⟩ := Nat.exists_eq_add_of_le hpayload
    rw [flipBit_ipDatagram_payload] at hread
    have hlength : be16 (flipBit s.builtUdp k m) 4 = (flipBit s.builtUdp k m).length := by
      rw [be16_flipBit_ne _ (by omega) (by omega), flipBit_length]
      exact be16_udpDatagramOf_ulen_eq_length _ _ _ _ _ _ (by rw [State.memRead_length]; omega)
    have hfails := udpSumOf_flipBit (udpSumOf_udpDatagramOf ..) (by omega : k < s.builtUdp.length) hm
    exact ⟨.csum, exec_udpipDecode_of_udp_not_verified hread.symm hout (by rwa [flipBit_length])
      (by rw [flipBit_length]; omega) hlength (hparams ▸ hzero hpayload) hfails, .inr (.inr rfl), by omega, fun _ => rfl⟩

end Sys2Proof.Machine
end

section
/-! The option-record encoders OPT_ADDRS and OPT_LEASE (43_options.md R89 to R91). -/

namespace Sys2Proof.Machine

/-! ### Checks with the same error -/

/-- Two checks in a row with the same error are one check for either reason. -/
theorem raiseIf_raiseIf_same {α : Type} (p q : Prop) [Decidable p] [Decidable q] (c : ErrCode) (k : Except ErrCode α) :
    raiseIf (decide p) c (raiseIf (decide q) c k) = raiseIf (decide (p ∨ q)) c k := by
  by_cases hp : p <;> simp [hp]

/-! ### The arguments of OPT_ADDRS -/

/-- The tag argument of OPT_ADDRS. -/
def State.optTag (s : State) : Byte := s.latch.a3.extractLsb' 0 8

/-- The arguments that OPT_ADDRS refuses with ARG (R89): bits above the tag, an unlisted tag, a count out of range, and
a subnet mask that is not alone. -/
abbrev State.OptAddrsArgBad (s : State) : Prop :=
  s.latch.a3.extractLsb' 8 24 ≠ 0 ∨ ¬ (s.optTag = 1 ∨ s.optTag = 3 ∨ s.optTag = 4 ∨ s.optTag = 6) ∨
    s.latch.a1.toNat = 0 ∨ 63 < s.latch.a1.toNat ∨ (s.optTag = 1 ∧ s.latch.a1.toNat ≠ 1)

/-- The record that OPT_ADDRS writes: tag, length, addresses (R89). -/
def State.optAddrsRecord (s : State) : List Byte :=
  [s.optTag, BitVec.ofNat 8 (4 * s.latch.a1.toNat)] ++ s.memRead s.latch.a0.toNat (4 * s.latch.a1.toNat)

/-- The model's checks of the tag, the count and the subnet-mask count, on the fields as numbers. -/
theorem State.optAddrsArgBad_iff (s : State) :
    ((field s.latch.a3 31 8 ≠ 0 ∨
          ¬ (field s.latch.a3 7 0 = 1 ∨ field s.latch.a3 7 0 = 3 ∨ field s.latch.a3 7 0 = 4 ∨ field s.latch.a3 7 0 = 6)) ∨
        (s.latch.a1.toNat = 0 ∨ 63 < s.latch.a1.toNat) ∨ (field s.latch.a3 7 0 = 1 ∧ s.latch.a1.toNat ≠ 1)) ↔
      s.OptAddrsArgBad := by
  have htag (n : Nat) (hn : n < 2 ^ 8) : field s.latch.a3 7 0 = n ↔ s.optTag = BitVec.ofNat 8 n := by
    rw [field_byte0, BitVec.toNat_eq_nat]
    exact and_iff_right hn
  have hupper : field s.latch.a3 31 8 = 0 ↔ s.latch.a3.extractLsb' 8 24 = 0 := by
    rw [field_high24, BitVec.toNat_eq_nat]
    exact and_iff_right (by decide)
  rw [ne_eq, hupper, htag 1 (by decide), htag 3 (by decide), htag 4 (by decide), htag 6 (by decide), or_assoc, or_assoc]
  rfl

/-- The checks of OPT_ADDRS on bit vectors: the arguments, the input region, the output region. -/
theorem commandOutcome_optAddrs (s : State) :
    commandOutcome .optAddrs s =
      raiseIf (decide s.OptAddrsArgBad) .arg
        (rangeCheck s s.latch.a0.toNat (4 * s.latch.a1.toNat)
          (rangeCheck s s.latch.a2.toNat (2 + 4 * s.latch.a1.toNat)
            (.ok
              { res := { s.res with r0 := BitVec.ofNat 32 (2 + 4 * s.latch.a1.toNat) }
                writes := [(s.latch.a2.toNat, s.optAddrsRecord)] }))) := by
  have hrecord : [byte (field s.latch.a3 7 0), byte (4 * s.latch.a1.toNat)] ++
      s.memRead s.latch.a0.toNat (4 * s.latch.a1.toNat) = s.optAddrsRecord := by
    rw [field_byte0, byte_toNat]
    rfl
  simp only [commandOutcome, optAddrsOutcome, raiseIf_raiseIf_same, s.optAddrsArgBad_iff, hrecord, word]

/-- Settles O26: the argument check, then the two range checks. -/
theorem optAddrsResult : Obligations.OptAddrsResult := by
  refine ⟨decode_encode .optAddrs, ?_⟩
  rintro s _ _ _ _ rfl rfl rfl rfl
  refine ⟨fun ⟨⟨hupper, htag⟩, hcount, hmask⟩ => ?_, fun hbad => exec_of_error ?_⟩
  · have hgood : ¬ s.OptAddrsArgBad := by
      rintro (h | h | h | h | ⟨h, hne⟩)
      · exact h hupper
      · exact h htag
      · omega
      · omega
      · exact hne (hmask h)
    have houtcome := commandOutcome_optAddrs s
    rw [decide_eq_false hgood, raiseIf_false] at houtcome
    exact ⟨fun hin hout => exec_of_ok_of_write (by rw [houtcome, rangeCheck_pass _ hin, rangeCheck_pass _ hout]; rfl),
      fun hin => exec_of_error (houtcome.trans (rangeCheck_fail _ hin)),
      fun hin hout => exec_of_error (by rw [houtcome, rangeCheck_pass _ hin, rangeCheck_fail _ hout])⟩
  · rw [commandOutcome_optAddrs, decide_eq_true (p := s.OptAddrsArgBad) hbad, raiseIf_true]

/-! ### OPT_LEASE -/

/-- The three records of the statement (R91). -/
theorem leaseRecords_eq (lease : Word) :
    leaseRecords lease.toNat =
      [51, 4] ++ wordBytes lease ++ [58, 4] ++ wordBytes (BitVec.ofNat 32 (lease.toNat / 2)) ++ [59, 4] ++
        wordBytes (BitVec.ofNat 32 (33 * lease.toNat / 40)) := by
  rw [leaseRecords, leaseT1, leaseT2, enc32_eq_wordBytes, enc32_eq_wordBytes_ofNat, enc32_eq_wordBytes_ofNat]

/-- Settles O27: the range check decides between the two ends. -/
theorem optLeaseResult : Obligations.OptLeaseResult := by
  refine ⟨decode_encode .optLease, ?_⟩
  rintro s _ _ rfl rfl
  refine ⟨fun hin => ?_, fun hout => exec_of_error (rangeCheck_fail _ hout)⟩
  rw [← leaseRecords_eq]
  exact exec_of_ok_of_write (rangeCheck_pass _ hin)

end Sys2Proof.Machine
end

section
/-! The options scan of DHCP_DECODE (44_dhcp_codec.md R94 to R96): it is the loop of the rule whatever bound it carries,
and what every iteration keeps holds of what it finds. -/

namespace Sys2Proof.Machine

/-! ### The loop (R95) -/

theorem scanLoop_of_length_le {mode : PadMode} {d : List Byte} {src i : Nat} (h : d.length ≤ i) (fuel : Nat)
    (t : OptScan) : scanLoop mode d src fuel i t = .ok t := by
  cases fuel with
  | zero => rfl
  | succ fuel => rw [scanLoop, if_pos h]

/-- The bound does not show once it covers the bytes left, since every iteration raises the index. -/
theorem scanLoop_eq_of_le {mode : PadMode} {d : List Byte} {src f g i : Nat} {t : OptScan} (hf : d.length - i ≤ f)
    (hg : d.length - i ≤ g) : scanLoop mode d src f i t = scanLoop mode d src g i t := by
  induction f generalizing g i t with
  | zero => rw [scanLoop_of_length_le (by omega), scanLoop_of_length_le (by omega)]
  | succ f ih =>
    cases g with
    | zero => rw [scanLoop_of_length_le (by omega), scanLoop_of_length_le (by omega)]
    | succ g =>
      have hnext (j : Nat) (t' : OptScan) (hj : i < j) : scanLoop mode d src f j t' = scanLoop mode d src g j t' :=
        ih (by omega) (by omega)
      simp only [scanLoop, hnext (i + 1) t (by omega), hnext (i + 2 + byteAt d (i + 1)) _ (by omega)]

/-- One iteration of the loop of R95. -/
theorem scanFrom_eq (mode : PadMode) (d : List Byte) (src i : Nat) (t : OptScan) :
    scanFrom mode d src i t =
      if d.length ≤ i then .ok t
      else if byteAt d i = 255 then .ok { t with endSeen := true }
      else if byteAt d i = 0 ∧ mode = .rfc then scanFrom mode d src (i + 1) t
      else if d.length ≤ i + 1 then .error .optOverrun
      else if d.length < i + 2 + byteAt d (i + 1) then .error .optOverrun
      else
        scanFrom mode d src (i + 2 + byteAt d (i + 1))
          (t.addRecord (byteAt d i) (byteAt d (i + 1)) (src + i + 2) (byteAt d (i + 2))) := by
  have hbound : scanFrom mode d src i t = scanLoop mode d src (d.length - i + 1) i t :=
    scanLoop_eq_of_le (Nat.le_refl _) (Nat.le_succ _)
  have hnext (j : Nat) (t' : OptScan) (hj : i < j) :
      scanLoop mode d src (d.length - i) j t' = scanFrom mode d src j t' :=
    scanLoop_eq_of_le (by omega) (Nat.le_refl _)
  simp only [hbound, scanLoop, hnext (i + 1) t (by omega), hnext (i + 2 + byteAt d (i + 1)) _ (by omega)]

theorem scanOptions_eq_scanFrom (mode : PadMode) (d : List Byte) (src : Nat) :
    scanOptions mode d src = scanFrom mode d src 240 OptScan.start :=
  scanLoop_eq_of_le (Nat.sub_le _ _) (Nat.le_refl _)

/-! ### One record (R95, R96) -/

/-- The message type is taken from a length-1 option 53 while none has been taken. -/
theorem OptScan.addRecord_eq (t : OptScan) (tag len vaddr value : Nat) :
    t.addRecord tag len vaddr value =
      { t with
        entries := t.entries ++ [{ tag := tag, len := len, vaddr := vaddr }]
        mt := if decide (tag = 53 ∧ len = 1 ∧ t.mtv = false) then value else t.mt
        mtv := t.mtv || decide (tag = 53 ∧ len = 1 ∧ t.mtv = false) } := by
  by_cases hfirst : tag = 53 ∧ len = 1 ∧ t.mtv = false
  · simp [OptScan.addRecord, hfirst]
  · simp [OptScan.addRecord, hfirst]

/-- Settles O30: the loop is `scanFrom_eq`, its record step `OptScan.addRecord_eq`. -/
theorem optionScanObeysItsLoop : Obligations.OptionScanObeysItsLoop := by
  intro mode d src
  refine ⟨fun _ => scanOptions_eq_scanFrom mode d src, fun i t => ?_⟩
  rw [scanFrom_eq, OptScan.addRecord_eq]

/-! ### What every iteration keeps -/

/-- `I` relates an index of the scan to what was found before it, and every iteration keeps it. -/
structure ScanInvariant (d : List Byte) (src : Nat) (I : Nat → OptScan → Prop) : Prop where
  terminator : ∀ i t, I i t → I i { t with endSeen := true }
  pad : ∀ i t, i < d.length → I i t → I (i + 1) t
  record : ∀ i t, i + 2 + byteAt d (i + 1) ≤ d.length → I i t →
    I (i + 2 + byteAt d (i + 1)) (t.addRecord (byteAt d i) (byteAt d (i + 1)) (src + i + 2) (byteAt d (i + 2)))

theorem ScanInvariant.of_scanLoop {mode : PadMode} {d : List Byte} {src fuel i : Nat} {I : Nat → OptScan → Prop}
    {t r : OptScan} (hI : ScanInvariant d src I) (hstart : I i t) (h : scanLoop mode d src fuel i t = .ok r) :
    ∃ j, I j r := by
  induction fuel generalizing i t with
  | zero => cases h; exact ⟨i, hstart⟩
  | succ fuel ih =>
    simp only [scanLoop] at h
    split at h
    · cases h; exact ⟨i, hstart⟩
    · next hinside =>
      split at h
      · cases h; exact ⟨i, hI.terminator i t hstart⟩
      · split at h
        · exact ih (hI.pad i t (by omega) hstart) h
        · split at h
          · cases h
          · split at h
            · cases h
            · next hrecord => exact ih (hI.record i t (by omega) hstart) h

/-! ### The message type (R96) -/

/-- What `t` says of the message type is what its first length-1 option 53 says; `src` is the address of `d`. -/
def OptScan.TypeFound (d : List Byte) (src : Nat) (t : OptScan) : Prop :=
  match t.entries.find? (fun e => e.tag == 53 && e.len == 1) with
  | some e => t.mtv = true ∧ src ≤ e.vaddr ∧ t.mt = byteAt d (e.vaddr - src)
  | none => t.mtv = false ∧ t.mt = 0

theorem OptScan.typeFound_start (d : List Byte) (src : Nat) : OptScan.start.TypeFound d src := ⟨rfl, rfl⟩

theorem OptScan.TypeFound.addRecord {d : List Byte} {src : Nat} {t : OptScan} (h : t.TypeFound d src)
    (tag len i : Nat) : (t.addRecord tag len (src + i) (byteAt d i)).TypeFound d src := by
  rw [OptScan.addRecord_eq]
  simp only [OptScan.TypeFound, List.find?_append] at h ⊢
  cases hfind : t.entries.find? (fun e => e.tag == 53 && e.len == 1) with
  | some e =>
    rw [hfind] at h
    simpa [h.1] using h.2
  | none =>
    obtain ⟨hmtv, hmt⟩ : t.mtv = false ∧ t.mt = 0 := by rwa [hfind] at h
    by_cases hrecord : tag = 53 ∧ len = 1
    · simp [hrecord, hmtv]
    · have hother : (tag == 53 && len == 1) = false := by simpa using hrecord
      simp [hother, hrecord, hmtv, hmt]

/-- Settles O31: every iteration keeps `TypeFound`. -/
theorem messageTypeIsFirstLengthOneRecord : Obligations.MessageTypeIsFirstLengthOneRecord := by
  intro mode d src r h
  have hinvariant : ScanInvariant d src fun _ t => t.TypeFound d src :=
    ⟨fun _ _ ht => ht, fun _ _ _ ht => ht, fun i _ _ ht => ht.addRecord _ _ (i + 2)⟩
  obtain ⟨-, hr⟩ := hinvariant.of_scanLoop (OptScan.typeFound_start d src) h
  exact hr

theorem scanOptions_mt_lt {mode : PadMode} {d : List Byte} {src : Nat} {r : OptScan}
    (h : scanOptions mode d src = .ok r) : r.mt < 256 := by
  have htype := messageTypeIsFirstLengthOneRecord mode d src r h
  split at htype
  · rw [htype.2.2]
    exact byteAt_lt _ _
  · rw [htype.2]
    decide

/-! ### The number of records (R98) -/

/-- Every record takes at least two of the option bytes. -/
theorem scanOptions_entries_le {mode : PadMode} {d : List Byte} {src : Nat} {r : OptScan} (hd : 240 ≤ d.length)
    (h : scanOptions mode d src = .ok r) : 2 * r.entries.length ≤ d.length - 240 := by
  have hinvariant : ScanInvariant d src fun i t => 2 * t.entries.length + 240 ≤ i ∧ i ≤ d.length :=
    ⟨fun _ _ ht => ht, fun _ _ _ _ => by omega, fun i t _ _ => by
      simp only [OptScan.addRecord_eq, List.length_append, List.length_singleton]
      omega⟩
  obtain ⟨j, hcount, hindex⟩ := hinvariant.of_scanLoop (t := .start) ⟨Nat.le_refl 240, hd⟩ h
  omega

end Sys2Proof.Machine
end

section
/-! The commands DHCP_DECODE and DHCP_ENCODE (44_dhcp_codec.md R92, R97 to R100). -/

namespace Sys2Proof.Machine

/-! ### DHCP_DECODE -/

/-- The bytes of `MEM` that DHCP_DECODE decodes. -/
def State.dhcpData (s : State) : List Byte := s.memRead s.latch.a0.toNat s.latch.a1.toNat

theorem State.memRead_eq_dhcpData (s : State) : s.memRead s.latch.a0.toNat s.latch.a1.toNat = s.dhcpData := rfl

@[simp] theorem State.dhcpData_length (s : State) : s.dhcpData.length = s.latch.a1.toNat := s.memRead_length _ _

/-- The result registers for the message `d` in which the scan found `r` (R98). -/
def dhcpResults (d : List Byte) (r : OptScan) : ResFile :=
  { r0 := BitVec.ofNat 32 (byteAt d 0 + byteAt d 1 * 2 ^ 8 + byteAt d 2 * 2 ^ 16 + byteAt d 3 * 2 ^ 24)
    r1 := BitVec.ofNat 32 (be32 d 4)
    r2 := BitVec.ofNat 32 (be16 d 8 + be16 d 10 * 2 ^ 16)
    r3 := BitVec.ofNat 32 (be32 d 12)
    r4 := BitVec.ofNat 32 (be32 d 16)
    r5 := BitVec.ofNat 32 (be32 d 20)
    r6 := BitVec.ofNat 32 (be32 d 24)
    r7 := BitVec.ofNat 32 (r.mt + r.mtv.toNat * 2 ^ 8 + r.endSeen.toNat * 2 ^ 9 + r.entries.length * 2 ^ 16) }

/-- The option table of R97 in the terms of the statements. -/
def tableOf (entries : List OptEntry) : List Byte :=
  entries.flatMap fun e => tableEntry (BitVec.ofNat 8 e.tag) (BitVec.ofNat 8 e.len) e.vaddr

theorem optTable_eq_tableOf (entries : List OptEntry) : optTable entries = tableOf entries := by
  simp only [optTable, tableOf, tableEntry, enc16_eq_halfBytes, byte]

@[simp] theorem tableOf_length (entries : List OptEntry) : (tableOf entries).length = 4 * entries.length := by
  rw [← optTable_eq_tableOf, optTable_length]

/-- What DHCP_DECODE does with the scan's result: it checks the table's region and packs its results. -/
def State.dhcpReport (s : State) (r : OptScan) : Except ErrCode Effect :=
  rangeCheck s s.latch.a2.toNat (4 * r.entries.length)
    (.ok { res := dhcpResults s.dhcpData r, writes := [(s.latch.a2.toNat, tableOf r.entries)] })

/-- A message that passes the checks of R92. -/
structure DhcpAccepts (d : List Byte) : Prop where
  fixedPart : 240 ≤ d.length
  hlen : byteAt d 2 ≤ 16
  cookie : slice d 236 240 = magicCookie

/-- The checks of DHCP_DECODE in order, its results in the terms of the statements. -/
theorem commandOutcome_dhcpDecode (s : State) :
    commandOutcome .dhcpDecode s =
      (rangeCheck s s.latch.a0.toNat s.latch.a1.toNat <|
      raiseIf (decide (s.latch.a1.toNat < 240)) .short <|
      raiseIf (decide (16 < byteAt s.dhcpData 2)) .hlen <|
      raiseIf (decide (slice s.dhcpData 236 240 ≠ magicCookie)) .cookie <|
      (scanOptions s.params.padMode s.dhcpData s.latch.a0.toNat).bind s.dhcpReport) := by
  refine congrArg (rangeCheck s _ _) (congrArg (raiseIf _ _) (congrArg (raiseIf _ _) (congrArg (raiseIf _ _) ?_)))
  cases hscan : scanOptions s.params.padMode s.dhcpData s.latch.a0.toNat with
  | error c => simp only [State.memRead_eq_dhcpData, hscan, Except.bind]
  | ok r =>
    simp only [State.memRead_eq_dhcpData, hscan, Except.bind, State.dhcpReport, dhcpResults]
    rw [pack4 (byteAt_lt _ _) (byteAt_lt _ _) (byteAt_lt _ _), pack2 (be16_lt _ _),
      pack_dhcp (scanOptions_mt_lt hscan) r.mtv.toNat_lt r.endSeen.toNat_lt, optTable_eq_tableOf]
    simp only [word]

section
variable {s : State} (hin : s.latch.a0.toNat + s.latch.a1.toNat ≤ s.params.memBytes)
include hin

theorem exec_dhcpDecode_short (h : s.latch.a1.toNat < 240) : exec .dhcpDecode s = .next (s.afterError .short) := by
  refine exec_of_error ?_
  rw [commandOutcome_dhcpDecode, rangeCheck_pass _ hin, raiseIf_stop h]

theorem exec_dhcpDecode_hlen (hfixed : 240 ≤ s.latch.a1.toNat) (h : 16 < byteAt s.dhcpData 2) :
    exec .dhcpDecode s = .next (s.afterError .hlen) := by
  refine exec_of_error ?_
  rw [commandOutcome_dhcpDecode, rangeCheck_pass _ hin, raiseIf_pass (by omega), raiseIf_stop h]

theorem exec_dhcpDecode_cookie (hfixed : 240 ≤ s.latch.a1.toNat) (hhlen : byteAt s.dhcpData 2 ≤ 16)
    (h : slice s.dhcpData 236 240 ≠ magicCookie) : exec .dhcpDecode s = .next (s.afterError .cookie) := by
  refine exec_of_error ?_
  rw [commandOutcome_dhcpDecode, rangeCheck_pass _ hin, raiseIf_pass (by omega), raiseIf_pass (by omega),
    raiseIf_stop h]

/-- Behind the checks of R92 the outcome is the scan's error or the report of what it found. -/
theorem commandOutcome_dhcpDecode_of_accepts (h : DhcpAccepts s.dhcpData) :
    commandOutcome .dhcpDecode s =
      (scanOptions s.params.padMode s.dhcpData s.latch.a0.toNat).bind s.dhcpReport := by
  obtain ⟨hfixed, hhlen, hcookie⟩ := h
  rw [State.dhcpData_length] at hfixed
  rw [commandOutcome_dhcpDecode, rangeCheck_pass _ hin, raiseIf_pass (by omega), raiseIf_pass (by omega),
    raiseIf_pass (not_not.mpr hcookie)]

theorem exec_dhcpDecode_scan_error (h : DhcpAccepts s.dhcpData) {c : ErrCode}
    (hscan : scanOptions s.params.padMode s.dhcpData s.latch.a0.toNat = .error c) :
    exec .dhcpDecode s = .next (s.afterError c) :=
  exec_of_error ((commandOutcome_dhcpDecode_of_accepts hin h).trans (bind_eq_error.mpr (.inl hscan)))

variable (h : DhcpAccepts s.dhcpData) {r : OptScan}
  (hscan : scanOptions s.params.padMode s.dhcpData s.latch.a0.toNat = .ok r)
include h hscan

theorem exec_dhcpDecode_table_outside (htable : s.params.memBytes < s.latch.a2.toNat + 4 * r.entries.length) :
    exec .dhcpDecode s = .next (s.afterError .range) :=
  exec_of_error ((commandOutcome_dhcpDecode_of_accepts hin h).trans
    (bind_eq_error.mpr (.inr ⟨r, hscan, rangeCheck_fail _ htable⟩)))

theorem exec_dhcpDecode_success (htable : s.latch.a2.toNat + 4 * r.entries.length ≤ s.params.memBytes) :
    ∃ t, exec .dhcpDecode s = .next t ∧ t = s.afterSuccess (dhcpResults s.dhcpData r) t.mem ∧
      Stored s t s.latch.a2.toNat (tableOf r.entries) :=
  exec_of_ok_of_write ((commandOutcome_dhcpDecode_of_accepts hin h).trans
    (bind_eq_ok.mpr ⟨r, hscan, rangeCheck_pass _ htable⟩))

end

/-- Settles O28: the checks of R92 in order, then the scan's error or its report. -/
theorem dhcpDecodeResult : Obligations.DhcpDecodeResult := by
  refine ⟨decode_encode .dhcpDecode, ?_⟩
  rintro s _ _ _ _ rfl rfl rfl rfl
  refine ⟨fun hout => exec_of_error (rangeCheck_fail _ hout), fun hin => ⟨exec_dhcpDecode_short hin,
    exec_dhcpDecode_hlen hin, exec_dhcpDecode_cookie hin, fun hfixed hhlen hcookie => ?_⟩⟩
  have haccepts : DhcpAccepts s.dhcpData := ⟨hfixed.trans_eq s.dhcpData_length.symm, hhlen, hcookie⟩
  refine ⟨fun c hscan => ?_, fun r hscan => ⟨?_, exec_dhcpDecode_table_outside hin haccepts hscan,
    exec_dhcpDecode_success hin haccepts hscan⟩⟩
  · obtain rfl := scanLoop_error hscan
    exact ⟨rfl, exec_dhcpDecode_scan_error hin haccepts hscan⟩
  · have hcount := scanOptions_entries_le haccepts.fixedPart hscan
    rwa [State.dhcpData_length] at hcount

/-! ### DHCP_ENCODE -/

/-- The message that DHCP_ENCODE makes of its arguments (R100). -/
def State.dhcpEncoded (s : State) : List Byte :=
  dhcpMessageOf s.latch (s.memRead s.latch.a0.toNat s.latch.a1.toNat)

theorem commandOutcome_dhcpEncode (s : State) :
    commandOutcome .dhcpEncode s =
      (rangeCheck s s.latch.a0.toNat s.latch.a1.toNat <|
      rangeCheck s s.latch.a2.toNat (244 + s.latch.a1.toNat) <|
      .ok
        { res := { s.res with r0 := BitVec.ofNat 32 (244 + s.latch.a1.toNat) }
          writes := [(s.latch.a2.toNat, s.dhcpEncoded)] }) := by
  simp only [commandOutcome, dhcpEncodeOutcome, dhcpMessage_eq, State.dhcpEncoded, word]

/-- Settles O29: the two range checks decide between the three ends. -/
theorem dhcpEncodeResult : Obligations.DhcpEncodeResult := by
  refine ⟨decode_encode .dhcpEncode, ?_⟩
  rintro s _ _ _ rfl rfl rfl
  have houtcome := commandOutcome_dhcpEncode s
  exact ⟨fun hin hout => exec_of_ok_of_write (by rw [houtcome, rangeCheck_pass _ hin, rangeCheck_pass _ hout]; rfl),
    fun hin => exec_of_error (houtcome.trans (rangeCheck_fail _ hin)),
    fun hin hout => exec_of_error (by rw [houtcome, rangeCheck_pass _ hin, rangeCheck_fail _ hout])⟩

end Sys2Proof.Machine
end

section
/-! Messages of DHCP_ENCODE decoded again (44_dhcp_codec.md R101): what the scan finds in a catalog of well-formed
records, where the parts of the message stand in `MEM`, and what its fields read as. -/

namespace Sys2Proof.Machine

/-! ### Scanning records (30_encoding.md R54) -/

@[simp] theorem optRecord_length (r : Byte × List Byte) : (optRecord r).length = 2 + r.2.length := by
  simp [optRecord]
  omega

/-- The entries of the records `recs`, the first of which stands at the address `a`. -/
def recordEntries (a : Nat) : List (Byte × List Byte) → List OptEntry
  | [] => []
  | r :: rest => { tag := r.1.toNat, len := r.2.length, vaddr := a + 2 } :: recordEntries (a + 2 + r.2.length) rest

@[simp] theorem recordEntries_length (a : Nat) (recs : List (Byte × List Byte)) :
    (recordEntries a recs).length = recs.length := by
  induction recs generalizing a with
  | nil => rfl
  | cons r rest ih => simp [recordEntries, ih]

theorem recordEntries_append (a : Nat) (xs ys : List (Byte × List Byte)) :
    recordEntries a (xs ++ ys) = recordEntries a xs ++ recordEntries (a + (xs.flatMap optRecord).length) ys := by
  induction xs generalizing a with
  | nil => rfl
  | cons r rest ih =>
    have haddr : a + 2 + r.2.length + (rest.flatMap optRecord).length =
        a + ((r :: rest).flatMap optRecord).length := by
      rw [List.flatMap_cons, List.length_append, optRecord_length]
      omega
    rw [List.cons_append, recordEntries, recordEntries, ih, haddr, List.cons_append]

section
variable {mode : PadMode} {d rest : List Byte} {src i : Nat} {t : OptScan}

/-- The terminator ends the scan (R95). -/
theorem scanFrom_terminator (hd : d.drop i = 255 :: rest) :
    scanFrom mode d src i t = .ok { t with endSeen := true } := by
  have hinside := congrArg List.length hd
  rw [List.length_drop, List.length_cons] at hinside
  have htag : byteAt d i = 255 := (byteAt_drop d i 0).symm.trans (by rw [hd]; rfl)
  rw [scanFrom_eq, if_neg (by omega), if_pos htag]

/-- The scan steps over a well-formed record that is no terminator and no pad (R94, R95). -/
theorem scanFrom_optRecord {r : Byte × List Byte} (hd : d.drop i = optRecord r ++ rest) (hlen : r.2.length ≤ 255)
    (hend : r.1 ≠ 255) (hpad : mode = .rfc → r.1 ≠ 0) :
    scanFrom mode d src i t =
      scanFrom mode d src (i + 2 + r.2.length)
        (t.addRecord r.1.toNat r.2.length (src + i + 2) (byteAt d (i + 2))) := by
  have hinside := congrArg List.length hd
  rw [List.length_drop, List.length_append, optRecord_length] at hinside
  have htag : byteAt d i = r.1.toNat := (byteAt_drop d i 0).symm.trans (by rw [hd]; rfl)
  have hlength : byteAt d (i + 1) = r.2.length := by
    have hbyte : byteAt d (i + 1) = (BitVec.ofNat 8 r.2.length).toNat :=
      (byteAt_drop d i 1).symm.trans (by rw [hd]; rfl)
    rw [hbyte, BitVec.toNat_ofNat, Nat.mod_eq_of_lt (by omega)]
  have hend' : r.1.toNat ≠ 255 := fun h => hend (BitVec.eq_of_toNat_eq h)
  have hpad' : ¬ (r.1.toNat = 0 ∧ mode = .rfc) := fun h => hpad h.2 (BitVec.eq_of_toNat_eq h.1)
  rw [scanFrom_eq, htag, hlength, if_neg (by omega), if_neg hend', if_neg hpad', if_neg (by omega), if_neg (by omega)]

end

/-- A well-formed record that R101 admits in a catalog: no terminator, no length-1 message type, no pad in RFC mode. -/
def CatalogRecord (mode : PadMode) (r : Byte × List Byte) : Prop :=
  r.2.length ≤ 255 ∧ r.1 ≠ 255 ∧ ¬ (r.1 = 53 ∧ r.2.length = 1) ∧ (mode = .rfc → r.1 ≠ 0)

/-- A catalog leaves its entries and no message type. -/
theorem scanFrom_catalog {mode : PadMode} {d rest : List Byte} {src i : Nat} {t : OptScan}
    {recs : List (Byte × List Byte)} (hd : d.drop i = recs.flatMap optRecord ++ rest)
    (hrecs : ∀ r ∈ recs, CatalogRecord mode r) :
    scanFrom mode d src i t =
      scanFrom mode d src (i + (recs.flatMap optRecord).length)
        { t with entries := t.entries ++ recordEntries (src + i) recs } := by
  induction recs generalizing i t with
  | nil => simp [recordEntries]
  | cons r recs ih =>
    rw [List.flatMap_cons, List.append_assoc] at hd
    obtain ⟨hlen, hend, htype, hpad⟩ := hrecs r (by simp)
    have htype' : ¬ (r.1.toNat = 53 ∧ r.2.length = 1 ∧ t.mtv = false) := fun h =>
      htype ⟨BitVec.eq_of_toNat_eq h.1, h.2.1⟩
    have hrest : d.drop (i + 2 + r.2.length) = recs.flatMap optRecord ++ rest := by
      rw [Nat.add_assoc, ← List.drop_drop, hd, List.drop_left' (optRecord_length r)]
    rw [scanFrom_optRecord hd hlen hend hpad, ih hrest fun r' h => hrecs r' (List.mem_cons_of_mem r h),
      OptScan.addRecord_eq, decide_eq_false htype', List.flatMap_cons, List.length_append, optRecord_length]
    simp [recordEntries, Nat.add_assoc]

/-- The options that DHCP_ENCODE writes scan as the catalog's records and the message type (R100). -/
theorem scanOptions_message {mode : PadMode} {d : List Byte} {src : Nat} {recs : List (Byte × List Byte)} {mt : Byte}
    (hd : d.drop 240 = recs.flatMap optRecord ++ [53, 1, mt, 255]) (hrecs : ∀ r ∈ recs, CatalogRecord mode r) :
    scanOptions mode d src =
      .ok
        { entries := recordEntries (src + 240) (recs ++ [(53, [mt])])
          mt := mt.toNat
          mtv := true
          endSeen := true } := by
  have hdtype : d.drop (240 + (recs.flatMap optRecord).length) = optRecord (53, [mt]) ++ [255] := by
    rw [← List.drop_drop, hd, List.drop_left]
    rfl
  have hdend : d.drop (240 + (recs.flatMap optRecord).length + 2 + 1) = 255 :: [] := by
    rw [Nat.add_assoc _ 2 1, ← List.drop_drop, hdtype]
    rfl
  have hmt : byteAt d (240 + (recs.flatMap optRecord).length + 2) = mt.toNat := by
    rw [← byteAt_drop, hdtype]
    rfl
  rw [scanOptions_eq_scanFrom, scanFrom_catalog hd hrecs,
    scanFrom_optRecord hdtype (by simp) (show (53 : Byte) ≠ 255 by decide)
      (fun _ => show (53 : Byte) ≠ 0 by decide),
    List.length_singleton, scanFrom_terminator hdend, hmt, OptScan.addRecord_eq, recordEntries_append]
  simp [OptScan.start, recordEntries, Nat.add_assoc]

/-! ### The parts of a region -/

/-- The two parts of what a region reads as stand one after the other. -/
theorem State.memRead_eq_append {s : State} {a n : Nat} {b c : List Byte} (h : s.memRead a n = b ++ c) :
    s.memRead a b.length = b ∧ s.memRead (a + b.length) c.length = c := by
  have hn : n = b.length + c.length := by rw [← s.memRead_length a n, h, List.length_append]
  have hparts : s.memRead a n = s.memRead a b.length ++ s.memRead (a + b.length) c.length := by
    rw [hn]
    simp [State.memRead, List.range_add, Nat.add_assoc]
  exact List.append_inj (hparts.symm.trans h) (s.memRead_length _ _)

section
variable {s : State} {a b n : Nat} {xs ys : List (Byte × List Byte)} {r : Byte × List Byte} {rest : List Byte}

/-- The value bytes of a record stand behind the records before it and its tag and length. -/
theorem State.memRead_value (h : s.memRead a n = (xs ++ r :: ys).flatMap optRecord ++ rest) :
    s.memRead (a + (xs.flatMap optRecord).length + 2) r.2.length = r.2 := by
  have hparts : s.memRead a n = xs.flatMap optRecord ++
      ([r.1, BitVec.ofNat 8 r.2.length] ++ (r.2 ++ (ys.flatMap optRecord ++ rest))) := by
    simp [h, optRecord]
  obtain ⟨-, hrecord⟩ := State.memRead_eq_append hparts
  obtain ⟨-, hvalue⟩ := State.memRead_eq_append hrecord
  exact (State.memRead_eq_append hvalue).1

/-- The entry of a record stands behind the entries of the records before it (R97). -/
theorem State.memRead_entry (h : s.memRead a n = tableOf (recordEntries b (xs ++ r :: ys))) :
    s.memRead (a + 4 * xs.length) 4 =
      tableEntry r.1 (BitVec.ofNat 8 r.2.length) (b + (xs.flatMap optRecord).length + 2) := by
  have hentries : tableOf (recordEntries b (xs ++ r :: ys)) = tableOf (recordEntries b xs) ++
      (tableEntry r.1 (BitVec.ofNat 8 r.2.length) (b + (xs.flatMap optRecord).length + 2) ++
        tableOf (recordEntries (b + (xs.flatMap optRecord).length + 2 + r.2.length) ys)) := by
    rw [recordEntries_append]
    simp [tableOf, recordEntries]
  obtain ⟨-, hrest⟩ := State.memRead_eq_append (h.trans hentries)
  rw [tableOf_length, recordEntries_length] at hrest
  exact (State.memRead_eq_append hrest).1

end

/-! ### The message of DHCP_ENCODE (R52, R100) -/

/-- The message-type argument. -/
def ArgFile.dhcpType (l : ArgFile) : Byte := l.a10.extractLsb' 16 8

/-- The op byte of R99. -/
def ArgFile.dhcpOp (l : ArgFile) : Byte := if l.dhcpType = 2 ∨ l.dhcpType = 5 ∨ l.dhcpType = 6 then 2 else 1

/-- The fields in front of the hardware address, 28 bytes. -/
def ArgFile.dhcpFields (l : ArgFile) : List Byte :=
  [l.dhcpOp, 1, 6, l.a10.extractLsb' 24 8] ++ wordBytes l.a3 ++ halfBytes (l.a4.extractLsb' 0 16) ++
    halfBytes (l.a4.extractLsb' 16 16) ++ wordBytes l.a5 ++ wordBytes l.a6 ++ wordBytes l.a7 ++ wordBytes l.a8

/-- The hardware address, 6 bytes. -/
def ArgFile.dhcpAddress (l : ArgFile) : List Byte := wordBytes l.a9 ++ halfBytes (l.a10.extractLsb' 0 16)

theorem dhcpMessageOf_eq (l : ArgFile) (c : List Byte) :
    dhcpMessageOf l c = l.dhcpFields ++ (l.dhcpAddress ++ (List.replicate (10 + 64 + 128) 0 ++
      (magicCookie ++ (c ++ [53, 1, l.dhcpType, 255])))) := by
  simp only [dhcpMessageOf, ArgFile.dhcpFields, ArgFile.dhcpOp, ArgFile.dhcpType, ArgFile.dhcpAddress, magicCookie,
    List.append_assoc]
  rfl

theorem dhcpMessageOf_length (l : ArgFile) (c : List Byte) : (dhcpMessageOf l c).length = 244 + c.length := by
  rw [← dhcpMessage_eq, dhcpMessage_length]

theorem drop_dhcpMessageOf_cookie (l : ArgFile) (c : List Byte) :
    (dhcpMessageOf l c).drop 236 = magicCookie ++ (c ++ [53, 1, l.dhcpType, 255]) := by
  have hfront : (l.dhcpFields ++ (l.dhcpAddress ++ List.replicate (10 + 64 + 128) 0)).length = 236 := by
    simp only [List.length_append, List.length_replicate]
    rfl
  rw [dhcpMessageOf_eq, ← List.append_assoc l.dhcpAddress, ← List.append_assoc l.dhcpFields, List.drop_left' hfront]

theorem drop_dhcpMessageOf_options (l : ArgFile) (c : List Byte) :
    (dhcpMessageOf l c).drop 240 = c ++ [53, 1, l.dhcpType, 255] := by
  rw [show 240 = 236 + 4 from rfl, ← List.drop_drop, drop_dhcpMessageOf_cookie]
  rfl

theorem dhcpAccepts_dhcpMessageOf (l : ArgFile) (c : List Byte) : DhcpAccepts (dhcpMessageOf l c) := by
  refine ⟨by rw [dhcpMessageOf_length]; omega, ?_, ?_⟩
  · rw [dhcpMessageOf_eq]
    exact (by decide : 6 ≤ 16)
  · rw [slice, drop_dhcpMessageOf_cookie]
    rfl

theorem ofNat_add_mul_eq_append4 (b0 b1 b2 b3 : Byte) :
    BitVec.ofNat 32 (b0.toNat + b1.toNat * 2 ^ 8 + b2.toNat * 2 ^ 16 + b3.toNat * 2 ^ 24) = b3 ++ b2 ++ b1 ++ b0 := by
  rw [← ofNat_add_mul_eq_append (b3 ++ b2 ++ b1) b0]
  simp only [toNat_append_eq_add]
  congr 1
  omega

/-- The result registers that a decode of the message leaves, but for the scan's (R98, R101). -/
theorem dhcpResults_dhcpMessageOf (l : ArgFile) (c : List Byte) (r : OptScan) :
    dhcpResults (dhcpMessageOf l c) r =
      { r0 := l.a10.extractLsb' 24 8 ++ (6 : Byte) ++ (1 : Byte) ++ l.dhcpOp
        r1 := l.a3
        r2 := l.a4
        r3 := l.a5
        r4 := l.a6
        r5 := l.a7
        r6 := l.a8
        r7 := BitVec.ofNat 32
          (r.mt + r.mtv.toNat * 2 ^ 8 + r.endSeen.toNat * 2 ^ 9 + r.entries.length * 2 ^ 16) } := by
  have hword {d : List Byte} {i : Nat} {v : Word} (h : be32 d i = v.toNat) : BitVec.ofNat 32 (be32 d i) = v := by
    rw [h, BitVec.ofNat_toNat, BitVec.setWidth_eq]
  rw [dhcpResults, dhcpMessageOf_eq, ResFile.mk.injEq]
  refine ⟨?_, hword (wordBytes_value _), ?_, hword (wordBytes_value _), hword (wordBytes_value _),
    hword (wordBytes_value _), hword (wordBytes_value _), rfl⟩
  · exact ofNat_add_mul_eq_append4 _ _ _ _
  · have hhalves := ofNat_add_mul_eq_append (l.a4.extractLsb' 16 16) (l.a4.extractLsb' 0 16)
    rw [BitVec.extractLsb'_append_extractLsb', ← halfBytes_value (l.a4.extractLsb' 16 16),
      ← halfBytes_value (l.a4.extractLsb' 0 16)] at hhalves
    exact hhalves

/-- Where the parts of a message stand that the block leaves in `MEM` (R93). -/
theorem State.memRead_dhcpMessageOf {s : State} {a n : Nat} {l : ArgFile} {c : List Byte}
    (h : s.memRead a n = dhcpMessageOf l c) :
    s.memRead (a + 28) 6 = l.dhcpAddress ∧
      s.memRead (a + 34) (10 + 64 + 128) = List.replicate (10 + 64 + 128) 0 ∧
      s.memRead (a + 240) (c.length + 4) = c ++ [53, 1, l.dhcpType, 255] := by
  rw [dhcpMessageOf_eq] at h
  obtain ⟨-, hrest⟩ := State.memRead_eq_append h
  obtain ⟨haddress, hrest⟩ := State.memRead_eq_append hrest
  obtain ⟨hzeros, hrest⟩ := State.memRead_eq_append hrest
  obtain ⟨-, hoptions⟩ := State.memRead_eq_append hrest
  rw [List.length_replicate, List.length_append] at hoptions
  exact ⟨haddress, hzeros, hoptions⟩

/-! ### The round trip -/

/-- What DHCP_ENCODE did that ended without error. -/
theorem dhcpEncode_of_exec {s t : State} (hexec : exec .dhcpEncode s = .next t) (herr : t.status.err = false) :
    s.latch.a2.toNat + (244 + s.latch.a1.toNat) ≤ s.params.memBytes ∧ t.params = s.params ∧
      t.res.r0 = BitVec.ofNat 32 (244 + s.latch.a1.toNat) ∧
      t.memRead s.latch.a2.toNat (244 + s.latch.a1.toNat) = s.dhcpEncoded := by
  obtain ⟨e, he, rfl⟩ := commandOutcome_ok_of_exec hexec herr
  obtain ⟨-, hrest⟩ := rangeCheck_eq_ok.mp ((commandOutcome_dhcpEncode s).symm.trans he)
  obtain ⟨hout, heffect⟩ := rangeCheck_eq_ok.mp hrest
  cases heffect
  refine ⟨hout, rfl, rfl, (succeed_stored s _ _ s.dhcpEncoded).memRead ?_⟩
  rw [State.dhcpEncoded, dhcpMessageOf_length, State.memRead_length]

/-- DHCP_DECODE of a message around a catalog of well-formed records. -/
theorem exec_dhcpDecode_of_message {s : State} {a : ArgFile} {recs : List (Byte × List Byte)}
    (hdata : s.dhcpData = dhcpMessageOf a (recs.flatMap optRecord))
    (hrecs : ∀ r ∈ recs, CatalogRecord s.params.padMode r)
    (hin : s.latch.a0.toNat + s.latch.a1.toNat ≤ s.params.memBytes)
    (htable : s.latch.a2.toNat + 4 * (recs.length + 1) ≤ s.params.memBytes) :
    ∃ u, exec .dhcpDecode s = .next u ∧ u.status.err = false ∧
      u.res =
        { r0 := a.a10.extractLsb' 24 8 ++ (6 : Byte) ++ (1 : Byte) ++ a.dhcpOp
          r1 := a.a3
          r2 := a.a4
          r3 := a.a5
          r4 := a.a6
          r5 := a.a7
          r6 := a.a8
          r7 := BitVec.ofNat 32 (a.dhcpType.toNat + 2 ^ 8 + 2 ^ 9 + (recs.length + 1) * 2 ^ 16) } ∧
      u.memRead s.latch.a2.toNat (4 * (recs.length + 1)) =
        tableOf (recordEntries (s.latch.a0.toNat + 240) (recs ++ [(53, [a.dhcpType])])) := by
  have haccepts : DhcpAccepts s.dhcpData := hdata ▸ dhcpAccepts_dhcpMessageOf a _
  have hscan := scanOptions_message (src := s.latch.a0.toNat) (hdata ▸ drop_dhcpMessageOf_options a _) hrecs
  have hcount : (recordEntries (s.latch.a0.toNat + 240) (recs ++ [(53, [a.dhcpType])])).length = recs.length + 1 := by
    rw [recordEntries_length, List.length_append, List.length_singleton]
  obtain ⟨u, hexec, hu, hstored⟩ := exec_dhcpDecode_success hin haccepts hscan (by rwa [hcount])
  refine ⟨u, hexec, by rw [hu]; rfl, ?_, hstored.memRead (by rw [tableOf_length, hcount])⟩
  have hres : u.res = dhcpResults s.dhcpData _ := congrArg State.res hu
  rw [hres, hdata, dhcpResults_dhcpMessageOf]
  simp only [hcount, Bool.toNat_true, Nat.one_mul]

/-- Settles O39: the message reads back as it was built, its options scan as the catalog and the message type, and each
record's value and table entry stand where `memRead_value` and `memRead_entry` say. -/
theorem dhcpRoundTrip : Obligations.DhcpRoundTrip := by
  rintro s t l recs _ _ hlegal hexec herr hcatalog hrecs rfl ha0 ha1 rfl htable
  obtain ⟨hout, hparams, hr0, hread⟩ := dhcpEncode_of_exec hexec herr
  have hclen : (recs.flatMap optRecord).length = s.latch.a1.toNat := by rw [← hcatalog, State.memRead_length]
  have hn : l.a1.toNat = 244 + s.latch.a1.toNat := by
    have hmem : s.params.memBytes ≤ 65536 := (of_decide_eq_true hlegal).2
    rw [ha1, hr0, BitVec.toNat_ofNat, Nat.mod_eq_of_lt (by omega)]
  rw [State.dhcpEncoded, hcatalog] at hread
  have hdata : State.dhcpData { t with latch := l } = dhcpMessageOf s.latch (recs.flatMap optRecord) := by
    rw [← hread, ← ha0, ← hn]
    rfl
  rw [← hparams, ← ha0, ← hn] at hout
  rw [← hparams] at hrecs htable
  obtain ⟨u, hdecode, huerr, hures, hutable⟩ := exec_dhcpDecode_of_message hdata hrecs hout htable
  rw [ha0] at hutable
  obtain ⟨haddress, hzeros, hoptions⟩ := State.memRead_dhcpMessageOf hread
  have hrecords : recs.flatMap optRecord ++ [53, 1, s.latch.dhcpType, 255] =
      (recs ++ [(53, [s.latch.dhcpType])]).flatMap optRecord ++ [255] := by
    rw [List.flatMap_append, List.append_assoc]
    rfl
  rw [hrecords] at hoptions
  refine ⟨u, hdecode, huerr, hures, haddress, hzeros, fun k hk => ?_, ?_, ?_⟩
  · have hsplit : recs ++ [(53, [s.latch.dhcpType])] =
        recs.take k ++ recs[k] :: (recs.drop (k + 1) ++ [(53, [s.latch.dhcpType])]) := by
      rw [← List.cons_append, ← List.append_assoc, ← List.drop_eq_getElem_cons hk, List.take_append_drop]
    rw [hsplit] at hutable hoptions
    have hentry := State.memRead_entry hutable
    rw [List.length_take, Nat.min_eq_left hk.le] at hentry
    exact ⟨hentry, State.memRead_value hoptions⟩
  · rw [← hclen]
    exact State.memRead_entry hutable
  · have hvalue := State.memRead_value hoptions
    rw [hclen] at hvalue
    exact (List.cons.inj hvalue).1

end Sys2Proof.Machine
end

section
/-! Errors, host faults and the interrupt (60_exceptions.md R103, R105, R109; 10_state.md R19). -/

namespace Sys2Proof.Machine

/-! ### Errors -/

/-- A command that ends with ERR = 1 has failed, and a failure changes `STATUS` alone (R61, R103). -/
theorem exec_eq_afterError {i : Instr} {s t : State} (h : exec i s = .next t) (herr : t.status.err = true) :
    t = s.afterError t.status.errCode ∧ t.status.errCode ≠ .noError := by
  rcases exec_eq_next h with ⟨e, -, rfl, -⟩ | ⟨c, -, rfl, hc⟩
  · exact absurd herr (by simp)
  · exact ⟨fail_eq_afterError s c, hc⟩

/-- Settles O11: the perform step of a legal word is its command, and that of an illegal word fails with BADCMD. -/
theorem errorsArePrecise : Obligations.ErrorsArePrecise := by
  refine ⟨fun _ _ _ => exec_eq_afterError, fun s t h herr => ?_⟩
  by_cases hlegal : ∃ i, decode s.cmdLast = .ok i
  · obtain ⟨i, hi⟩ := hlegal
    rw [performStep_of_decode hi] at h
    exact exec_eq_afterError h herr
  · rw [performStep_of_not_decode hlegal] at h
    cases h
    exact ⟨rfl, by simp [State.afterError]⟩

/-! ### Host faults and parameters -/

@[simp] theorem hostStep_params (s : State) : (hostStep s).params = s.params := by
  rcases hostStep_cases s with h | ⟨rest, acc, h⟩ | ⟨rest, v, h⟩ <;> simp [h]

/-- No operation of the host clears a recorded host fault (R109). -/
theorem hostStep_sticky (s : State) :
    (s.badAccess = true → (hostStep s).badAccess = true) ∧
    (s.memWhileBusy = true → (hostStep s).memWhileBusy = true) := by
  rcases hostStep_cases s with h | ⟨rest, acc, h⟩ | ⟨rest, v, h⟩ <;> rw [h]
  · exact ⟨id, id⟩
  · exact hostAccess_sticky { s with script := rest } acc
  · exact ⟨id, id⟩

/-- Settles O52: a host step can add a fault, and a perform step and a reset leave the record as it was. -/
theorem hostFaultsAndParametersStay : Obligations.HostFaultsAndParametersStay := by
  intro s t h
  rcases step_eq_next h with ⟨-, rfl⟩ | ⟨-, hperform⟩ | ⟨-, rfl⟩
  · exact ⟨hostStep_params s.advance, hostStep_sticky s.advance⟩
  · rcases performStep_eq_next hperform with ⟨e, rfl, -⟩ | ⟨c, rfl, -⟩
    · exact ⟨rfl, id, id⟩
    · exact ⟨rfl, id, id⟩
  · exact ⟨rfl, id, id⟩

/-! ### The interrupt -/

theorem State.irq_eq_true_iff (s : State) : s.irq = true ↔ s.ie = true ∧ s.status.done = true := by
  simp [State.irq]

@[simp] theorem State.irq_succeed (s : State) (e : Effect) : (s.succeed e).irq = s.ie := by simp [State.irq]

@[simp] theorem State.irq_fail (s : State) (c : ErrCode) : (s.fail c).irq = s.ie := by simp [State.irq]

@[simp] theorem State.irq_startCommand (s : State) (w : Word) : (s.startCommand w).irq = false := by simp [State.irq]

@[simp] theorem State.irq_dropCommand (s : State) : s.dropCommand.irq = s.irq := rfl

/-- A write of 1 to bit 1 of `STATUS` clears DONE, and the interrupt with it (R17, R107). -/
theorem irq_writeReg_status {w : Word} (h : w.getLsbD 1 = true) (s : State) : (writeReg s .status w).irq = false := by
  simp [writeReg, State.irq, h]

/-- A write of 0 to bit 0 of `CTRL` clears IE, and the interrupt with it (R14). -/
theorem irq_writeReg_ctrl {w : Word} (h : w.getLsbD 0 = false) (s : State) : (writeReg s .ctrl w).irq = false := by
  simp only [writeReg, State.irq, h, Bool.false_and]

/-- A command that completes, with or without error, raises the interrupt where it is enabled (R105). -/
theorem exec_irq {i : Instr} {s t : State} (h : exec i s = .next t) : t.irq = s.ie := by
  rcases exec_eq_next h with ⟨e, -, rfl, -⟩ | ⟨c, -, rfl, -⟩
  · exact s.irq_succeed e
  · exact s.irq_fail c

/-- Settles O53: each clause is what its operation (completion, acknowledgement, IE = 0, start, drop) makes of IE and
DONE. -/
theorem interruptFollowsEnableAndDone : Obligations.InterruptFollowsEnableAndDone := by
  intro s
  refine ⟨s.irq_eq_true_iff, fun i t => exec_irq, fun w hack => ?_, fun w hoff => ?_, fun w hidle => ?_,
    fun w hbusy => ?_⟩
  · rw [hostAccess_writeReg w (by decide) (by decide) (r := .status) rfl]
    exact irq_writeReg_status hack s
  · rw [hostAccess_writeReg w (by decide) (by decide) (r := .ctrl) rfl]
    exact irq_writeReg_ctrl hoff s
  · rw [hostAccess_writeCmd_of_idle w hidle]
    exact s.irq_startCommand w
  · rw [hostAccess_writeCmd_of_busy w hbusy]
    exact s.irq_dropCommand

end Sys2Proof.Machine
end

section
/-! Window accesses while BUSY = 1, and the reset step (70_reset_and_hazards.md R116, R117, R119; 10_state.md R26). -/

namespace Sys2Proof.Machine

/-! ### Window accesses while BUSY -/

/-- What an access without effect adds to the host's record: the 0 of a read, and nothing for a write (R109). -/
theorem State.noEffect_eq_ite (s : State) (k : AccessKind) :
    s.noEffect k = { s with reads := if k = .read then 0 :: s.reads else s.reads } := by
  cases k with
  | read => rfl
  | write v => rfl

/-- R119: an access of the host to a byte of `MEM` while BUSY = 1 is the recorded fault, without effect. -/
theorem windowAccess_of_busy {s : State} (k : AccessKind) {a : Nat} (ha : a < s.params.memBytes)
    (hbusy : s.status.busy = true) : windowAccess s k a = s.recordMemWhileBusy.noEffect k :=
  (if_neg (Nat.not_le.mpr ha)).trans (if_pos hbusy)

/-- Settles O50: a byte of `MEM` lies in the window, where the access of a busy block has no effect. -/
theorem bufferAccessWhileBusyIsRecorded : Obligations.BufferAccessWhileBusyIsRecorded := by
  intro s k a hlegal hbusy ha
  have hwindow : a < 0x10000 := ha.trans_le (Params.memBytes_le hlegal)
  rw [hostAccess_window s k hwindow, windowAccess_of_busy k ha hbusy]
  exact s.recordMemWhileBusy.noEffect_eq_ite k

/-! ### The reset step -/

/-- A reset has a step at any time, so a reset slot in front is the next to be taken (R116). -/
theorem agenda_of_reset {s : State} {rest : List Slot} (h : s.sched = .reset :: rest) : agenda s = .reset :: rest := by
  simp [agenda, h, enabled]

theorem mover_of_reset {s : State} {rest : List Slot} (h : s.sched = .reset :: rest) : mover s = some .reset := by
  simp [mover, agenda_of_reset h]

/-- Where the reset input moves, the step is a reset of the state with its slot taken off. -/
theorem step_of_mover_reset {s : State} (h : mover s = some .reset) : step s = .next s.advance.assertReset := by
  simp [step, h]

theorem State.advance_of_reset {s : State} {rest : List Slot} (h : s.sched = .reset :: rest) :
    s.advance = { s with sched := rest } := by
  simp [State.advance, agenda_of_reset h]

/-- After a reset no byte is written, so every byte reads as its draw of the new epoch (R26, R116). -/
theorem State.readByte_assertReset (s : State) (a : Nat) :
    s.assertReset.readByte a = Config.memDraw (s.epoch + 1) a := rfl

/-- Settles O55: the reset slot is taken before any other, and the step is `assertReset` whether or not a command is
pending. -/
theorem resetStepDiscardsPendingCommand : Obligations.ResetStepDiscardsPendingCommand := by
  intro s rest hsched
  refine ⟨s.advance.assertReset, step_of_mover_reset (mover_of_reset hsched), ?_,
    s.advance.readByte_assertReset⟩
  rw [State.advance_of_reset hsched]
  rfl

end Sys2Proof.Machine
end
